-- ==== Sys2Proof/Word.lean ====
section
/-! DEFINITION. The two word types of the block: bytes (both buffers, every wire format) and 32-bit register words. -/

namespace Sys2Proof

/-- A ByteValue, "an integer in [0,255]" (spec/00_scope.md R9). -/
abbrev Byte := BitVec 8

/-- A host-visible register: "every access is a whole 32-bit access" (spec/10_state.md R21). -/
abbrev Word := BitVec 32

end Sys2Proof
end

