-- ==== Sys2Proof/Config.lean ====
section
/-! DEFINITION. The parameters the spec fixes (spec/00_scope.md R6, R7), the two it leaves open (a record, an argument of
the model), and the free values: constants without a body, which nothing in Lean can evaluate. -/

namespace Sys2Proof

/-- The open parameters of spec/00_scope.md R7 and spec/92_eei_decisions.md D5: the capacities of the two buffers.
They are arguments of the model, carried in the state as a record that no step changes (assumption log 1). -/
structure Config where
  /-- `IBUF_CAP`. -/
  ibufCap : Nat
  /-- `OBUF_CAP`. -/
  obufCap : Nat
deriving DecidableEq, Repr

/-- `MAX_LEN = 2^32 - 1` (R7). -/
def Config.maxLen : Nat := 2 ^ 32 - 1
/-- `WINDOW_SIZE` (R6). -/
def Config.windowSize : Nat := 4096
/-- `LOOKAHEAD_SIZE` (R6). -/
def Config.lookaheadSize : Nat := 18
/-- `MIN_MATCH_LENGTH` (R6). -/
def Config.minMatchLength : Nat := 3
/-- `NODE_CAP = 2*NSYM - 1` (R7). -/
def Config.nodeCap : Nat := 511
/-- `MATCH_MARK` (R6). -/
def Config.matchMark : Byte := 0xFF
/-- `ESC_MARK` (R6). -/
def Config.escMark : Byte := 0xFE

/-- "1 <= IBUF_CAP <= 2^32 - 1" and the same for `OBUF_CAP` (R7). -/
def Config.wf (c : Config) : Bool :=
  1 ≤ c.ibufCap && c.ibufCap ≤ Config.maxLen && 1 ≤ c.obufCap && c.obufCap ≤ Config.maxLen

/-- FREE VALUE: the byte at an address of a buffer whose content the spec calls unspecified (U1, U2, U5, U6 of
spec/93_implementation_defined.md), and the bytes a host reads from `OBUF` while `BUSY = 1` (U3). The first argument tells
one unspecified content from the next, the second is the address (assumption log 3). -/
opaque Config.freeByte : Nat → Nat → Byte

/-- FREE VALUE: what a host reads from `OUT_LEN` while `BUSY = 1` (U3 of spec/93_implementation_defined.md; log 4). -/
opaque Config.freeWord : Nat → Word

/-- FREE VALUE: the numbers that pick an unspecified outcome of an operation whose input the host changed (U4 of
spec/93_implementation_defined.md; log 5). -/
opaque Config.freeNat : Nat → Nat

end Sys2Proof
end

