-- ==== Sys2Proof/Machine/State.lean ====
section
/-! DEFINITION. The state of the block as plain data (spec/10_state.md): the host-visible registers, the two buffers, the
engine-internal state, and what the model adds to hold the host's side (its pending actions, what it last read, and the
counters of the free values). Also the two ways a step can stop, and the state after reset. -/

namespace Sys2Proof.Machine

/-- The five error kinds (spec/60_exceptions.md R232); "a model's error type has exactly five kinds". -/
inductive ErrorKind where
  | malformedHeader | truncatedStream | corruptTree | capacity | illegalCommand
deriving DecidableEq, Repr

/-- `STATUS` by its fields (R23); `err` is `none` for `ERR = 0`. The 32-bit register is computed from it
(`Status.word`), so its reserved bits read 0. -/
structure Status where
  busy : Bool
  done : Bool
  empty : Bool
  err : Option ErrorKind
deriving DecidableEq, Repr

/-- `PHASE` (R24). -/
inductive Phase where
  | idle
  | heFreq | heBuild | heCodes | heHeader | hePack
  | hdHeader | hdTree | hdWalk
  | leHeader | leScan
  | ldHeader | ldTokens
deriving DecidableEq, Repr

/-- The kind of a node and the fields that kind has (R31, R32): the `WRAP` node has a left child only. -/
inductive NodeShape where
  | leaf (byte : Byte)
  | internal (left right : Nat)
  | wrap (left : Nat)
deriving DecidableEq, Repr

/-- One entry of `NODE` (R31). -/
structure Node where
  shape : NodeShape
  weight : Nat
deriving DecidableEq, Repr

/-- One entry of `PQ` (R33). -/
structure PQEntry where
  weight : Nat
  idx : Nat
deriving DecidableEq, Repr

/-- The `stage` bit of a parse-stack entry (R36): which child of the node is being parsed. -/
inductive Stage where
  | left | right
deriving DecidableEq, Repr

/-- One entry of `PSTK` (R36). -/
structure ParseFrame where
  idx : Nat
  stage : Stage
deriving DecidableEq, Repr

/-- A tree as a value, "`Leaf b | Internal l r | Wrap l`" (R31): what `NODE` holds at an index. -/
inductive Tree where
  | leaf (byte : Byte)
  | internal (left right : Tree)
  | wrap (left : Tree)
deriving DecidableEq, Repr

/-- The engine-internal state: cursors (R25), unit memories (R30 to R38) and the `has_next` flag (R28). Counters and
indexes are naturals, "since no rule depends on a cursor's width" (R25). `NNODES`, `PQ_SIZE`, `opos` and the depth of
`PSTK` are the lengths of the lists they count; `HIST`, `LA` and `DHIST` are views (Machine/Operands.lean). -/
structure Engine where
  /-- `ipos` (R25). -/
  ipos : Nat
  /-- `out`, the output so far; `opos` is its length (R10, R25). -/
  out : List Byte
  /-- `tcur` (R25). -/
  tcur : Nat
  /-- `bcur` (R25). -/
  bcur : Nat
  /-- `TOTAL_BITS` (R25). -/
  totalBits : Nat
  /-- `FREQ` (R30). -/
  freq : Vector Nat 256
  /-- `NODE`, the entries in use (R31). -/
  node : List Node
  /-- `ROOT` (R31). -/
  root : Nat
  /-- `PQ[0 .. PQ_SIZE)` (R33). -/
  pq : List PQEntry
  /-- `CODE` (R34): the code as a list of bits, empty when the byte is absent. -/
  code : Vector (List Bool) 256
  /-- `ACC` (R35). -/
  acc : Byte
  /-- `ACC_N` (R35). -/
  accN : Nat
  /-- `PSTK`, the innermost entry first (R36). -/
  pstk : List ParseFrame
  /-- `WALK` (R36). -/
  walk : Nat
  /-- `ORIG_LEN` (R36, R38). -/
  origLen : Word
  /-- `TREE_LEN` (R36). -/
  treeLen : Word
  /-- `PAD` (R36). -/
  pad : Byte
  /-- `BEST_LEN` (R37). -/
  bestLen : Nat
  /-- `BEST_DIST` (R37). -/
  bestDist : Nat
  /-- `has_next` (R28). -/
  hasNext : Bool
deriving DecidableEq, Repr

/-- "At the start of every operation the engine initialises all the state the operation uses" (R39). The start values that R39
does not name (`has_next`, `ROOT`, `ACC`, `WALK`, `ORIG_LEN`, `TREE_LEN`, `PAD`) are false and 0: DESIGN CHOICE (assumption log
8). `PSTK` is empty, as the recursion it replaces begins with no call open (R36, R153). -/
def Engine.start : Engine :=
  { ipos := 0, out := [], tcur := 0, bcur := 0, totalBits := 0, freq := Vector.replicate 256 0, node := [], root := 0,
    pq := [], code := Vector.replicate 256 [], acc := 0, accN := 0, pstk := [], walk := 0, origLen := 0, treeLen := 0,
    pad := 0, bestLen := 0, bestDist := 0, hasNext := false }

/-- A buffer: the bytes that have a known value, by address, in canonical form (addresses strictly rising). An unlisted
address has no known value; what reading it gives is a free value (assumption log 3). -/
abbrev Memory := List Host.Cell

/-- The width of a register access. Only whole words reach a register (spec/20_memory.md R54). -/
inductive AccessSize where
  | byte | half | word
deriving DecidableEq, Repr

/-- What the host can do to the block (spec/30_encoding.md R88, spec/70_reset_and_hazards.md R260 to R268). -/
inductive HostAction where
  /-- A write access to the register space. -/
  | writeReg (size : AccessSize) (offset : Nat) (value : Word)
  /-- A read access to the register space. -/
  | readReg (size : AccessSize) (offset : Nat)
  /-- A write of one byte of `IBUF`. -/
  | writeIbuf (address : Nat) (value : Byte)
  /-- A read of one byte of `IBUF`. -/
  | readIbuf (address : Nat)
  /-- A write of one byte of `OBUF`. -/
  | writeObuf (address : Nat) (value : Byte)
  /-- A read of one byte of `OBUF`. -/
  | readObuf (address : Nat)
  /-- `WAIT DONE`: nothing until `STATUS.DONE = 1`. -/
  | waitDone
  /-- The reset input `rst` (R260). -/
  | reset
deriving DecidableEq, Repr

/-- A pending action and how many moves of a running engine the host lets pass before it: the interleaving of the two
agents (R8, R59) as plain data (assumption log 7). An idle engine has no move, so the delay then counts for nothing. -/
structure HostEvent where
  delay : Nat
  action : HostAction
deriving DecidableEq, Repr

/-- The whole state. The first part is the spec's: parameters, registers, buffers, engine (R20). The second is the
model's own: the host's pending actions, the value it last read, and what the free values need. -/
structure State where
  /-- `IBUF_CAP` and `OBUF_CAP`; no step writes it. -/
  cfg : Config
  /-- `STATUS` (R23). -/
  status : Status
  /-- `IN_LEN` (R26). -/
  inLen : Word
  /-- `OUT_LEN` (R27). -/
  outLen : Word
  /-- `PHASE` (R24). -/
  phase : Phase
  /-- `IBUF` (R29). -/
  ibuf : Memory
  /-- `OBUF` (R29). -/
  obuf : Memory
  /-- The engine-internal state. -/
  eng : Engine
  /-- MODEL'S OWN: the host's pending actions, the next one first. -/
  hostq : List HostEvent
  /-- MODEL'S OWN: the value the host's last read returned. -/
  rdata : Word
  /-- MODEL'S OWN: which unspecified content the unlisted bytes of `IBUF` have. -/
  ibufSeed : Nat
  /-- MODEL'S OWN: which unspecified content the unlisted bytes of `OBUF` have. -/
  obufSeed : Nat
  /-- MODEL'S OWN: the counter that the free values are drawn from. -/
  fresh : Nat
  /-- MODEL'S OWN: the host changed the input of the running operation (R267). -/
  hazard : Bool
  /-- MODEL'S OWN: the `OBUF` addresses the host wrote during the running operation (R268). -/
  obufDirty : List Nat
deriving DecidableEq, Repr

/-- Why the machine stops with a fault. Neither is raised by an instruction. -/
inductive Fault where
  /-- A host access to a buffer address at or beyond the buffer's capacity, an address that does not exist (R29). Raised by
  the host port. Safe: the machine stops. -/
  | bufferAddress
  /-- The unit memories hold what no operation puts there: no tree at `ROOT`, an empty queue while a tree is built, a walk
  that stands on a leaf. Raised by the phases `HE_BUILD` to `HE_HEADER`, `HD_TREE` and `HD_WALK`, in states that no
  operation reaches (R105 to R107, R153, R155, R158). Safe: the machine stops. -/
  | unitMemory
deriving DecidableEq, Repr

/-- Why the model has no meaning to give. -/
inductive Refusal where
  /-- The instruction has no meaning in the model yet. Raised by exec's arms only; no arm does. Safe. -/
  | notModelled (mnemonic : String)
deriving DecidableEq, Repr

/-- What a step or a meaning answers. -/
abbrev Result := Host.Outcome State Fault Refusal

/-- The capacities of the machine of `State.reset`: "65536 serves for every vector here" (spec/95_test_vectors.md). The
spec leaves them open; DESIGN CHOICE (assumption log 1). -/
def Config.reset : Config := { ibufCap := 65536, obufCap := 65536 }

/-- The block right after reset (R40, R260): `STATUS = 0`, `IN_LEN = 0`, `OUT_LEN = 0`, `PHASE = IDLE`, both buffers
unspecified (nothing listed). The unit memories, which the spec leaves unspecified, hold what an operation starts from
(log 8); the model's own fields are empty or 0 (log 9). -/
def State.reset : State :=
  { cfg := Config.reset, status := { busy := false, done := false, empty := false, err := none },
    inLen := 0, outLen := 0, phase := .idle, ibuf := [], obuf := [], eng := Engine.start,
    hostq := [], rdata := 0, ibufSeed := 0, obufSeed := 1, fresh := 2, hazard := false, obufDirty := [] }

end Sys2Proof.Machine
end

