-- ==== Sys2Proof/Machine/Flags.lean ====
section
/-! DEFINITION. The status register as software reads it (spec/10_state.md R23, R28; spec/60_exceptions.md R232, R236). The
block has no condition codes and no arithmetic flags (R28). -/

namespace Sys2Proof.Machine

/-- `code(kind)` (R232, R234). -/
def ErrorKind.code : ErrorKind → Nat
  | .malformedHeader => 1
  | .truncatedStream => 2
  | .corruptTree => 3
  | .capacity => 4
  | .illegalCommand => 5

/-- `STATUS.ERR`, bits 7:4 (R23). -/
def Status.errCode (st : Status) : Nat := (st.err.map ErrorKind.code).getD 0

/-- The 32-bit value of `STATUS`: `BUSY` bit 0, `DONE` bit 1, `EMPTY` bit 2, `ERR` bits 7:4, all others 0 (R23). -/
def Status.word (st : Status) : Word :=
  BitVec.ofNat 32 (st.busy.toNat + 2 * st.done.toNat + 4 * st.empty.toNat + 16 * st.errCode)

/-- The output line `done` carries `STATUS.DONE` (R236). -/
def State.doneLine (s : State) : Bool := s.status.done

/-- The `has_next` flag of a match at `pos` of length `l` in an input of length `n` (R28,
spec/44_lz77_encoder.md R188): there is a byte after the match. -/
def hasNextFlag (n pos l : Nat) : Bool := pos + l < n

end Sys2Proof.Machine
end

