-- ==== Sys2Proof/Machine/Ops.lean ====
section
/-! DEFINITION. The named operations: the buffers' bytes, emitting a byte, accepting a command, completing, and failing,
which is this block's taking of an exception (spec/60_exceptions.md R234); there is no return from it (R239). -/

namespace Sys2Proof.Machine

/-! ## Buffers -/

/-- The canonical form: addresses strictly rising. -/
def Memory.wf : Memory → Bool
  | [] => true
  | [_] => true
  | c :: d :: rest => c.1 < d.1 && Memory.wf (d :: rest)

/-- The known value at an address, if there is one. -/
def Memory.read? : Memory → Nat → Option Byte
  | [], _ => none
  | c :: rest, a => if c.1 = a then some c.2 else Memory.read? rest a

/-- Writing one byte keeps the addresses rising. -/
def Memory.write : Memory → Nat → Byte → Memory
  | [], a, b => [(a, b)]
  | c :: rest, a, b =>
    if a < c.1 then (a, b) :: c :: rest
    else if a = c.1 then (a, b) :: rest
    else c :: Memory.write rest a b

/-- The cells of a byte sequence laid out from an address: element `i` at address `a + i` (R50). -/
def Memory.ofBytes : Nat → List Byte → Memory
  | _, [] => []
  | a, b :: rest => (a, b) :: Memory.ofBytes (a + 1) rest

/-- The memory without the known values at the given addresses. -/
def Memory.forget (m : Memory) (addresses : List Nat) : Memory := m.filter fun c => !addresses.contains c.1

/-- `MemRead(IBUF, a, 1)` (R10): the known byte, or the free byte of the unspecified content. -/
def State.ibufByte (s : State) (a : Nat) : Byte := (s.ibuf.read? a).getD (Config.freeByte s.ibufSeed a)

/-- The byte of `OBUF` at an address, as `ibufByte`. -/
def State.obufByte (s : State) (a : Nat) : Byte := (s.obuf.read? a).getD (Config.freeByte s.obufSeed a)

/-- `OBUF` becomes unspecified: nothing is known of it any more (U2, U6). -/
def State.loseObuf (s : State) : State := { s with obuf := [], obufSeed := s.fresh, fresh := s.fresh + 1 }

/-- The result `out` stands in `OBUF[0 .. len(out))`, all other bytes are unspecified (R216, R269), and so are the bytes the
host wrote during the operation (R268). -/
def State.storeResult (s : State) (out : List Byte) : State :=
  { s with obuf := (Memory.ofBytes 0 out).forget s.obufDirty, obufSeed := s.fresh, fresh := s.fresh + 1 }

/-! ## Emitting -/

/-- `emit(b)` (R10): appends one byte to the output. -/
def State.emit (s : State) (b : Byte) : State := { s with eng := { s.eng with out := s.eng.out ++ [b] } }

/-- The input cursor moves on by the length of a unit (R25). -/
def State.advance (s : State) (n : Nat) : State := { s with eng := { s.eng with ipos := s.eng.ipos + n } }

/-! ## Commands -/

/-- What the acceptance of any command does first (spec/46_command_interface.md R215). -/
def State.accept (s : State) : State :=
  { s with status := { s.status with done := false, empty := false, err := none }, outLen := 0 }

/-- `Complete()` (R216). -/
def State.complete (s : State) : State :=
  { s with status := { s.status with busy := false, done := true }, phase := .idle }

/-- `Fail(kind)` (R234): no result, the code, idle. Nothing is saved, there is no handler. -/
def State.fail (s : State) (kind : ErrorKind) : State :=
  { s with
    outLen := 0
    status := { busy := false, done := true, empty := false, err := some kind }
    phase := .idle }

/-- The ownership marks of an operation end with it. -/
def State.release (s : State) : State := { s with hazard := false, obufDirty := [] }

/-- An operation that fails: `Fail(kind)`, and `OBUF` is unspecified (R234, U2). The cursors and unit memories stay as they are:
what they hold after an operation is open (R39, U7), DESIGN CHOICE (assumption log 23). -/
def State.failOperation (s : State) (kind : ErrorKind) : State := (s.loseObuf.fail kind).release

/-- An operation that delivers `out`: `OUT_LEN`, `OBUF`, `EMPTY` and `ERR = 0`, then `Complete()` (R136, R159, R189, R204,
R216). -/
def State.deliver (s : State) (out : List Byte) (empty : Bool) : State :=
  let s' := s.storeResult out
  { s' with
    outLen := BitVec.ofNat 32 out.length
    status := { s'.status with empty := empty, err := none } }.complete.release

/-- The start of an operation (R215, R220, R231, R39): `BUSY`, the capacity check, the empty input, and otherwise the first
phase with the unit memories initialised. That the first two complete in this very step, so that `BUSY = 1` is never seen, is a
DESIGN CHOICE (assumption log 18): R270 leaves any finite time and R219 allows the atomic step. -/
def State.startOperation (s : State) (first : Phase) : State :=
  let a := s.accept
  let b := { a with status := { a.status with busy := true } }
  if b.inLen.toNat > b.cfg.ibufCap then b.failOperation .capacity
  else if b.inLen = 0 then b.deliver [] true
  else { b with phase := first, eng := Engine.start }.release

/-- A write to `CMD` while `BUSY = 1` is not a command and has no effect (R215, R266). -/
def State.whenIdle (s : State) (effect : State) : Result := if s.status.busy then .next s else .next effect

/-! ## Reset and hazards -/

/-- The reset input (R260, R261): the registers of R40, both buffers unspecified. The capacities are the block's, the
pending actions and the last value read are the host's; the unit memories keep what they hold (log 8). -/
def State.resetBlock (s : State) : State :=
  { s with
    status := { busy := false, done := false, empty := false, err := none }
    inLen := 0, outLen := 0, phase := .idle
    ibuf := [], ibufSeed := s.fresh, obuf := [], obufSeed := s.fresh + 1, fresh := s.fresh + 2
    hazard := false, obufDirty := [] }

/-- The error codes 1 to 4 of an unspecified outcome (U4). -/
def hazardKind : Nat → Option ErrorKind
  | 1 => some .malformedHeader
  | 2 => some .truncatedStream
  | 3 => some .corruptTree
  | 4 => some .capacity
  | _ => none

/-- The end of an operation whose input the host changed: "it completes or fails, with any of the error codes or with any
output of any length up to `OBUF_CAP`" (R267, U4). Which of them is a free value. -/
def State.endHazard (s : State) : State :=
  match hazardKind (Config.freeNat s.fresh % 5) with
  | some kind => { s with fresh := s.fresh + 1 }.failOperation kind
  | none =>
    let len := Config.freeNat (s.fresh + 1) % (s.cfg.obufCap + 1)
    let empty := len == 0 && Config.freeNat (s.fresh + 2) % 2 == 0
    let s' := { s with fresh := s.fresh + 3 }.loseObuf
    { s' with
      outLen := BitVec.ofNat 32 len
      status := { s'.status with empty := empty, err := none } }.complete.release

end Sys2Proof.Machine
end

