-- ==== Sys2Proof/Machine/Command.lean ====
section
/-! DEFINITION. The meanings of the command words (spec/46_command_interface.md): each is what a host write of the word to
`CMD` does. An operation starts here and the engine's later steps carry it out, phase by phase (spec/10_state.md R24). -/

namespace Sys2Proof.Machine

/-- NOP: accept and complete at once (R215, R217). -/
def execNop (s : State) : Result := s.whenIdle s.accept.complete

/-- HUFF_ENC: the operation starts with `HE_FREQ` (R215, R135, R136). -/
def execHuffEnc (s : State) : Result := s.whenIdle (s.startOperation .heFreq)

/-- HUFF_DEC: the operation starts with `HD_HEADER` (R215, R159). -/
def execHuffDec (s : State) : Result := s.whenIdle (s.startOperation .hdHeader)

/-- LZ77_ENC: the operation starts with `LE_HEADER` (R215, R185, R189). -/
def execLz77Enc (s : State) : Result := s.whenIdle (s.startOperation .leHeader)

/-- LZ77_DEC: the operation starts with `LD_HEADER` (R215, R204). -/
def execLz77Dec (s : State) : Result := s.whenIdle (s.startOperation .ldHeader)

/-- ILLEGAL_5: accepted, nothing runs, `Fail(IllegalCommand)` (R218). -/
def execIllegal5 (s : State) : Result := s.whenIdle (s.accept.fail .illegalCommand)

/-- ILLEGAL_6: as R218 says. -/
def execIllegal6 (s : State) : Result := s.whenIdle (s.accept.fail .illegalCommand)

/-- ILLEGAL_7: as R218 says. -/
def execIllegal7 (s : State) : Result := s.whenIdle (s.accept.fail .illegalCommand)

end Sys2Proof.Machine
end

