-- ==== Sys2Proof/Machine/Bits.lean ====
section
/-! DEFINITION. Byte order and bit order (spec/20_memory.md R51, R52; spec/00_scope.md R9; spec/41_huffman_encoder.md R131):
every helper that turns numbers into bytes, bytes into bits and back. -/

namespace Sys2Proof

/-- `be32(n)`, most significant byte first (R9, R51). -/
def be32 (n : Word) : List Byte :=
  [n.extractLsb' 24 8, n.extractLsb' 16 8, n.extractLsb' 8 8, n.extractLsb' 0 8]

/-- `be32_dec` of four bytes (R9). -/
def be32Dec (a b c d : Byte) : Word := a ++ b ++ c ++ d

/-- `distance = distanceHigh * 256 + distanceLow` (spec/30_encoding.md R84). -/
def be16Dec (high low : Byte) : BitVec 16 := high ++ low

/-- Bit `j` of a byte in stream order: bit `7 - j`, most significant first (R52). -/
def msbBit (b : Byte) (j : Nat) : Bool := b.getLsbD (7 - j)

/-- `bits8(b)` (R9). -/
def byteBits (b : Byte) : List Bool := (List.range 8).map (msbBit b)

/-- One bit shifted into an accumulator from the right (R131). -/
def shiftIn (acc : Byte) (bit : Bool) : Byte := (acc <<< 1) ||| (if bit then 1 else 0)

/-- The byte whose bits, most significant first, are the eight given (R131). -/
def bitsByte (bs : List Bool) : Byte := bs.foldl shiftIn 0

/-- The bit string of a byte sequence (R52). -/
def unpackBits (bytes : List Byte) : List Bool := bytes.flatMap byteBits

/-- Number of padding bits to a byte boundary: 0 when there is nothing to pad, never 8 (R78, R131). -/
def padCount (n : Nat) : Nat := (8 - n % 8) % 8

/-- `Pack(bs)`: the bytes and the padding count (R131). -/
def pack (bs : List Bool) : List Byte × Nat :=
  let padded := bs ++ List.replicate (padCount bs.length) false
  ((List.range (padded.length / 8)).map fun k => bitsByte ((padded.drop (8 * k)).take 8), padCount bs.length)

/-- Byte `k` of a number, counted from the least significant: the numbering of spec/opcode_table.json. -/
def byteOf (w k : Nat) : Byte := BitVec.ofNat 8 (w >>> (8 * k))

end Sys2Proof
end

