-- ==== Sys2Proof/Machine/Operands.lean ====
section
/-! DEFINITION. What the engine reads: the input, the tree field and the payload bit by bit, and the views of
spec/10_state.md R35, R37, R38 (the unpacker's byte, `HIST`, `LA`, `DHIST`). -/

namespace Sys2Proof.Machine

/-- `L = n = IN_LEN`, as a number (R26). -/
def State.n (s : State) : Nat := s.inLen.toNat

/-- The bytes of `IBUF` at addresses `a .. a+k-1` (R10). -/
def State.ibufBytes (s : State) (a k : Nat) : List Byte := (List.range k).map fun j => s.ibufByte (a + j)

/-- `in = MemRead(IBUF, 0, IN_LEN)` (R10, R50). -/
def State.input (s : State) : List Byte := s.ibufBytes 0 s.n

/-- The bytes from the cursor on, at most `k` and never beyond `IN_LEN` (R57). -/
def State.inputAt (s : State) (k : Nat) : List Byte := s.ibufBytes s.eng.ipos (min k (s.n - s.eng.ipos))

/-- Bit `j` of a packed field that starts at byte `a` (R52, spec/30_encoding.md R86). -/
def State.fieldBit (s : State) (a j : Nat) : Bool := msbBit (s.ibufByte (a + j / 8)) (j % 8)

/-- `T`, the length of the tree field in bytes (R150). -/
def State.t (s : State) : Nat := s.eng.treeLen.toNat

/-- `TB = 8 * T` (R153). -/
def State.tb (s : State) : Nat := 8 * s.t

/-- `tbit(j)` (R153). -/
def State.tbit (s : State) (j : Nat) : Bool := s.fieldBit 8 j

/-- The bits of the tree field from `tcur` on, at most `k` and never beyond `TB` (R153). -/
def State.treeBits (s : State) (k : Nat) : List Bool :=
  (List.range (min k (s.tb - s.eng.tcur))).map fun j => s.tbit (s.eng.tcur + j)

/-- `P`, the length of the payload in bytes (R151). -/
def State.p (s : State) : Nat := s.n - 9 - s.t

/-- `NB = 8 * P - PAD`, the number of real payload bits (R151). -/
def State.nb (s : State) : Nat := 8 * s.p - s.eng.pad.toNat

/-- `pbit(j)` (spec/42_huffman_decoder.md R157). -/
def State.pbit (s : State) (j : Nat) : Bool := s.fieldBit (9 + s.t) j

/-- The unpacker's current payload byte (R35): a view given by `bcur`. -/
def State.payloadByte (s : State) : Byte := s.ibufByte (9 + s.t + s.eng.bcur / 8)

/-- `HIST`: `in[max(0, pos - 4096) .. pos)` (R37). -/
def histView (input : List Byte) (pos : Nat) : List Byte :=
  (input.take pos).drop (pos - Config.windowSize)

/-- `LA`: `in[pos .. min(n, pos + 18))` (R37). -/
def lookahead (input : List Byte) (pos : Nat) : List Byte := (input.drop pos).take Config.lookaheadSize

/-- `DHIST` at distance `d`: `out[len(out) - d]` for `1 <= d <= min(len(out), 4096)` (R38). -/
def dhist (out : List Byte) (d : Nat) : Option Byte :=
  if 1 ≤ d ∧ d ≤ Config.windowSize ∧ d ≤ out.length then out[out.length - d]? else none

/-- `N = ORIG_LEN`, as a number (R200). -/
def State.origN (s : State) : Nat := s.eng.origLen.toNat

/-- Leave to emit `k` more bytes without exceeding `OBUF_CAP` (spec/60_exceptions.md R240). -/
def State.fits (s : State) (k : Nat) : Bool := s.eng.out.length + k ≤ s.cfg.obufCap

end Sys2Proof.Machine
end

