-- ==== Sys2Proof/Machine/HuffDecoder.lean ====
section
/-! DEFINITION. Unit U6 (spec/42_huffman_decoder.md): the meanings of the header `HB` and of the tree records `ST.LEAF` and
`ST.NODE`, and the phases `HD_TREE` and `HD_WALK`. -/

namespace Sys2Proof.Machine

/-! ## Header -/

/-- The checks of R150 to R152 in their order, and `none` where all pass. `t` is `treeLength`, `L` the buffer's length. -/
def huffHeaderError (L cap : Nat) (originalLength : Word) (t : Nat) (pad : Byte) : Option ErrorKind :=
  if L < 9 then some .malformedHeader
  else if 9 + t > L then some .malformedHeader
  else if pad.toNat > 7 then some .malformedHeader
  else if pad.toNat > 8 * (L - 9 - t) then some .malformedHeader
  else if originalLength.toNat > cap then some .capacity
  else none

/-- HB: the header of a Huffman buffer (R150, R151, R152): the checks, then the header values and an empty tree memory, and
the tree is parsed next (R153). Where a check fails, `ORIG_LEN`, `TREE_LEN` and `PAD` stay as they were (DESIGN CHOICE,
assumption log 23). -/
def execHb (originalLength : Word) (tree : List Byte) (paddingBitCount : Byte) (s : State) : Result :=
  match huffHeaderError s.n s.cfg.obufCap originalLength tree.length paddingBitCount with
  | some kind => .next (s.failOperation kind)
  | none =>
    .next
      { s with
        eng :=
          { s.eng with
            origLen := originalLength, treeLen := BitVec.ofNat 32 tree.length, pad := paddingBitCount,
            tcur := 0, node := [], pstk := [], out := [] }
        phase := .hdTree }

/-! ## Tree deserializer -/

/-- The shape of the node at an index. -/
def shapeAt (node : List Node) (i : Nat) : Option NodeShape := (node[i]?).map (·.shape)

/-- A node of the decoder; it has no weight (R31, R153). -/
def decoderNode (shape : NodeShape) : Node := { shape := shape, weight := 0 }

/-- What a finished subtree leaves behind: the memory, the stack, and the root where the tree is complete. -/
structure ParseState where
  node : List Node
  pstk : List ParseFrame
  root : Option Nat
deriving DecidableEq, Repr

/-- A subtree with root `c` is complete: it becomes the child its parent waits for, and a parent that is then complete
goes on to its own parent (R153, by the stack of spec/10_state.md R36). `left` is the number of bits left in the tree field:
at the root, fewer than 9 make it a `WRAP` node, if its child is a leaf (R154). -/
def attach (left : Nat) : List Node → List ParseFrame → Nat → Except ErrorKind ParseState
  | node, [], c => .ok { node := node, pstk := [], root := some c }
  | node, f :: rest, c =>
    match f.stage with
    | .left =>
      if rest = [] ∧ left < 9 then
        match shapeAt node c with
        | some (.leaf _) => attach left (node.set f.idx (decoderNode (.wrap c))) rest f.idx
        | _ => .error .corruptTree
      else
        .ok
          { node := node.set f.idx (decoderNode (.internal c 0))
            pstk := { idx := f.idx, stage := .right } :: rest
            root := none }
    | .right =>
      match shapeAt node f.idx with
      | some (.internal l _) => attach left (node.set f.idx (decoderNode (.internal l c))) rest f.idx
      | _ => .error .corruptTree

/-- The two checks every record makes first: a marker bit is there, and a 512th node is not needed (R153, R155). -/
def State.noRoomForRecord (s : State) : Bool := s.tb ≤ s.eng.tcur || s.eng.node.length == Config.nodeCap

/-- ST.LEAF: a leaf with its byte value, 9 bits (R153): `CorruptTree` where the byte value is not wholly inside the tree
field; otherwise the next node is that leaf and it is complete. Where it fails, `tcur`, `NODE` and `PSTK` stay as they were
(DESIGN CHOICE, assumption log 23). -/
def execStLeaf (value : Byte) (s : State) : Result :=
  if s.noRoomForRecord || s.tb < s.eng.tcur + 9 then .next (s.failOperation .corruptTree)
  else
    match attach (s.tb - (s.eng.tcur + 9)) (s.eng.node ++ [decoderNode (.leaf value)]) s.eng.pstk s.eng.node.length with
    | .error kind => .next (s.failOperation kind)
    | .ok p =>
      .next
        { s with
          eng :=
            { s.eng with
              tcur := s.eng.tcur + 9, node := p.node, pstk := p.pstk, root := p.root.getD s.eng.root } }

/-- ST.NODE: marker `0`, 1 bit (R153): the next node is an internal one whose left subtree is parsed next. Where it fails, the
unit memories stay as they were (DESIGN CHOICE, assumption log 23). -/
def execStNode (s : State) : Result :=
  if s.noRoomForRecord then .next (s.failOperation .corruptTree)
  else
    .next
      { s with
        eng :=
          { s.eng with
            tcur := s.eng.tcur + 1
            node := s.eng.node ++ [decoderNode (.internal 0 0)]
            pstk := { idx := s.eng.node.length, stage := .left } :: s.eng.pstk } }

/-- The tree is complete: a node was allocated and none waits for a child. -/
def State.treeComplete (s : State) : Bool := s.eng.node != [] && s.eng.pstk == []

/-- The end of `HD_TREE`: the root must not be a leaf (R155); then the walk begins at it (R158). -/
def finishTree (s : State) : Result :=
  match shapeAt s.eng.node s.eng.root with
  | none => .fault .unitMemory
  | some (.leaf _) => .next (s.failOperation .corruptTree)
  | some (.internal _ _) | some (.wrap _) =>
    .next { s with eng := { s.eng with walk := s.eng.root, bcur := 0, out := [] }, phase := .hdWalk }

/-! ## Walk -/

/-- Where a bit leads from a node: `none` where the walk stands on no inner node, an error for a `1` at a `WRAP` root
(R158). -/
def childOf (shape : Option NodeShape) (bit : Bool) : Option (Except ErrorKind Nat) :=
  match shape, bit with
  | some (.internal l _), false => some (.ok l)
  | some (.internal _ r), true => some (.ok r)
  | some (.wrap l), false => some (.ok l)
  | some (.wrap _), true => some (.error .corruptTree)
  | some (.leaf _), _ | none, _ => none

/-- The walk arrives at node `i`: at a leaf its byte is emitted and the walk is back at the root (R158). -/
def arrive (s : State) (i : Nat) : Result :=
  match shapeAt s.eng.node i with
  | none => .fault .unitMemory
  | some (.leaf b) => .next { s with eng := { s.eng with out := s.eng.out ++ [b], walk := s.eng.root } }
  | some (.internal _ _) | some (.wrap _) => .next { s with eng := { s.eng with walk := i } }

/-- `HD_WALK`: one bit of the payload, or the end by count (R158, R159). A `1` at a `WRAP` root leaves `bcur` as it was (DESIGN
CHOICE, assumption log 23). -/
def stepWalk (s : State) : Result :=
  if s.origN ≤ s.eng.out.length then .next (s.deliver s.eng.out false)
  else if s.nb ≤ s.eng.bcur then .next (s.failOperation .truncatedStream)
  else
    match childOf (shapeAt s.eng.node s.eng.walk) (s.pbit s.eng.bcur) with
    | none => .fault .unitMemory
    | some (.error kind) => .next (s.failOperation kind)
    | some (.ok i) => arrive { s with eng := { s.eng with bcur := s.eng.bcur + 1 } } i

end Sys2Proof.Machine
end

