-- ==== Sys2Proof/Machine/Lz77Decoder.lean ====
section
/-! DEFINITION. Unit U9 (spec/45_lz77_decoder.md): the meanings of the header `LB` and of the tokens `LIT`, `ESC` and
`MATCH`. -/

namespace Sys2Proof.Machine

/-- The checks of R200, and `none` where all pass. -/
def lz77HeaderError (L cap : Nat) (originalLength : Word) : Option ErrorKind :=
  if L < 4 then some .malformedHeader
  else if originalLength.toNat > cap then some .capacity
  else none

/-- LB: the header of an LZ77 buffer (R200); the tokens follow at byte 4. Where a check fails, `ORIG_LEN` and `ipos` stay as they
were (DESIGN CHOICE, assumption log 23). -/
def execLb (originalLength : Word) (s : State) : Result :=
  match lz77HeaderError s.n s.cfg.obufCap originalLength with
  | some kind => .next (s.failOperation kind)
  | none => .next { s with eng := { s.eng with origLen := originalLength, ipos := 4, out := [] }, phase := .ldTokens }

/-- `CopyBack(d, l, N)` (spec/20_memory.md R63): byte by byte, each byte read `d` places back from the end of the output so
far, cut at `N`. It requires `1 <= d <= len(out)`; without a byte there it stops. -/
def copyBack (d N : Nat) : Nat → List Byte → List Byte
  | 0, out => out
  | l + 1, out =>
    if out.length = N then out
    else
      match out[out.length - d]? with
      | some b => copyBack d N l (out ++ [b])
      | none => out

/-- What a `MATCH` appends: the copy, then `nextByte` if the flag says so and the count is not reached (R203). -/
def matchOutput (N d l : Nat) (hasNext : Bool) (nx : Byte) (out : List Byte) : List Byte :=
  let copied := copyBack d N l out
  if hasNext && copied.length < N then copied ++ [nx] else copied

/-- The distance check of R203: `d == 0 or d > 4096 or d > len(out)`. -/
def badDistance (d produced : Nat) : Bool := d == 0 || d > Config.windowSize || d > produced

/-- LIT: `emit(t); ipos <- ipos + 1` (R205). -/
def execLit (value : Byte) (s : State) : Result := .next ((s.emit value).advance 1)

/-- ESC: `TruncatedStream` unless the token lies wholly in the buffer; then the byte, whatever it is (R206). -/
def execEsc (value : Byte) (s : State) : Result :=
  if s.eng.ipos + 2 > s.n then .next (s.failOperation .truncatedStream) else .next ((s.emit value).advance 2)

/-- MATCH: the token's presence, the distance, the copy, the next byte (R203). -/
def execMatch (distance : BitVec 16) (hasNext : Bool) (length : BitVec 7) (nextByte : Byte) (s : State) : Result :=
  if s.eng.ipos + 5 > s.n then .next (s.failOperation .truncatedStream)
  else if badDistance distance.toNat s.eng.out.length then .next ((s.advance 5).failOperation .malformedHeader)
  else
    .next
      { s with
        eng :=
          { s.eng with
            ipos := s.eng.ipos + 5
            out := matchOutput s.origN distance.toNat length.toNat hasNext nextByte s.eng.out } }

end Sys2Proof.Machine
end

