-- ==== Sys2Proof/Syntax.lean ====
section
/-! DEFINITION. The instructions: the rows of spec/opcode_table.json, that is every unit that some decoder of the block
reads and acts on (spec/30_encoding.md R70, R89). The seven rows LIT of the table are one constructor: they are the seven
match/mask pieces of the one format LIT (R82, R89; assumption log 2). -/

namespace Sys2Proof

/-- The encodings of spec/30_encoding.md R70: the command word (`CMDW`), a record of the serialized tree (`ST`), a token
(`LIT`, `ESC`, `MATCH`, told apart by the first byte, R81), and the two fixed headers (`HB`, `LB`). -/
inductive Format where
  | cmdw | st | token | hb | lb
deriving DecidableEq, Repr

/-- One constructor per unit of the opcode table. -/
inductive Instr where
  /-- `NOP`, `CMD.OP = 0` (R71, R217). -/
  | nop
  /-- `HUFF_ENC`, `CMD.OP = 1` (R71, R135, R136). -/
  | huffEnc
  /-- `HUFF_DEC`, `CMD.OP = 2` (R71, R159). -/
  | huffDec
  /-- `LZ77_ENC`, `CMD.OP = 3` (R71, R185, R189). -/
  | lz77Enc
  /-- `LZ77_DEC`, `CMD.OP = 4` (R71, R204). -/
  | lz77Dec
  /-- `ILLEGAL_5`, `CMD.OP = 5` (R71, R218). -/
  | illegal5
  /-- `ILLEGAL_6`, `CMD.OP = 6` (R71, R218). -/
  | illegal6
  /-- `ILLEGAL_7`, `CMD.OP = 7` (R71, R218). -/
  | illegal7
  /-- `ST.LEAF`: marker `1`, then the ByteValue, 8 bits, most significant first (R75, R153). -/
  | stLeaf (value : Byte)
  /-- `ST.NODE`: marker `0`; the subtrees are the records that follow (R75, R153). -/
  | stNode
  /-- `MATCH`: five bytes (R84, R203). -/
  | matchRef (distance : BitVec 16) (hasNext : Bool) (length : BitVec 7) (nextByte : Byte)
  /-- `ESC`: two bytes `[0xFE][value]` (R83, R206). -/
  | esc (value : Byte)
  /-- `LIT`: one byte, 0x00 to 0xFD (R82, R205). -/
  | lit (value : Byte)
  /-- `HB`: the head of a Huffman buffer: `originalLength`, `treeLength` (the length of the list), the tree field and
  `paddingBitCount`; the payload is what follows (R73, R150 to R152). -/
  | hb (originalLength : Word) (tree : List Byte) (paddingBitCount : Byte)
  /-- `LB`: the head of an LZ77 buffer; the token stream is what follows (R80, R200). -/
  | lb (originalLength : Word)
deriving DecidableEq, Repr

/-- The encoding an instruction belongs to. -/
def Instr.format : Instr → Format
  | .nop | .huffEnc | .huffDec | .lz77Enc | .lz77Dec | .illegal5 | .illegal6 | .illegal7 => .cmdw
  | .stLeaf _ | .stNode => .st
  | .matchRef _ _ _ _ | .esc _ | .lit _ => .token
  | .hb _ _ _ => .hb
  | .lb _ => .lb

end Sys2Proof
end

