-- ==== Sys2Proof/Machine/Dispatch.lean ====
section
/-! DEFINITION. exec: one arm per instruction. -/

namespace Sys2Proof.Machine

def exec (i : Instr) (s : State) : Host.Outcome State Fault Refusal :=
  match i with
  | .nop => Sys2Proof.Machine.execNop s
  | .huffEnc => Sys2Proof.Machine.execHuffEnc s
  | .huffDec => Sys2Proof.Machine.execHuffDec s
  | .lz77Enc => Sys2Proof.Machine.execLz77Enc s
  | .lz77Dec => Sys2Proof.Machine.execLz77Dec s
  | .illegal5 => Sys2Proof.Machine.execIllegal5 s
  | .illegal6 => Sys2Proof.Machine.execIllegal6 s
  | .illegal7 => Sys2Proof.Machine.execIllegal7 s
  | .stLeaf value => Sys2Proof.Machine.execStLeaf value s
  | .stNode => Sys2Proof.Machine.execStNode s
  | .matchRef distance hasNext length nextByte => Sys2Proof.Machine.execMatch distance hasNext length nextByte s
  | .esc value => Sys2Proof.Machine.execEsc value s
  | .lit value => Sys2Proof.Machine.execLit value s
  | .hb originalLength tree paddingBitCount => Sys2Proof.Machine.execHb originalLength tree paddingBitCount s
  | .lb originalLength => Sys2Proof.Machine.execLb originalLength s

end Sys2Proof.Machine
end

