-- ==== Sys2Proof/WellFormed.lean ====
section
/-! DEFINITION. Which instructions an encoding can spell (`wf`), and which of them the block's own encoders write
(`canonical`). -/

namespace Sys2Proof

/-- An instruction that some word spells: a `LIT` byte is at most 0xFD (spec/30_encoding.md R82), and the length of a
tree field fits the 4-byte `treeLength` (R73). Reserved field values (a `distance` of 0, a `paddingBitCount` of 8 and more)
are spelled, decoded and answered with an error by the meaning, so they are well-formed (R78, R85). -/
def Instr.wf : Instr → Bool
  | .lit v => v.toNat ≤ 0xFD
  | .hb _ tree _ => tree.length < 2 ^ 32
  | .nop | .huffEnc | .huffDec | .lz77Enc | .lz77Dec | .illegal5 | .illegal6 | .illegal7
  | .stLeaf _ | .stNode | .matchRef _ _ _ _ | .esc _ | .lb _ => true

/-- What the block's encoders write: a `MATCH` with `1 <= distance <= 4096`, `3 <= length <= 18` and `nextByte = 0x00`
when there is none (R85), an `ESC` only of 0xFE and 0xFF (R83), a `LIT` below them (R82), a padding count of 0 to 7 (R78),
lengths of at least 1 (R74). -/
def Instr.canonical : Instr → Bool
  | .matchRef d h l nx =>
      1 ≤ d.toNat && d.toNat ≤ 4096 && 3 ≤ l.toNat && l.toNat ≤ 18 && (h || nx == 0)
  | .esc v => v == 0xFE || v == 0xFF
  | .lit v => v.toNat ≤ 0xFD
  | .hb o tree p => 1 ≤ o.toNat && 2 ≤ tree.length && tree.length ≤ 320 && p.toNat ≤ 7
  | .lb o => 1 ≤ o.toNat
  | .nop | .huffEnc | .huffDec | .lz77Enc | .lz77Dec | .illegal5 | .illegal6 | .illegal7
  | .stLeaf _ | .stNode => true

end Sys2Proof
end

