-- ==== Sys2Proof/Decode.lean ====
section
/-! DEFINITION. The five decoders of spec/30_encoding.md (R70): total on any input, rejecting by name; then the encoder. -/

namespace Sys2Proof

/-- Why a decoder has no instruction to give. Each is an input that ends too early; no byte and no bit pattern is
otherwise undecodable (R71, R75, R81). -/
inductive Reject where
  /-- No byte and no marker bit is left (R153, R202). -/
  | endOfInput
  /-- An `ESC` without its second byte (R202). -/
  | truncatedEsc
  /-- A `MATCH` with fewer than five bytes (R202). -/
  | truncatedMatch
  /-- A leaf whose byte value is not wholly there (R153). -/
  | truncatedLeaf
  /-- A Huffman buffer of fewer than 9 bytes (R150). -/
  | shortHuffmanHeader
  /-- `9 + treeLength` exceeds the buffer (R150). -/
  | treeBeyondBuffer
  /-- An LZ77 buffer of fewer than 4 bytes (R200). -/
  | shortLz77Header
deriving DecidableEq, Repr

/-! ## The table's rows of the byte-selected formats (R89): a byte `x` selects a row when `x & mask == match`. -/

/-- One row of spec/opcode_table.json whose pattern is on a byte. -/
structure Row where
  pattern : Byte
  mask : Byte
deriving DecidableEq, Repr

/-- `x & mask == match` (R89). -/
def Row.selects (r : Row) (x : Byte) : Bool := x &&& r.mask == r.pattern

/-- The eight rows of format `CMDW`, by `OP` (R71). -/
def cmdwRows : List (Row × Instr) :=
  [(⟨0x00, 0x07⟩, .nop), (⟨0x01, 0x07⟩, .huffEnc), (⟨0x02, 0x07⟩, .huffDec), (⟨0x03, 0x07⟩, .lz77Enc),
   (⟨0x04, 0x07⟩, .lz77Dec), (⟨0x05, 0x07⟩, .illegal5), (⟨0x06, 0x07⟩, .illegal6), (⟨0x07, 0x07⟩, .illegal7)]

/-- The three token formats of R81. -/
inductive TokenKind where
  | lit | esc | matchRef
deriving DecidableEq, Repr

/-- The nine token rows: `MATCH`, `ESC` and the seven rows of `LIT` (R81, R89). -/
def tokenRows : List (Row × TokenKind) :=
  [(⟨0xFF, 0xFF⟩, .matchRef), (⟨0xFE, 0xFF⟩, .esc), (⟨0x00, 0x80⟩, .lit), (⟨0x80, 0xC0⟩, .lit), (⟨0xC0, 0xE0⟩, .lit),
   (⟨0xE0, 0xF0⟩, .lit), (⟨0xF0, 0xF8⟩, .lit), (⟨0xF8, 0xFC⟩, .lit), (⟨0xFC, 0xFE⟩, .lit)]

/-- The row of a list that a byte selects. -/
def selectRow {α : Type} (rows : List (Row × α)) (x : Byte) : Option α :=
  (rows.find? fun r => r.1.selects x).map (·.2)

/-! ## The decoders -/

/-- The command word: bits 2:0 only (R71). The rows cover every byte; the default is never taken. -/
def decodeCmdw (w : Word) : Instr := (selectRow cmdwRows (w.setWidth 8)).getD .nop

/-- A `MATCH` from its five bytes (R84, R86). -/
def matchOfBytes (dh dl lh nx : Byte) : Instr :=
  .matchRef (be16Dec dh dl) (lh.getLsbD 7) (lh.setWidth 7) nx

/-- One token from the front of a byte sequence, and the rest (R81 to R84, R202). -/
def decodeToken : List Byte → Except Reject (Instr × List Byte)
  | [] => .error .endOfInput
  | t :: rest =>
    match selectRow tokenRows t, rest with
    | some .matchRef, dh :: dl :: lh :: nx :: rest' => .ok (matchOfBytes dh dl lh nx, rest')
    | some .matchRef, _ => .error .truncatedMatch
    | some .esc, b :: rest' => .ok (.esc b, rest')
    | some .esc, [] => .error .truncatedEsc
    | some .lit, rest' => .ok (.lit t, rest')
    | none, _ => .error .endOfInput

/-- One record of the serialized tree from the front of a bit string, and the rest (R75, R153). -/
def decodeRecord : List Bool → Except Reject (Instr × List Bool)
  | [] => .error .endOfInput
  | false :: rest => .ok (.stNode, rest)
  | true :: rest =>
    if rest.length < 8 then .error .truncatedLeaf
    else .ok (.stLeaf (bitsByte (rest.take 8)), rest.drop 8)

/-- The head of a Huffman buffer and its payload (R73, R86, R150). -/
def decodeHb (buf : List Byte) : Except Reject (Instr × List Byte) :=
  if buf.length < 9 then .error .shortHuffmanHeader
  else
    match buf with
    | a :: b :: c :: d :: e :: f :: g :: h :: rest =>
      let t := (be32Dec e f g h).toNat
      match rest.drop t with
      | pad :: payload => .ok (.hb (be32Dec a b c d) (rest.take t) pad, payload)
      | [] => .error .treeBeyondBuffer
    | _ => .error .shortHuffmanHeader

/-- The head of an LZ77 buffer and its token stream (R80, R200). -/
def decodeLb : List Byte → Except Reject (Instr × List Byte)
  | a :: b :: c :: d :: rest => .ok (.lb (be32Dec a b c d), rest)
  | _ => .error .shortLz77Header

/-- What a decoder reads: a command word, a bit string or a byte sequence. -/
inductive Code where
  | word (w : Word)
  | bits (bs : List Bool)
  | bytes (bs : List Byte)
deriving DecidableEq, Repr

/-- The decoder of a format on what that format is written in; input of another kind is no input. -/
def decode : Format → Code → Except Reject (Instr × Code)
  | .cmdw, .word w => .ok (decodeCmdw w, .bytes [])
  | .st, .bits bs => (decodeRecord bs).map fun r => (r.1, .bits r.2)
  | .token, .bytes bs => (decodeToken bs).map fun r => (r.1, .bytes r.2)
  | .hb, .bytes bs => (decodeHb bs).map fun r => (r.1, .bytes r.2)
  | .lb, .bytes bs => (decodeLb bs).map fun r => (r.1, .bytes r.2)
  | .cmdw, .bits _ | .cmdw, .bytes _ | .st, .word _ | .st, .bytes _ | .token, .word _ | .token, .bits _
  | .hb, .word _ | .hb, .bits _ | .lb, .word _ | .lb, .bits _ => .error .endOfInput

/-! ## The encoder -/

/-- The bytes of a token or a header (R73, R80, R82 to R84); empty for the instructions that are not bytes. -/
def encodeBytes : Instr → List Byte
  | .lit v => [v]
  | .esc v => [Config.escMark, v]
  | .matchRef d h l nx =>
      [Config.matchMark, d.extractLsb' 8 8, d.extractLsb' 0 8, (BitVec.ofBool h ++ l : BitVec 8), nx]
  | .hb o tree pad => be32 o ++ be32 (BitVec.ofNat 32 tree.length) ++ tree ++ [pad]
  | .lb o => be32 o
  | .nop | .huffEnc | .huffDec | .lz77Enc | .lz77Dec | .illegal5 | .illegal6 | .illegal7 | .stLeaf _ | .stNode => []

/-- The command word of a command, bits 31:3 written as 0 (R22, R71). -/
def encodeCmdw : Instr → Word
  | .nop => 0 | .huffEnc => 1 | .huffDec => 2 | .lz77Enc => 3 | .lz77Dec => 4
  | .illegal5 => 5 | .illegal6 => 6 | .illegal7 => 7
  | .stLeaf _ | .stNode | .matchRef _ _ _ _ | .esc _ | .lit _ | .hb _ _ _ | .lb _ => 0

/-- The bits of a tree record (R75). -/
def encodeRecord : Instr → List Bool
  | .stLeaf v => true :: byteBits v
  | .stNode => [false]
  | .nop | .huffEnc | .huffDec | .lz77Enc | .lz77Dec | .illegal5 | .illegal6 | .illegal7
  | .matchRef _ _ _ _ | .esc _ | .lit _ | .hb _ _ _ | .lb _ => []

/-- The words of a well-formed instruction, in what its format is written in. -/
def encode (i : Instr) : Code :=
  match i.format with
  | .cmdw => .word (encodeCmdw i)
  | .st => .bits (encodeRecord i)
  | .token | .hb | .lb => .bytes (encodeBytes i)

/-! ## The table's numbers (for the host's questions) -/

/-- The format a number of the opcode table is read as. The block has no one instruction stream: the place a unit stands
in selects its decoder (R70), and a bare number does not say the place. 32 bits are a command word, 40 a `MATCH`, 16 with a
low byte 0xFE an `ESC`, 1, 9 or any other 16 a tree record, 72 and more a Huffman header; a number of 8 bits is a command
word (zero-extended) up to 7, the only unit a block fresh from reset takes, and a token otherwise (assumption log 6). -/
def tableFormat (nbits w : Nat) : Option Format :=
  if nbits = 32 then some .cmdw
  else if nbits = 8 then (if w % 256 < 8 then some .cmdw else some .token)
  else if nbits = 40 then some .token
  else if nbits = 16 then (if w % 256 = 0xFE then some .token else some .st)
  else if nbits = 1 ∨ nbits = 9 then some .st
  else if 72 ≤ nbits then some .hb
  else none

/-- The units of a table number: its first `n` bytes, lowest first, the bits above `nbits` being 0. -/
def tableBytes (nbits w n : Nat) : List Byte := (List.range n).map (byteOf (w % 2 ^ nbits))

/-- The bits of a table number in stream order: bit 0 is the marker bit (log 6). -/
def tableBits (nbits w : Nat) : List Bool := (List.range 9).map (w % 2 ^ nbits).testBit

/-- The instruction the decoder reads from a number of the opcode table. -/
def decodeTableWord (nbits w : Nat) : Option Instr :=
  match tableFormat nbits w with
  | some .cmdw => some (decodeCmdw (BitVec.ofNat 32 (w % 2 ^ nbits)))
  | some .token => (decodeToken (tableBytes nbits w 5)).toOption.map (·.1)
  | some .st => (decodeRecord (tableBits nbits w)).toOption.map (·.1)
  | some .hb => (decodeHb (tableBytes nbits w ((nbits + 7) / 8))).toOption.map (·.1)
  | some .lb | none => none

end Sys2Proof
end

