-- ==== Sys2Proof/Machine/HostPort.lean ====
section
/-! DEFINITION. The host's side: register and buffer accesses (spec/10_state.md R21 to R29, R41; spec/20_memory.md R54), the
hazards of touching what the engine owns (spec/70_reset_and_hazards.md R266 to R268), waiting and reset. -/

namespace Sys2Proof.Machine

/-- What a move of the machine is: an instruction to run in a state, or an outcome already known. -/
inductive Move where
  | run (i : Instr) (s : State)
  | done (r : Result)

/-- The registers (R21); every other offset, and every access that is not a whole word, is unmapped (R41, R54). -/
inductive Reg where
  | cmd | status | inLen | outLen | unmapped
deriving DecidableEq, Repr

/-- The register an access reaches. -/
def regAt : AccessSize → Nat → Reg
  | .word, 0x00 => .cmd
  | .word, 0x04 => .status
  | .word, 0x08 => .inLen
  | .word, 0x0C => .outLen
  | _, _ => .unmapped

/-- The host has read `v`. -/
def State.read (s : State) (v : Word) : State := { s with rdata := v }

/-- A register read: `CMD` and unmapped offsets read 0 (R22, R41); `OUT_LEN` while `BUSY = 1` is a free value (R27, U3). -/
def readReg (r : Reg) (s : State) : State :=
  match r with
  | .cmd | .unmapped => s.read 0
  | .status => s.read s.status.word
  | .inLen => s.read s.inLen
  | .outLen => if s.status.busy then { s with fresh := s.fresh + 1 }.read (Config.freeWord s.fresh) else s.read s.outLen

/-- The host touches the running operation's input (R267). -/
def State.markHazard (s : State) : State := { s with hazard := s.hazard || s.status.busy }

/-- A register write: `CMD` is a command (R215); `STATUS`, `OUT_LEN` and unmapped offsets ignore it (R21, R41); `IN_LEN`
takes the value, which while `BUSY = 1` is a hazard (R26, R267). -/
def writeReg (r : Reg) (value : Word) (s : State) : Move :=
  match r with
  | .cmd => .run (decodeCmdw value) s
  | .status | .outLen | .unmapped => .done (.next s)
  | .inLen => .done (.next { s with inLen := value }.markHazard)

/-- A write of one byte of `IBUF` (R29); inside `IBUF[0 .. IN_LEN)` while `BUSY = 1` it is a hazard (R267). -/
def writeIbuf (a : Nat) (b : Byte) (s : State) : Result :=
  if s.cfg.ibufCap ≤ a then .fault .bufferAddress
  else
    let s' := { s with ibuf := s.ibuf.write a b }
    .next (if a < s.n then s'.markHazard else s')

/-- A read of one byte of `IBUF` (R29). -/
def readIbuf (a : Nat) (s : State) : Result :=
  if s.cfg.ibufCap ≤ a then .fault .bufferAddress else .next (s.read ((s.ibufByte a).setWidth 32))

/-- A write of one byte of `OBUF`, which the spec gives no effect: the byte is unspecified (a free value), and while
`BUSY = 1` the byte of the coming result is (R268; assumption log 10). -/
def writeObuf (a : Nat) (s : State) : Result :=
  if s.cfg.obufCap ≤ a then .fault .bufferAddress
  else if s.status.busy then .next { s with obufDirty := a :: s.obufDirty }
  else .next { s with obuf := s.obuf.write a (Config.freeByte s.fresh a), fresh := s.fresh + 1 }

/-- A read of one byte of `OBUF` (R29); while `BUSY = 1` it is a free value (R268, U3). -/
def readObuf (a : Nat) (s : State) : Result :=
  if s.cfg.obufCap ≤ a then .fault .bufferAddress
  else if s.status.busy then
    .next ({ s with fresh := s.fresh + 1 }.read ((Config.freeByte s.fresh a).setWidth 32))
  else .next (s.read ((s.obufByte a).setWidth 32))

/-- What an action does, `s` being the state in which it is no longer pending. Waiting is not an effect and stands in
Machine/Fetch.lean. -/
def hostMove (action : HostAction) (s : State) : Move :=
  match action with
  | .writeReg size offset value => writeReg (regAt size offset) value s
  | .readReg size offset => .done (.next (readReg (regAt size offset) s))
  | .writeIbuf a b => .done (writeIbuf a b s)
  | .readIbuf a => .done (readIbuf a s)
  | .writeObuf a _ => .done (writeObuf a s)
  | .readObuf a => .done (readObuf a s)
  | .waitDone => .done (.next s)
  | .reset => .done (.next s.resetBlock)

end Sys2Proof.Machine
end

