-- ==== Sys2Proof/Machine/TreeBuilder.lean ====
section
/-! DEFINITION. Units U1 to U4 (spec/40_huffman_tree_builder.md): the frequency counter, the priority queue as a binary heap,
the tree builder and the code generator, and the phases `HE_FREQ`, `HE_BUILD`, `HE_CODES` that run them. -/

namespace Sys2Proof.Machine

/-! ## U1: frequency counter (R100) -/

/-- The body of R100's loop: one more occurrence of `b`. -/
def bump (freq : Vector Nat 256) (b : Byte) : Vector Nat 256 := freq.set b.toNat (freq[b.toNat] + 1)

/-- `CountFrequencies(in)` (R100). -/
def countFrequencies (input : List Byte) : Vector Nat 256 := input.foldl bump (Vector.replicate 256 0)

/-! ## U2: priority queue (R101, R102, R104) -/

/-- The order of the queue: by weight, and by index among equal weights (R104). -/
def before (x y : PQEntry) : Bool := x.weight < y.weight || (x.weight == y.weight && x.idx < y.idx)

/-- The two entries at places `j` and `k` change places. -/
def swapAt (h : List PQEntry) (j k : Nat) : List PQEntry :=
  match h[j]?, h[k]? with
  | some x, some y => (h.set j y).set k x
  | _, _ => h

/-- Sift up from place `k` (R102); the fuel is the number of levels at most climbed. -/
def siftUp : Nat → List PQEntry → Nat → List PQEntry
  | 0, h, _ => h
  | fuel + 1, h, k =>
    if k = 0 then h
    else
      match h[k]?, h[(k - 1) / 2]? with
      | some x, some y => if before x y then siftUp fuel (swapAt h k ((k - 1) / 2)) ((k - 1) / 2) else h
      | _, _ => h

/-- The child of place `k` to compare with: the left one, or the right one where there is one and it is before (R102). -/
def lesserChild (h : List PQEntry) (k : Nat) : Nat :=
  match h[2 * k + 1]?, h[2 * k + 2]? with
  | some x, some y => if before y x then 2 * k + 2 else 2 * k + 1
  | _, _ => 2 * k + 1

/-- Sift down from place `k` (R102). -/
def siftDown : Nat → List PQEntry → Nat → List PQEntry
  | 0, h, _ => h
  | fuel + 1, h, k =>
    match h[lesserChild h k]?, h[k]? with
    | some c, some x => if before c x then siftDown fuel (swapAt h (lesserChild h k) k) (lesserChild h k) else h
    | _, _ => h

/-- `PQ.insert` (R101, R102). -/
def pqInsert (h : List PQEntry) (e : PQEntry) : List PQEntry := siftUp (h.length + 1) (h ++ [e]) h.length

/-- `PQ.extractMin` (R101, R102): the entry at place 0, and the queue without it; none of an empty queue. -/
def pqExtractMin (h : List PQEntry) : Option (PQEntry × List PQEntry) :=
  match h with
  | [] => none
  | [r] => some (r, [])
  | r :: e :: rest =>
    let shorter := ((r :: e :: rest).dropLast).set 0 ((e :: rest).getLast (by simp))
    some (r, siftDown shorter.length shorter 0)

/-! ## U3: tree builder (R103, R105, R106) -/

/-- `NODE` and `PQ`, which U3 works on. -/
structure Forest where
  node : List Node
  pq : List PQEntry
deriving DecidableEq, Repr

/-- One leaf: the next entry of `NODE`, and its entry in the queue (R103). -/
def Forest.addLeaf (f : Forest) (b : Nat) (w : Nat) : Forest :=
  { node := f.node ++ [{ shape := .leaf (BitVec.ofNat 8 b), weight := w }]
    pq := pqInsert f.pq { weight := w, idx := f.node.length } }

/-- Leaf creation, in ascending order of byte value (R103). -/
def makeLeaves (freq : Vector Nat 256) : Forest :=
  (List.range 256).foldl (fun f b => if freq.toList.getD b 0 > 0 then f.addLeaf b (freq.toList.getD b 0) else f)
    { node := [], pq := [] }

/-- The loop body of R105: the two least entries become the left and the right child of a new node. -/
def Forest.merge (f : Forest) : Option Forest :=
  match pqExtractMin f.pq with
  | none => none
  | some (a, pq1) =>
    match pqExtractMin pq1 with
    | none => none
    | some (b, pq2) =>
      some
        { node := f.node ++ [{ shape := .internal a.idx b.idx, weight := a.weight + b.weight }]
          pq := pqInsert pq2 { weight := a.weight + b.weight, idx := f.node.length } }

/-- The end of R105 and R106: the last entry is the root; where it is the only leaf, a `WRAP` root is put over it. -/
def Forest.finish (f : Forest) : Option (List Node × Nat) :=
  match pqExtractMin f.pq with
  | none => none
  | some (a, _) =>
    if f.node.length = 1 then some (f.node ++ [{ shape := .wrap a.idx, weight := a.weight }], 1)
    else some (f.node, a.idx)

/-- The tree that `NODE` holds at an index; the fuel bounds its depth. -/
def readTree (node : List Node) : Nat → Nat → Option Tree
  | 0, _ => none
  | fuel + 1, i =>
    match node[i]? with
    | none => none
    | some nd =>
      match nd.shape with
      | .leaf b => some (.leaf b)
      | .internal l r =>
        match readTree node fuel l, readTree node fuel r with
        | some tl, some tr => some (.internal tl tr)
        | _, _ => none
      | .wrap l => (readTree node fuel l).map .wrap

/-! ## U4: code generator (R109) -/

/-- `Walk(i, p)` of R109, for a code table instead of a memory. -/
def Tree.assignCodes : Tree → List Bool → Vector (List Bool) 256 → Vector (List Bool) 256
  | .leaf b, path, code => code.set b.toNat path
  | .internal l r, path, code => r.assignCodes (path ++ [true]) (l.assignCodes (path ++ [false]) code)
  | .wrap l, path, code => l.assignCodes (path ++ [false]) code

/-- The code table of `DeriveCodes(ROOT)` (R109). -/
def deriveCodes (t : Tree) : Vector (List Bool) 256 := t.assignCodes [] (Vector.replicate 256 [])

/-- `CODE[b].bits` (R34). -/
def codeOf (code : Vector (List Bool) 256) (b : Byte) : List Bool := code[b.toNat]

/-- `TOTAL_BITS`: the sum over the byte values of `FREQ[b] * CODE[b].len` (R109). -/
def totalBitsOf (freq : Vector Nat 256) (code : Vector (List Bool) 256) : Nat :=
  ((List.range 256).map fun b => freq.toList.getD b 0 * (code.toList.getD b []).length).sum

/-! ## The phases -/

/-- `HE_FREQ`: one input byte is counted; after the last, `HE_BUILD` (R24, R100). -/
def stepFreq (s : State) : Result :=
  if s.eng.ipos < s.n then
    .next { s with eng := { s.eng with freq := bump s.eng.freq (s.ibufByte s.eng.ipos), ipos := s.eng.ipos + 1 } }
  else .next { s with phase := .heBuild }

/-- `HE_BUILD`: first the leaves (R103), then one merge a step (R105), then the root (R105, R106). It is never run without
a leaf (R107). -/
def stepBuild (s : State) : Result :=
  if s.eng.node = [] then
    if (makeLeaves s.eng.freq).node = [] then .fault .unitMemory
    else
      .next { s with eng := { s.eng with node := (makeLeaves s.eng.freq).node, pq := (makeLeaves s.eng.freq).pq } }
  else if s.eng.pq.length > 1 then
    match Forest.merge { node := s.eng.node, pq := s.eng.pq } with
    | none => .fault .unitMemory
    | some f => .next { s with eng := { s.eng with node := f.node, pq := f.pq } }
  else
    match Forest.finish { node := s.eng.node, pq := s.eng.pq } with
    | none => .fault .unitMemory
    | some (node, root) =>
      .next { s with eng := { s.eng with node := node, root := root, pq := [] }, phase := .heCodes }

/-- The tree at `ROOT` (R31). -/
def State.tree (s : State) : Option Tree := readTree s.eng.node s.eng.node.length s.eng.root

/-- `HE_CODES`: the code table and `TOTAL_BITS` (R109). -/
def stepCodes (s : State) : Result :=
  match s.tree with
  | none => .fault .unitMemory
  | some t =>
    .next
      { s with
        eng := { s.eng with code := deriveCodes t, totalBits := totalBitsOf s.eng.freq (deriveCodes t) }
        phase := .heHeader }

end Sys2Proof.Machine
end

