-- ==== Sys2Proof/Machine/HuffEncoder.lean ====
section
/-! DEFINITION. Unit U5 (spec/41_huffman_encoder.md): the tree serializer and the bit packer, and the phases `HE_HEADER` and
`HE_PACK`. -/

namespace Sys2Proof.Machine

/-- `ST(i)` (R130, spec/30_encoding.md R75). -/
def Tree.serialize : Tree → List Bool
  | .leaf b => true :: byteBits b
  | .internal l r => false :: (l.serialize ++ r.serialize)
  | .wrap l => false :: l.serialize

/-- The header of a Huffman buffer: `be32(n) ++ be32(T) ++ treeBytes ++ [pad]` (R136, R73). -/
def huffHeader (n : Word) (treeBytes : List Byte) (totalBits : Nat) : List Byte :=
  be32 n ++ be32 (BitVec.ofNat 32 treeBytes.length) ++ treeBytes ++ [BitVec.ofNat 8 (padCount totalBits)]

/-- `P = ceil(TOTAL_BITS / 8)` (R136). -/
def payloadBytes (totalBits : Nat) : Nat := (totalBits + 7) / 8

/-- `HE_HEADER`: the capacity check, "before anything is written", then the header (R136, R240). The cursor goes back to
the start for the second pass over the input (R132). That the tree field leaves `ACC` and `ACC_N` 0 is a DESIGN CHOICE
(assumption log 24). -/
def stepHeHeader (s : State) : Result :=
  match s.tree with
  | none => .fault .unitMemory
  | some t =>
    let treeBytes := (pack t.serialize).1
    if 9 + treeBytes.length + payloadBytes s.eng.totalBits > s.cfg.obufCap then .next (s.failOperation .capacity)
    else
      .next
        { s with
          eng := { s.eng with out := huffHeader s.inLen treeBytes s.eng.totalBits, ipos := 0, acc := 0, accN := 0 }
          phase := .hePack }

/-- The packer: `ACC`, `ACC_N` and the bytes emitted (R35, R131). -/
structure Packer where
  acc : Byte
  accN : Nat
  out : List Byte
deriving DecidableEq, Repr

/-- One bit: shifted into `ACC` from the right; at 8 bits the byte is emitted (R131). DESIGN CHOICE (assumption log 24): `ACC` is
then 0, and the bits of a byte not yet full stand as R131 shifts them, the first in bit `ACC_N - 1`, where R35 says the first
bit is in bit 7. -/
def Packer.push (p : Packer) (bit : Bool) : Packer :=
  if p.accN + 1 = 8 then { acc := 0, accN := 0, out := p.out ++ [shiftIn p.acc bit] }
  else { acc := shiftIn p.acc bit, accN := p.accN + 1, out := p.out }

/-- The end: where bits are left, `ACC` is shifted left by `8 - ACC_N` and emitted (R131). -/
def Packer.flush (p : Packer) : List Byte :=
  if p.accN > 0 then p.out ++ [p.acc <<< (8 - p.accN)] else p.out

/-- `HE_PACK`: the code bits of one input byte; after the last byte the result is delivered (R132, R136). The final flush leaves
`ACC`, `ACC_N` and the engine's output as before it, DESIGN CHOICE (assumption log 24). -/
def stepPack (s : State) : Result :=
  let p : Packer := { acc := s.eng.acc, accN := s.eng.accN, out := s.eng.out }
  if s.eng.ipos < s.n then
    let q := (codeOf s.eng.code (s.ibufByte s.eng.ipos)).foldl Packer.push p
    .next { s with eng := { s.eng with acc := q.acc, accN := q.accN, out := q.out, ipos := s.eng.ipos + 1 } }
  else .next (s.deliver p.flush false)

end Sys2Proof.Machine
end

