-- ==== Sys2Proof/Machine/MatchFinder.lean ====
section
/-! DEFINITION. Unit U7 (spec/43_lz77_match_finder.md). -/

namespace Sys2Proof.Machine

/-- The length of the common run at the front of two sequences: the comparator chain of one candidate (R172, R175). -/
def commonRun : List Byte → List Byte → Nat
  | a :: as, b :: bs => if a = b then commonRun as bs + 1 else 0
  | _, _ => 0

/-- `run(i)` (R172): how far `in` from `i` on agrees with the lookahead at `pos`. The source may reach and pass `pos`. -/
def runLength (input : List Byte) (pos i : Nat) : Nat := commonRun (input.drop i) (lookahead input pos)

/-- `BEST_DIST` and `BEST_LEN` (spec/10_state.md R37). -/
structure Best where
  dist : Nat
  len : Nat
deriving DecidableEq, Repr

/-- One candidate at distance `d` with run `l`: it replaces the best so far if it is a match and no shorter, since the
later candidate is the nearer one (R173, R174). -/
def Best.offer (best : Best) (d l : Nat) : Best :=
  if Config.minMatchLength ≤ l ∧ best.len ≤ l then { dist := d, len := l } else best

/-- The scan of R174, oldest candidate first: the candidates at distances `d` down to 1, `src` being the input from the
candidate at distance `d` on. -/
def scanCandidates (la : List Byte) : List Byte → Nat → Best → Best
  | _, 0, best => best
  | src, d + 1, best => scanCandidates la (src.drop 1) d (best.offer (d + 1) (commonRun src la))

/-- The farthest candidate: `min(pos, 4096)` (R171). -/
def farthest (pos : Nat) : Nat := min pos Config.windowSize

/-- `FindLongestMatch(in, pos)` (R174): the no-match value is `(0, 0)` (R170). -/
def findLongestMatch (input : List Byte) (pos : Nat) : Best :=
  scanCandidates (lookahead input pos) (input.drop (pos - farthest pos)) (farthest pos) { dist := 0, len := 0 }

end Sys2Proof.Machine
end

