-- ==== Sys2Proof/Machine/Lz77Encoder.lean ====
section
/-! DEFINITION. Unit U8 (spec/44_lz77_encoder.md): the token emitter and the phases `LE_HEADER` and `LE_SCAN`. -/

namespace Sys2Proof.Machine

/-- `EmitLiteral(b)` as a token: both marker values are escaped (R186). -/
def literalToken (b : Byte) : Instr := if b = Config.matchMark ∨ b = Config.escMark then .esc b else .lit b

/-- One encoder step: the token it writes, the position it goes on at, what the match finder leaves in `BEST_DIST` and
`BEST_LEN`, and the flag `has_next` of a match; a literal writes no flag (R186, R187, R188). -/
structure EncoderStep where
  token : Instr
  next : Nat
  best : Best
  hasNext : Option Bool
deriving DecidableEq, Repr

/-- `EmitMatch(d, l, has_next, nx)` as a token: `nx` is 0x00 where there is no next byte (R187). -/
def matchToken (best : Best) (next : Option Byte) : Instr :=
  .matchRef (BitVec.ofNat 16 best.dist) next.isSome (BitVec.ofNat 7 best.len) (next.getD 0)

/-- `Step(pos)` (R188), on the input from `pos` on. It is `none` where no byte is left. -/
def encoderStep (input : List Byte) (pos : Nat) : Option EncoderStep :=
  match input[pos]? with
  | none => none
  | some b =>
    let best := findLongestMatch input pos
    if Config.minMatchLength ≤ best.len then
      if hasNextFlag input.length pos best.len then
        some
          { token := matchToken best input[pos + best.len]?, next := pos + best.len + 1, best := best,
            hasNext := some true }
      else some { token := matchToken best none, next := pos + best.len, best := best, hasNext := some false }
    else some { token := literalToken b, next := pos + 1, best := best, hasNext := none }

/-- `LE_HEADER`: the 4-byte header, which counts for the capacity (R189, R240). Where it does not fit, none of its bytes joins the
engine's output (DESIGN CHOICE, assumption log 23). -/
def stepLeHeader (s : State) : Result :=
  if s.fits 4 then .next { s with eng := { s.eng with out := s.eng.out ++ be32 s.inLen, ipos := 0 }, phase := .leScan }
  else .next (s.failOperation .capacity)

/-- `LE_SCAN`: one encoder step, whose bytes must fit (R189, R240), or the end of the input. A step whose bytes do not fit
leaves `BEST_DIST`, `BEST_LEN` and `has_next` as the step before it left them, which the spec leaves open (DESIGN CHOICE,
assumption log 22), and none of its bytes joins the engine's output (log 23). -/
def stepLeScan (s : State) : Result :=
  match encoderStep s.input s.eng.ipos with
  | none => .next (s.deliver s.eng.out false)
  | some e =>
    if s.fits (encodeBytes e.token).length then
      .next
        { s with
          eng :=
            { s.eng with
              out := s.eng.out ++ encodeBytes e.token, ipos := e.next, bestDist := e.best.dist, bestLen := e.best.len,
              hasNext := e.hasNext.getD s.eng.hasNext } }
    else .next (s.failOperation .capacity)

end Sys2Proof.Machine
end

