-- ==== Sys2Proof/Machine/Fetch.lean ====
section
/-! DEFINITION. Which move comes next: the host's pending action, or the engine's one transition (spec/46_command_interface.md
R219). In the phases that decode (`HD_HEADER`, `HD_TREE`, `LD_HEADER`, `LD_TOKENS`) the engine fetches an instruction from
`IBUF`. The end of this file stores a number of the opcode table where the next fetch finds it. -/

namespace Sys2Proof.Machine

/-- What a fetched unit leads to: the instruction, or the error of a unit that is not wholly there, which leaves the cursors and
unit memories as they were (DESIGN CHOICE, assumption log 23). -/
def fetched {α : Type} (s : State) (kind : ErrorKind) : Except Reject (Instr × α) → Move
  | .ok (i, _) => .run i s
  | .error _ => .done (.next (s.failOperation kind))

/-- `HD_HEADER`: the head of the Huffman buffer (R150). -/
def fetchHb (s : State) : Move := fetched s .malformedHeader (decodeHb s.input)

/-- `HD_TREE`: the next record of the tree field, or the end of a complete tree (R153). -/
def fetchRecord (s : State) : Move :=
  if s.treeComplete then .done (finishTree s) else fetched s .corruptTree (decodeRecord (s.treeBits 9))

/-- `LD_HEADER`: the head of the LZ77 buffer (R200). -/
def fetchLb (s : State) : Move := fetched s .malformedHeader (decodeLb (s.inputAt 4))

/-- `LD_TOKENS`: the end by count, or the next token (R201, R202, R204). -/
def fetchToken (s : State) : Move :=
  if s.origN ≤ s.eng.out.length then .done (.next (s.deliver s.eng.out false))
  else fetched s .truncatedStream (decodeToken (s.inputAt 5))

/-- The engine's one transition (R24, R219). An operation whose input the host changed ends with an unspecified outcome
(R267). With no operation running there is none. -/
def engineMove (s : State) : Move :=
  if s.hazard then .done (.next s.endHazard)
  else
    match s.phase with
    | .idle => .done (.next s)
    | .heFreq => .done (stepFreq s)
    | .heBuild => .done (stepBuild s)
    | .heCodes => .done (stepCodes s)
    | .heHeader => .done (stepHeHeader s)
    | .hePack => .done (stepPack s)
    | .hdHeader => fetchHb s
    | .hdTree => fetchRecord s
    | .hdWalk => .done (stepWalk s)
    | .leHeader => .done (stepLeHeader s)
    | .leScan => .done (stepLeScan s)
    | .ldHeader => fetchLb s
    | .ldTokens => fetchToken s

/-- The next move. A running engine moves as long as the host lets it (by the delay of its next action, or while it waits
for `DONE`); an idle block with no action pending, or whose host waits, stays as it is (R260, R263). -/
def nextMove (s : State) : Move :=
  match s.hostq with
  | [] => if s.status.busy then engineMove s else .done (.next s)
  | e :: rest =>
    if s.status.busy && e.delay > 0 then engineMove { s with hostq := { e with delay := e.delay - 1 } :: rest }
    else
      match e.action with
      | .waitDone =>
        if s.status.done then .done (.next { s with hostq := rest })
        else if s.status.busy then engineMove s
        else .done (.next s)
      | action => hostMove action { s with hostq := rest }

/-! ## Placing a number of the opcode table -/

/-- Bytes written to `IBUF` from an address on. -/
def storeBytes : Memory → Nat → List Byte → Memory
  | m, _, [] => m
  | m, a, b :: rest => storeBytes (m.write a b) (a + 1) rest

/-- A running engine with nothing pending from the host, so that the engine makes the next move. -/
def State.running (s : State) (p : Phase) : State :=
  { s with status := { busy := true, done := false, empty := false, err := none }, phase := p, hostq := [], hazard := false }

/-- A command word is placed as the host's next write to `CMD`, with the block idle. -/
def placeCommand (w : Word) (s : State) : State :=
  { s with
    status := { s.status with busy := false }
    phase := .idle
    hostq := { delay := 0, action := .writeReg .word 0 w } :: s.hostq }

/-- A token is placed at the cursor of a running `LZ77_DEC` that still wants output. -/
def placeToken (bytes : List Byte) (s : State) : State :=
  { s with
    ibuf := storeBytes s.ibuf s.eng.ipos bytes
    inLen := BitVec.ofNat 32 (s.eng.ipos + bytes.length)
    eng := { s.eng with origLen := BitVec.ofNat 32 (s.eng.out.length + 1) } }.running .ldTokens

/-- A tree record is placed at the start of the tree field of a running `HUFF_DEC` that has parsed nothing yet. -/
def placeRecord (bits : List Bool) (s : State) : State :=
  { s with
    ibuf := storeBytes s.ibuf 8 (pack bits).1
    inLen := BitVec.ofNat 32 (9 + (pack bits).1.length)
    eng :=
      { s.eng with treeLen := BitVec.ofNat 32 (pack bits).1.length, tcur := 0, node := [], pstk := [] } }.running .hdTree

/-- A Huffman header is placed at the start of the input of a running `HUFF_DEC`. -/
def placeHb (bytes : List Byte) (s : State) : State :=
  { s with ibuf := storeBytes s.ibuf 0 bytes, inLen := BitVec.ofNat 32 bytes.length }.running .hdHeader

/-- A number of the opcode table, placed where the next step fetches it (assumption log 6). -/
def placeTableWord (s : State) (nbits w : Nat) : State :=
  match tableFormat nbits w with
  | some .cmdw => placeCommand (BitVec.ofNat 32 (w % 2 ^ nbits)) s
  | some .token => placeToken (tableBytes nbits w 5) s
  | some .st => placeRecord (tableBits nbits w) s
  | some .hb => placeHb (tableBytes nbits w ((nbits + 7) / 8)) s
  | some .lb | none => s

end Sys2Proof.Machine
end

