-- ==== Sys2Proof/Machine/Step.lean ====
section
/-! DEFINITION. One step of the machine: the next move, and exec where the move is an instruction. -/

namespace Sys2Proof.Machine

/-- What a move answers: an instruction is run by exec. -/
def Move.outcome : Move → Result
  | .run i s => exec i s
  | .done r => r

/-- One step: the host's action or the engine's transition (R8, R219). -/
def step (s : State) : Host.Outcome State Fault Refusal := (nextMove s).outcome

/-- `s` with a number of the opcode table where the next step fetches its instruction. -/
def State.withFetchWord (s : State) (nbits w : Nat) : State := placeTableWord s nbits w

end Sys2Proof.Machine
end

