-- ==== Sys2Proof/Laws/PerInstr.lean ====
section
/-! SUPPORT. Statements made once per instruction. -/

namespace Sys2Proof.Laws.EncodedSize

/-- The number of bits of an encoded unit. -/
def bitLength : Code → Nat
  | .word _ => 32
  | .bits bs => bs.length
  | .bytes bs => 8 * bs.length

/-- The number of bits spec/30_encoding.md gives a unit: R71, R73, R75, R80, R81. -/
def tableLength : Instr → Nat
  | .nop | .huffEnc | .huffDec | .lz77Enc | .lz77Dec | .illegal5 | .illegal6 | .illegal7 => 32
  | .stLeaf _ => 9
  | .stNode => 1
  | .matchRef _ _ _ _ => 40
  | .esc _ => 16
  | .lit _ => 8
  | .hb _ tree _ => 8 * (9 + tree.length)
  | .lb _ => 32

/-- An instruction is encoded in as many bits as its format has. -/
def Statement (i : Instr) : Prop := bitLength (encode i) = tableLength i

theorem nop : Statement .nop := rfl
theorem huffEnc : Statement .huffEnc := rfl
theorem huffDec : Statement .huffDec := rfl
theorem lz77Enc : Statement .lz77Enc := rfl
theorem lz77Dec : Statement .lz77Dec := rfl
theorem illegal5 : Statement .illegal5 := rfl
theorem illegal6 : Statement .illegal6 := rfl
theorem illegal7 : Statement .illegal7 := rfl
theorem stLeaf (value : Byte) : Statement (.stLeaf value) := rfl
theorem stNode : Statement .stNode := rfl
theorem matchRef (distance : BitVec 16) (hasNext : Bool) (length : BitVec 7) (nextByte : Byte) :
    Statement (.matchRef distance hasNext length nextByte) := rfl
theorem esc (value : Byte) : Statement (.esc value) := rfl
theorem lit (value : Byte) : Statement (.lit value) := rfl
theorem hb (originalLength : Word) (tree : List Byte) (paddingBitCount : Byte) :
    Statement (.hb originalLength tree paddingBitCount) := by
  simp only [Statement, encode, Instr.format, bitLength, encodeBytes, tableLength, List.length_append, be32,
    List.length_cons, List.length_nil]
  omega
theorem lb (originalLength : Word) : Statement (.lb originalLength) := rfl

end Sys2Proof.Laws.EncodedSize
end

