-- ==== Sys2Proof/Machine/Exec.lean ====
section
/-! DEFINITION. The four operations as functions from a byte sequence to a byte sequence or an error: `Exec` of
spec/46_command_interface.md R219 and R221, by the pseudocode of R136, R153, R158, R159, R189 and R204. The step function does
not use this file: it runs the same units phase by phase. Statements compare the two. -/

namespace Sys2Proof.Machine

/-- An operation: D00's `encode` and `decode` of the two codecs (spec/00_scope.md R2). -/
inductive Operation where
  | huffEnc | huffDec | lz77Enc | lz77Dec
deriving DecidableEq, Repr

/-- The command that starts an operation. -/
def Operation.command : Operation → Instr
  | .huffEnc => .huffEnc
  | .huffDec => .huffDec
  | .lz77Enc => .lz77Enc
  | .lz77Dec => .lz77Dec

/-! ## HUFF_ENC -/

/-- The loop of R105, with fuel for the merges. -/
def buildLoop : Nat → Forest → Option (List Node × Nat)
  | 0, _ => none
  | fuel + 1, f => if f.pq.length > 1 then f.merge.bind (buildLoop fuel) else f.finish

/-- `BuildTree(FREQ)` (R103, R105, R106): the tree at `ROOT`; `none` of a table without a present byte (R107). -/
def buildTree (freq : Vector Nat 256) : Option Tree :=
  (buildLoop 256 (makeLeaves freq)).bind fun r => readTree r.1 r.1.length r.2

/-- `B`, the code bits of the input (R132). -/
def codeBits (code : Vector (List Bool) 256) (input : List Byte) : List Bool := input.flatMap (codeOf code)

/-- The Huffman buffer of an input, without the capacity check (R136); `none` where there is no tree (R107). -/
def huffEncode (input : List Byte) : Option (List Byte) :=
  (buildTree (countFrequencies input)).map fun t =>
    huffHeader (BitVec.ofNat 32 input.length) (pack t.serialize).1 (codeBits (deriveCodes t) input).length
      ++ (pack (codeBits (deriveCodes t) input)).1

/-! ## HUFF_DEC -/

/-- What is left of a tree field, and the nodes allocated so far: the cursor threaded through the parse (R153). -/
structure Cursor where
  rest : List Bool
  nodes : Nat
deriving DecidableEq, Repr

/-- `ParseNode(depth)` (R153 to R155); `top` is `depth == 0`. The fuel is never used up: every level of nesting allocates a
node, and there are at most 511. -/
def parseNode : Nat → Bool → Cursor → Except ErrorKind (Tree × Cursor)
  | 0, _, _ => .error .corruptTree
  | fuel + 1, top, c =>
    match c.rest with
    | [] => .error .corruptTree
    | marker :: rest =>
      if c.nodes = Config.nodeCap then .error .corruptTree
      else if marker then
        if rest.length < 8 then .error .corruptTree
        else .ok (.leaf (bitsByte (rest.take 8)), { rest := rest.drop 8, nodes := c.nodes + 1 })
      else
        match parseNode fuel false { rest := rest, nodes := c.nodes + 1 } with
        | .error kind => .error kind
        | .ok (l, c1) =>
          if top && c1.rest.length < 9 then
            match l with
            | .leaf b => .ok (.wrap (.leaf b), c1)
            | .internal _ _ | .wrap _ => .error .corruptTree
          else
            match parseNode fuel false c1 with
            | .error kind => .error kind
            | .ok (r, c2) => .ok (.internal l r, c2)

/-- `ParseTree()` on the bits of a tree field (R153, R155). -/
def parseTree (bits : List Bool) : Except ErrorKind Tree :=
  match parseNode (Config.nodeCap + 1) true { rest := bits, nodes := 0 } with
  | .error kind => .error kind
  | .ok (.leaf _, _) => .error .corruptTree
  | .ok (t, _) => .ok t

/-- The loop of `Walk()` (R158) on the real payload bits: `here` is where the walk stands, `need` how many bytes are still
wanted. -/
def walkTree (root : Tree) : Tree → Nat → List Bool → Except ErrorKind (List Byte)
  | _, 0, _ => .ok []
  | _, _ + 1, [] => .error .truncatedStream
  | here, need + 1, bit :: bits =>
    let next : Except ErrorKind Tree :=
      match here, bit with
      | .internal l _, false => .ok l
      | .internal _ r, true => .ok r
      | .wrap l, false => .ok l
      | .wrap _, true => .error .corruptTree
      | .leaf _, _ => .error .corruptTree
    match next with
    | .error kind => .error kind
    | .ok (.leaf b) => (walkTree root root need bits).map (b :: ·)
    | .ok (.internal l r) => walkTree root (.internal l r) (need + 1) bits
    | .ok (.wrap l) => walkTree root (.wrap l) (need + 1) bits

/-- `HUFF_DEC` of a non-empty buffer, with `cap = OBUF_CAP` (R150 to R159). -/
def huffDecode (cap : Nat) (buf : List Byte) : Except ErrorKind (List Byte) :=
  match decodeHb buf with
  | .ok (.hb originalLength tree pad, payload) =>
    match huffHeaderError buf.length cap originalLength tree.length pad with
    | some kind => .error kind
    | none =>
      match parseTree (unpackBits tree) with
      | .error kind => .error kind
      | .ok t =>
        walkTree t t originalLength.toNat ((unpackBits payload).take (8 * payload.length - pad.toNat))
  | _ => .error .malformedHeader

/-! ## LZ77_ENC -/

/-- The tokens of an input from a position on (R188, R189); each step advances, so the input's length is fuel enough. -/
def lz77Tokens (input : List Byte) : Nat → Nat → List Instr
  | 0, _ => []
  | fuel + 1, pos =>
    match encoderStep input pos with
    | none => []
    | some e => e.token :: lz77Tokens input fuel e.next

/-- The LZ77 buffer of a non-empty input, without the capacity check (R189). -/
def lz77Encode (input : List Byte) : List Byte :=
  be32 (BitVec.ofNat 32 input.length) ++ (lz77Tokens input input.length 0).flatMap encodeBytes

/-! ## LZ77_DEC -/

/-- What a token does to the output (R203, R205, R206). -/
def tokenOutput (N : Nat) (out : List Byte) : Instr → Except ErrorKind (List Byte)
  | .lit v => .ok (out ++ [v])
  | .esc v => .ok (out ++ [v])
  | .matchRef d h l nx =>
    if badDistance d.toNat out.length then .error .malformedHeader
    else .ok (matchOutput N d.toNat l.toNat h nx out)
  | .nop | .huffEnc | .huffDec | .lz77Enc | .lz77Dec | .illegal5 | .illegal6 | .illegal7
  | .stLeaf _ | .stNode | .hb _ _ _ | .lb _ => .ok out

/-- The loop of R204; every token takes a byte, so the stream's length is fuel enough. -/
def lz77Loop (N : Nat) : Nat → List Byte → List Byte → Except ErrorKind (List Byte)
  | fuel, rest, out =>
    if N ≤ out.length then .ok out
    else
      match fuel with
      | 0 => .error .truncatedStream
      | fuel + 1 =>
        match decodeToken rest with
        | .error _ => .error .truncatedStream
        | .ok (i, rest') =>
          match tokenOutput N out i with
          | .error kind => .error kind
          | .ok out' => lz77Loop N fuel rest' out'

/-- `LZ77_DEC` of a non-empty buffer, with `cap = OBUF_CAP` (R200 to R204). -/
def lz77Decode (cap : Nat) (buf : List Byte) : Except ErrorKind (List Byte) :=
  match decodeLb buf with
  | .ok (.lb originalLength, rest) =>
    if originalLength.toNat > cap then .error .capacity else lz77Loop originalLength.toNat rest.length rest []
  | _ => .error .malformedHeader

/-! ## Exec -/

/-- A result that must fit `OBUF` (spec/60_exceptions.md R240). -/
def within (cap : Nat) (out : List Byte) : Except ErrorKind (List Byte) :=
  if out.length > cap then .error .capacity else .ok out

/-- `Exec(op, in)` (R221) with `cap = OBUF_CAP`: the bytes and the `EMPTY` flag, or the error kind. `none` only where
`BuildTree` has no tree, which an input with a byte never gives (R107). -/
def Exec (op : Operation) (cap : Nat) (input : List Byte) : Option (Except ErrorKind (List Byte × Bool)) :=
  if input = [] then some (.ok ([], true))
  else
    match op with
    | .huffEnc => (huffEncode input).map fun out => (within cap out).map (·, false)
    | .huffDec => some ((huffDecode cap input).map (·, false))
    | .lz77Enc => some ((within cap (lz77Encode input)).map (·, false))
    | .lz77Dec => some ((lz77Decode cap input).map (·, false))

end Sys2Proof.Machine
end

