-- ==== Sys2Proof/Safety.lean ====
section
/-! DEFINITION. What a sound state is, and what a finished operation has left behind, in the terms the statements use. -/

namespace Sys2Proof.Machine

/-- The legal combinations of the registers a host can read (spec/10_state.md R23, R24, R27): `BUSY` is `PHASE ≠ IDLE`; `BUSY`
and `DONE` are never both 1; a running operation shows no flag, no error and no length; an error implies `DONE`, no `EMPTY`
and `OUT_LEN = 0`; `EMPTY` implies `DONE`, no error and `OUT_LEN = 0`; the marks of broken ownership belong to a running
operation. -/
def State.statusLegal (s : State) : Prop :=
  (s.status.busy = true ↔ s.phase ≠ .idle) ∧
  (s.status.busy = true → s.status.done = false ∧ s.status.empty = false ∧ s.status.err = none ∧ s.outLen = 0) ∧
  (s.status.err ≠ none → s.status.done = true ∧ s.status.empty = false ∧ s.outLen = 0) ∧
  (s.status.empty = true → s.status.done = true ∧ s.status.err = none ∧ s.outLen = 0) ∧
  (s.status.done = false → s.outLen = 0) ∧
  (s.status.busy = false → s.hazard = false ∧ s.obufDirty = [])

/-- Both buffers are in canonical form. -/
def State.buffersCanonical (s : State) : Prop := s.ibuf.wf = true ∧ s.obuf.wf = true

/-- The invariant of every step. -/
def State.Inv (s : State) : Prop := s.statusLegal ∧ s.buffersCanonical

/-- Every known byte of a buffer lies below its capacity (R29). -/
def Memory.below (m : Memory) (cap : Nat) : Prop := ∀ c ∈ m, c.1 < cap

/-- Why the running operation's result will fit `OBUF`, phase by phase (R57, R240): the decoders never pass the count they
checked, `LZ77_ENC` checks every emit, and `HUFF_ENC` counts the bits it will write before it writes. -/
def State.outputBounded (s : State) : Prop :=
  match s.phase with
  | .idle | .hdHeader | .leHeader | .ldHeader => True
  | .heFreq => s.eng.ipos ≤ s.n ∧ s.eng.freq = countFrequencies (s.input.take s.eng.ipos)
  | .heBuild | .heCodes => s.eng.freq = countFrequencies s.input
  | .heHeader => s.eng.totalBits = (codeBits s.eng.code s.input).length
  | .hePack =>
      s.eng.ipos ≤ s.n ∧ s.eng.accN < 8 ∧
      8 * s.eng.out.length + s.eng.accN + (codeBits s.eng.code (s.input.drop s.eng.ipos)).length ≤ 8 * s.cfg.obufCap
  | .hdTree => s.origN ≤ s.cfg.obufCap
  | .hdWalk | .ldTokens => s.origN ≤ s.cfg.obufCap ∧ s.eng.out.length ≤ s.origN
  | .leScan => s.eng.out.length ≤ s.cfg.obufCap

/-- Nothing lies, and nothing will lie, at or beyond a buffer's capacity (R27, R57, R240). Of an operation whose input the
host changed nothing is claimed (R267). -/
def State.withinCapacity (s : State) : Prop :=
  s.cfg.wf = true ∧ s.ibuf.below s.cfg.ibufCap ∧ s.obuf.below s.cfg.obufCap ∧ s.outLen.toNat ≤ s.cfg.obufCap ∧
  (s.hazard = false → s.outputBounded)

/-- What the host finds when an operation with the result `r` of `Exec` has finished, `s` being the state before the command
and `t` the one after completion (R216, R219, R234): idle and done, input and parameters as before, and either the bytes, or
the code and no result. -/
def Finished (s t : State) (r : Except ErrorKind (List Byte × Bool)) : Prop :=
  t.phase = .idle ∧ t.cfg = s.cfg ∧ t.ibuf = s.ibuf ∧ t.inLen = s.inLen ∧
  match r with
  | .ok (out, empty) =>
      t.status = { busy := false, done := true, empty := empty, err := none } ∧
      t.outLen.toNat = out.length ∧ (List.range out.length).map t.obufByte = out
  | .error kind =>
      t.status = { busy := false, done := true, empty := false, err := some kind } ∧ t.outLen = 0

/-- A state in which a command starts an operation on a non-empty input that `IBUF` can hold, and in which the host then
does nothing but wait (R215, R220, R263). -/
def State.ready (s : State) : Prop :=
  s.status.busy = false ∧ s.hostq = [] ∧ s.cfg.wf = true ∧ 0 < s.n ∧ s.n ≤ s.cfg.ibufCap

/-- The command of an operation answers a next state, the engine runs from there with no fault, and after some number of
steps the block has finished with the result of `Exec` (R219, R221, R222). -/
def RunsToExec (op : Operation) (s : State) : Prop :=
  ∃ s1 k t r, exec op.command s = .next s1 ∧ s1.status.word = 1 ∧ Sys2Proof.core.run k s1 = .next t ∧
    Exec op s.cfg.obufCap s.input = some r ∧ Finished s t r

/-- The bytes of `IBUF` from address `a` on. -/
def State.holds (s : State) (a : Nat) (bytes : List Byte) : Prop :=
  ∀ k (h : k < bytes.length), s.ibufByte (a + k) = bytes[k]

/-- A running engine that makes the next move: nothing is pending from the host, and the host has not touched the input. -/
def State.engineRuns (s : State) (p : Phase) : Prop :=
  s.status.busy = true ∧ s.hazard = false ∧ s.hostq = [] ∧ s.phase = p

/-- `t` is `s` after `Fail(kind)` (R234): the code, no result, idle, and `IBUF`, `IN_LEN` and what is the host's as before. -/
def Failed (s t : State) (kind : ErrorKind) : Prop :=
  t.status = { busy := false, done := true, empty := false, err := some kind } ∧ t.outLen = 0 ∧ t.phase = .idle ∧
  t.inLen = s.inLen ∧ (∀ a, t.ibufByte a = s.ibufByte a) ∧ t.cfg = s.cfg ∧ t.hostq = s.hostq ∧ t.rdata = s.rdata

/-- The heap invariant: "for every `k >= 1`, `PQ[k]` is not before `PQ[(k-1) div 2]`" (R102). -/
def IsHeap (h : List PQEntry) : Prop :=
  ∀ k x y, 1 ≤ k → h[k]? = some x → h[(k - 1) / 2]? = some y → before x y = false

/-- The bytes at the leaves of a tree, left to right. -/
def Tree.leaves : Tree → List Byte
  | .leaf b => [b]
  | .internal l r => l.leaves ++ r.leaves
  | .wrap l => l.leaves

/-- A tree of `INTERNAL` and `LEAF` nodes only. -/
def Tree.plain : Tree → Bool
  | .leaf _ => true
  | .internal l r => l.plain && r.plain
  | .wrap _ => false

/-- The trees an encoder writes: a `WRAP` over one leaf, or an `INTERNAL` root over a plain tree (R32, R105, R106). -/
def Tree.encoderMade : Tree → Bool
  | .wrap (.leaf _) => true
  | .internal l r => l.plain && r.plain
  | .leaf _ | .wrap (.internal _ _) | .wrap (.wrap _) => false

end Sys2Proof.Machine
end

