-- ==== Sys2Proof/Certificates/Slice0/Obligations.lean ====
section
/-! DEFINITION. The statements for the provers. Each docstring names the rule it formalises; where a clause is the model's own
choice, the docstring says so and names the log entry. -/

open Sys2Proof Sys2Proof.Machine

/-! ## Encodings -/

/-- Words written out from spec/30_encoding.md (R71, R75, R80 to R84) and spec/95_test_vectors.md (V54, V58, V82, V1)
decode to the units they stand for. -/
def Obligations.WrittenWordsDecode : Prop :=
  decodeCmdw 0xFFFFFFF9 = .huffEnc ∧ decodeCmdw 0x00000008 = .nop ∧ decodeCmdw 0x00000007 = .illegal7 ∧
  decodeToken [0x41, 0x42] = .ok (.lit 0x41, [0x42]) ∧
  decodeToken [0xFE, 0xFF] = .ok (.esc 0xFF, []) ∧
  decodeToken [0xFF, 0x00, 0x03, 0x86, 0x44] = .ok (.matchRef 3 true 6 0x44, []) ∧
  decodeRecord [true, false, true, false, false, false, false, false, true, false] = .ok (.stLeaf 0x41, [false]) ∧
  decodeRecord [false, true] = .ok (.stNode, [true]) ∧
  decodeHb [0, 0, 0, 0x0A, 0, 0, 0, 2, 0x50, 0x40, 6, 0, 0] = .ok (.hb 10 [0x50, 0x40] 6, [0, 0]) ∧
  decodeLb [0, 0, 0, 3, 0xFE, 0xFF] = .ok (.lb 3, [0xFE, 0xFF])

/-- Every well-formed instruction, encoded and followed by anything, decodes to itself and leaves what followed: tokens and
headers from bytes, tree records from bits, commands from words whatever bits 31:3 hold. -/
def Obligations.DecodingInvertsEncoding : Prop :=
  ∀ i : Instr, i.wf = true →
    (i.format = .token ∨ i.format = .hb ∨ i.format = .lb →
      ∀ rest, decode i.format (.bytes (encodeBytes i ++ rest)) = .ok (i, .bytes rest)) ∧
    (i.format = .st → ∀ rest, decode .st (.bits (encodeRecord i ++ rest)) = .ok (i, .bits rest)) ∧
    (i.format = .cmdw → ∀ ignored : Word, decodeCmdw (encodeCmdw i ||| (ignored <<< 3)) = i)

/-- R81: the format and the length of a token are decided by its first byte alone. The operand fields are those of R82 to
R84. -/
def Obligations.TokenFormatFollowsFirstByte : Prop :=
  (∀ (t : Byte) rest, t.toNat ≤ 0xFD → decodeToken (t :: rest) = .ok (.lit t, rest)) ∧
  (∀ (b : Byte) rest, decodeToken (0xFE :: b :: rest) = .ok (.esc b, rest)) ∧
  (∀ (dh dl lh nx : Byte) rest, ∃ d h l,
    decodeToken (0xFF :: dh :: dl :: lh :: nx :: rest) = .ok (.matchRef d h l nx, rest) ∧
    d.toNat = dh.toNat * 256 + dl.toNat ∧ lh.toNat = (if h then 128 else 0) + l.toNat) ∧
  (∀ bytes, (decodeToken bytes).toOption = none ↔
    bytes = [] ∨ bytes = [0xFE] ∨ (bytes.head? = some 0xFF ∧ bytes.length < 5))

/-- R89: every byte selects exactly one token row, and every command word exactly one `CMDW` row; the seven `LIT` rows
cover 0x00 to 0xFD. -/
def Obligations.TableRowsDoNotOverlap : Prop :=
  ∀ x : Byte,
    (tokenRows.filter fun r => r.1.selects x).map (·.2) =
      [if x = 0xFF then .matchRef else if x = 0xFE then .esc else .lit] ∧
    (cmdwRows.filter fun r => r.1.selects x).length = 1

/-! ## Reset -/

/-- R40: the registers after reset, `CMD` among them, which reads 0. Nothing is known of the buffers, whose unlisted bytes are
free values; of the unit memories, which R40 leaves unspecified, nothing is said. -/
def Obligations.ResetRegisters : Prop :=
  State.reset.status.word = 0 ∧ State.reset.inLen = 0 ∧ State.reset.outLen = 0 ∧ State.reset.phase = .idle ∧
  State.reset.doneLine = false ∧ (readReg .cmd State.reset).rdata = 0 ∧ (∀ a, State.reset.ibuf.read? a = none) ∧ (∀ a, State.reset.obuf.read? a = none)

/-- R260 and R261: the reset input ends whatever runs, without completion, from every state. The parameters and what is the
host's stay (the model's choice, log 8). -/
def Obligations.ResetInputEndsAnyOperation : Prop :=
  ∀ (s : State) e rest, s.hostq = e :: rest → e.action = .reset → (s.status.busy = false ∨ e.delay = 0) →
    ∃ t, step s = .next t ∧ t.status.word = 0 ∧ t.inLen = 0 ∧ t.outLen = 0 ∧ t.phase = .idle ∧ t.doneLine = false ∧
      (∀ a, t.ibuf.read? a = none) ∧ (∀ a, t.obuf.read? a = none) ∧ t.cfg = s.cfg ∧ t.hostq = rest ∧ t.rdata = s.rdata

/-! ## Invariants -/

/-- Both invariants hold after reset. The capacities of the reset state are the model's choice (log 1). -/
def Obligations.ResetSatisfiesInvariants : Prop := State.reset.Inv ∧ State.reset.withinCapacity

/-- From every state that satisfies it, a step gives a state that satisfies it: the legal combinations of the status fields
(R23, R24) and the canonical form of both buffers. -/
def Obligations.StepKeepsInvariant : Prop := ∀ s t : State, s.Inv → step s = .next t → t.Inv

/-- R27, R57, R240: `OUT_LEN <= OBUF_CAP`, no byte stands at or beyond a capacity, and no operation under way will put one
there. -/
def Obligations.StepKeepsWithinCapacity : Prop :=
  ∀ s t : State, s.Inv → s.withinCapacity → step s = .next t → t.Inv ∧ t.withinCapacity

/-! ## Commands -/

/-- R217: what `NOP` leaves in an idle block, and that everything else is as before. -/
def Obligations.NopCompletesAtOnce : Prop :=
  ∀ s : State, s.status.busy = false →
    exec .nop s =
      .next
        { s with status := { busy := false, done := true, empty := false, err := none }, outLen := 0, phase := .idle }

/-- R218: `STATUS = 0x52`, `OUT_LEN = 0`, and nothing else is touched: no buffer is read or written. -/
def Obligations.IllegalCommandsFail : Prop :=
  ∀ (i : Instr) (s : State), i = .illegal5 ∨ i = .illegal6 ∨ i = .illegal7 → s.status.busy = false →
    ∃ t, exec i s = .next t ∧ t.status.word = 0x52 ∧
      t = { s with
            status := { busy := false, done := true, empty := false, err := some .illegalCommand }
            outLen := 0, phase := .idle }

/-- R266: a write to `CMD` while `STATUS.BUSY = 1` is ignored. -/
def Obligations.CommandsIgnoredWhileBusy : Prop :=
  ∀ (i : Instr) (s : State), i.format = .cmdw → s.status.busy = true → exec i s = .next s

/-- R215, R24, R39: in an idle block whose `IBUF` can hold the non-empty input, each of the four commands starts its
operation: `STATUS` shows `BUSY` alone, `OUT_LEN = 0`, the first phase, and the unit memories and cursors at their start
values, whatever they held before; nothing else changes. -/
def Obligations.OperationsStart : Prop :=
  ∀ (op : Operation) (s : State), s.status.busy = false → 0 < s.n → s.n ≤ s.cfg.ibufCap →
    ∃ t, exec op.command s = .next t ∧
      t = { s with
            status := { busy := true, done := false, empty := false, err := none }
            outLen := 0, phase := t.phase, eng := t.eng, hazard := false, obufDirty := [] } ∧
      t.phase = (match op with
        | .huffEnc => Phase.heFreq | .huffDec => .hdHeader | .lz77Enc => .leHeader | .lz77Dec => .ldHeader) ∧
      (∀ b : Fin 256, t.eng.freq[b] = 0 ∧ t.eng.code[b] = []) ∧ t.eng.node = [] ∧ t.eng.pq = [] ∧ t.eng.pstk = [] ∧
      t.eng.accN = 0 ∧ t.eng.ipos = 0 ∧ t.eng.out = [] ∧ t.eng.tcur = 0 ∧ t.eng.bcur = 0 ∧
      t.eng.bestLen = 0 ∧ t.eng.bestDist = 0

/-- R185, and for the other operations R231: with `IN_LEN = 0` each of the four completes with `OUT_LEN = 0`, `ERR = 0`,
`EMPTY = 1`, and `IBUF` and `IN_LEN` are untouched. The model's choices: that it completes in the very step of the command
(log 18, DESIGN CHOICE), and that the cursors and unit memories keep what they hold (log 23, DESIGN CHOICE). -/
def Obligations.EmptyInputIsIdentity : Prop :=
  ∀ (op : Operation) (s : State), s.status.busy = false → s.inLen = 0 →
    ∃ t, exec op.command s = .next t ∧ t.status.word = 0x06 ∧ t.outLen = 0 ∧ t.status.err = none ∧
      t.status.empty = true ∧ t.phase = .idle ∧ t.inLen = s.inLen ∧ t.eng = s.eng ∧ t.cfg = s.cfg ∧
      t.hostq = s.hostq ∧ ∀ a, t.ibufByte a = s.ibufByte a

/-- R220: an operation whose `IN_LEN` exceeds `IBUF_CAP` fails with `Capacity` (`STATUS = 0x42`). The model's
choices: that it fails in the very step of the command (log 18, DESIGN CHOICE), and that the cursors and unit memories keep what
they hold (log 23, DESIGN CHOICE). -/
def Obligations.InputBeyondCapacityFails : Prop :=
  ∀ (op : Operation) (s : State), s.status.busy = false → s.cfg.ibufCap < s.n →
    ∃ t, exec op.command s = .next t ∧ Failed s t .capacity ∧ t.status.word = 0x42 ∧ t.eng = s.eng

/-- Frame of the commands: no command changes the input, its length, the parameters, what is pending or what the host last
read; `NOP` and the illegal commands leave every byte of `OBUF` and the engine's memories alone. The start values that
`Engine.start` gives beyond those R39 names are the model's choice (log 8, DESIGN CHOICE), and so is that an operation which ends
in its command's step keeps the engine's memories (log 18, log 23, DESIGN CHOICE). -/
def Obligations.CommandFrame : Prop :=
  ∀ (i : Instr) (s t : State), i.format = .cmdw → exec i s = .next t →
    t.cfg = s.cfg ∧ t.inLen = s.inLen ∧ (∀ a, t.ibufByte a = s.ibufByte a) ∧ t.hostq = s.hostq ∧ t.rdata = s.rdata ∧
    (t.eng = s.eng ∨ t.eng = Engine.start) ∧
    (i = .nop ∨ i = .illegal5 ∨ i = .illegal6 ∨ i = .illegal7 →
      t.eng = s.eng ∧ t.fresh = s.fresh ∧ ∀ a, t.obufByte a = s.obufByte a)

/-- R39: an operation's start does not depend on what an earlier operation left in the unit memories, in the status fields
or in `OUT_LEN`. -/
def Obligations.OperationsForgetTheLast : Prop :=
  ∀ (op : Operation) (s : State) (eng : Engine) (done empty : Bool) (err : Option ErrorKind) (len : Word),
    s.status.busy = false → 0 < s.n →
    ∃ t t', exec op.command s = .next t ∧
      exec op.command { s with eng := eng, status := { busy := false, done := done, empty := empty, err := err },
                               outLen := len } = .next t' ∧
      t'.status = t.status ∧ t'.outLen = t.outLen ∧ t'.phase = t.phase ∧ (s.n ≤ s.cfg.ibufCap → t'.eng = t.eng) ∧
      t'.ibuf = t.ibuf ∧ t'.obuf = t.obuf ∧ t'.inLen = t.inLen

/-! ## A step runs the decoded instruction -/

/-- The host's word write to `CMD` runs the instruction the word decodes to, in the state in which that write is no longer
pending (R71, R215). -/
def Obligations.StepRunsTheCommandWord : Prop :=
  ∀ (s : State) (e : HostEvent) rest (w : Word), s.hostq = e :: rest → e.action = .writeReg .word 0 w →
    (s.status.busy = false ∨ e.delay = 0) → step s = exec (decodeCmdw w) { s with hostq := rest }

/-- A running `LZ77_DEC` that still wants output runs the token whose bytes stand at the cursor (R201, R202, R204). -/
def Obligations.StepRunsTheToken : Prop :=
  ∀ (i : Instr) (s : State), i.format = .token → i.wf = true → s.engineRuns .ldTokens → s.eng.out.length < s.origN →
    s.eng.ipos + (encodeBytes i).length ≤ s.n → s.holds s.eng.ipos (encodeBytes i) → step s = exec i s

/-- A running `HUFF_DEC` whose tree is not complete runs the record whose bits stand at `tcur` (R153). -/
def Obligations.StepRunsTheRecord : Prop :=
  ∀ (i : Instr) (s : State), i.format = .st → s.engineRuns .hdTree → s.treeComplete = false →
    s.eng.tcur + (encodeRecord i).length ≤ s.tb →
    ((List.range (encodeRecord i).length).map fun j => s.tbit (s.eng.tcur + j)) = encodeRecord i → step s = exec i s

/-- The header phases run the header at the front of the input (R150, R200). -/
def Obligations.StepRunsTheHeader : Prop :=
  (∀ (o : Word) (tree : List Byte) (pad : Byte) payload (s : State), tree.length < 2 ^ 32 → s.engineRuns .hdHeader →
    s.input = encodeBytes (.hb o tree pad) ++ payload → step s = exec (.hb o tree pad) s) ∧
  (∀ (o : Word) rest (s : State), s.engineRuns .ldHeader → s.eng.ipos = 0 →
    s.input = encodeBytes (.lb o) ++ rest → step s = exec (.lb o) s)

/-- R150, R153, R200, R202: a unit that is not wholly there fails by its format's error: a Huffman buffer shorter than 9 bytes,
or than its tree field and `paddingBitCount` need; a tree record without its marker bit or its 8 value bits; an LZ77 header of
fewer than 4 bytes; no token, an `ESC` without its byte, a `MATCH` of fewer than 5 bytes. Nothing is run: the engine's
memories are as before. That those the pseudocode of R150 and R153 writes before the check keep their values is the model's
choice (log 23, DESIGN CHOICE). -/
def Obligations.MissingUnitsFail : Prop :=
  ∀ s : State,
    let fails := fun kind => ∃ t, step s = .next t ∧ Failed s t kind ∧ t.eng = s.eng
    (s.engineRuns .hdHeader → s.n < 9 → fails .malformedHeader) ∧
    (s.engineRuns .hdHeader → 9 ≤ s.n →
      s.n < 9 + (be32Dec (s.ibufByte 4) (s.ibufByte 5) (s.ibufByte 6) (s.ibufByte 7)).toNat → fails .malformedHeader) ∧
    (s.engineRuns .hdTree → s.treeComplete = false → s.tb ≤ s.eng.tcur → fails .corruptTree) ∧
    (s.engineRuns .hdTree → s.treeComplete = false → s.eng.tcur < s.tb → s.tbit s.eng.tcur = true →
      s.tb < s.eng.tcur + 9 → fails .corruptTree) ∧
    (s.engineRuns .ldHeader → s.eng.ipos = 0 → s.n < 4 → fails .malformedHeader) ∧
    (s.engineRuns .ldTokens → s.eng.out.length < s.origN → s.n ≤ s.eng.ipos → fails .truncatedStream) ∧
    (s.engineRuns .ldTokens → s.eng.out.length < s.origN → s.eng.ipos + 1 = s.n →
      s.ibufByte s.eng.ipos = 0xFE → fails .truncatedStream) ∧
    (s.engineRuns .ldTokens → s.eng.out.length < s.origN → s.eng.ipos < s.n → s.n < s.eng.ipos + 5 →
      s.ibufByte s.eng.ipos = 0xFF → fails .truncatedStream)

/-! ## The LZ77 decoder -/

/-- R205: `LIT` appends its byte and moves on by 1, in every state; nothing else changes. -/
def Obligations.LiteralAppendsItsByte : Prop :=
  ∀ (v : Byte) (s : State),
    exec (.lit v) s = .next { s with eng := { s.eng with out := s.eng.out ++ [v], ipos := s.eng.ipos + 1 } }

/-- R206: `ESC` appends its byte, any byte, and moves on by 2, where the token lies in the buffer, and is
`TruncatedStream` where it does not. -/
def Obligations.EscapeAppendsItsByte : Prop :=
  ∀ (v : Byte) (s : State),
    (s.eng.ipos + 2 ≤ s.n →
      exec (.esc v) s = .next { s with eng := { s.eng with out := s.eng.out ++ [v], ipos := s.eng.ipos + 2 } }) ∧
    (s.n < s.eng.ipos + 2 → ∃ t, exec (.esc v) s = .next t ∧ Failed s t .truncatedStream)

/-- R203: `MATCH`. A token not wholly there is `TruncatedStream`; otherwise a distance of 0, above 4096 or above the bytes
produced is `MalformedHeader`; otherwise the copy is appended byte by byte, each byte being the one `d` places back, cut at
`N`, and then `nextByte` if the flag says so and the count is not reached. Only the cursor and the output change. -/
def Obligations.MatchCopiesFromTheOutput : Prop :=
  ∀ (d : BitVec 16) (hasNext : Bool) (l : BitVec 7) (nx : Byte) (s : State),
    (s.n < s.eng.ipos + 5 → ∃ t, exec (.matchRef d hasNext l nx) s = .next t ∧ Failed s t .truncatedStream) ∧
    (s.eng.ipos + 5 ≤ s.n → d.toNat = 0 ∨ 4096 < d.toNat ∨ s.eng.out.length < d.toNat →
      ∃ t, exec (.matchRef d hasNext l nx) s = .next t ∧ Failed s t .malformedHeader) ∧
    (s.eng.ipos + 5 ≤ s.n → 1 ≤ d.toNat → d.toNat ≤ 4096 → d.toNat ≤ s.eng.out.length →
      s.eng.out.length ≤ s.origN →
      ∃ out copied : List Byte,
        exec (.matchRef d hasNext l nx) s = .next { s with eng := { s.eng with ipos := s.eng.ipos + 5, out := out } } ∧
        copied.length = min (s.eng.out.length + l.toNat) s.origN ∧
        copied.take s.eng.out.length = s.eng.out ∧
        (∀ k, s.eng.out.length ≤ k → k < copied.length → copied[k]? = copied[k - d.toNat]?) ∧
        out = (if hasNext = true ∧ copied.length < s.origN then copied ++ [nx] else copied))

/-- R63: `CopyBack(d, l, N)` where it may be called: the output grows by `l` bytes or to `N`, keeps what it had, and byte
`len0 + k` is byte `len0 - d + k`, bytes of this copy included. -/
def Obligations.CopyBackRepeatsWithPeriod : Prop :=
  ∀ (d l N : Nat) (out : List Byte), 1 ≤ d → d ≤ out.length → out.length ≤ N →
    (copyBack d N l out).length = min (out.length + l) N ∧ (copyBack d N l out).take out.length = out ∧
    ∀ k, out.length + k < (copyBack d N l out).length →
      (copyBack d N l out)[out.length + k]? = (copyBack d N l out)[out.length - d + k]?

/-- R200: `LB`. The checks in their order, and otherwise the header value, the cursor at byte 4 and the token phase. -/
def Obligations.Lz77HeaderIsChecked : Prop :=
  ∀ (o : Word) (s : State),
    (s.n < 4 → ∃ t, exec (.lb o) s = .next t ∧ Failed s t .malformedHeader) ∧
    (4 ≤ s.n → s.cfg.obufCap < o.toNat → ∃ t, exec (.lb o) s = .next t ∧ Failed s t .capacity) ∧
    (4 ≤ s.n → o.toNat ≤ s.cfg.obufCap →
      exec (.lb o) s =
        .next { s with eng := { s.eng with origLen := o, ipos := 4, out := [] }, phase := .ldTokens })

/-- R204, R207: `LZ77_DEC` gives exactly as many bytes as the header says. -/
def Obligations.Lz77DecoderCountsExactly : Prop :=
  ∀ (cap : Nat) (a b c d : Byte) (rest out : List Byte), lz77Decode cap (a :: b :: c :: d :: rest) = .ok out →
    out.length = a.toNat * 2 ^ 24 + b.toNat * 2 ^ 16 + c.toNat * 2 ^ 8 + d.toNat ∧ out.length ≤ cap

/-! ## The Huffman decoder -/

/-- R150, R151, R152: `HB`. The checks in their order, and otherwise the header values, an empty tree memory and the tree
phase. -/
def Obligations.HuffmanHeaderIsChecked : Prop :=
  ∀ (o : Word) (tree : List Byte) (pad : Byte) (s : State),
    (s.n < 9 → ∃ t, exec (.hb o tree pad) s = .next t ∧ Failed s t .malformedHeader) ∧
    (s.n < 9 + tree.length → ∃ t, exec (.hb o tree pad) s = .next t ∧ Failed s t .malformedHeader) ∧
    (9 + tree.length ≤ s.n → 7 < pad.toNat ∨ 8 * (s.n - 9 - tree.length) < pad.toNat →
      ∃ t, exec (.hb o tree pad) s = .next t ∧ Failed s t .malformedHeader) ∧
    (9 + tree.length ≤ s.n → pad.toNat ≤ 7 → pad.toNat ≤ 8 * (s.n - 9 - tree.length) → s.cfg.obufCap < o.toNat →
      ∃ t, exec (.hb o tree pad) s = .next t ∧ Failed s t .capacity) ∧
    (9 + tree.length ≤ s.n → pad.toNat ≤ 7 → pad.toNat ≤ 8 * (s.n - 9 - tree.length) → o.toNat ≤ s.cfg.obufCap →
      ∃ t, exec (.hb o tree pad) s = .next t ∧
        t = { s with
              eng :=
                { s.eng with
                  origLen := o, treeLen := t.eng.treeLen, pad := pad, tcur := 0, node := [], pstk := [], out := [] }
              phase := .hdTree } ∧
        t.eng.treeLen.toNat = tree.length)

/-- R153: `ST.NODE` takes one bit, allocates the next node in preorder and waits for its left subtree; without a marker bit
or with 511 nodes in use it is `CorruptTree`. That the pending node is held as an inner node with children 0 and weight 0 is
the model's choice (log 14, DESIGN CHOICE): R153 writes its entry when both subtrees are parsed, and gives it no weight. -/
def Obligations.NodeRecordAllocates : Prop :=
  ∀ s : State,
    (s.eng.tcur < s.tb → s.eng.node.length ≠ 511 →
      exec .stNode s =
        .next
          { s with
            eng :=
              { s.eng with
                tcur := s.eng.tcur + 1
                node := s.eng.node ++ [decoderNode (.internal 0 0)]
                pstk := { idx := s.eng.node.length, stage := .left } :: s.eng.pstk } }) ∧
    (s.tb ≤ s.eng.tcur ∨ s.eng.node.length = 511 → ∃ t, exec .stNode s = .next t ∧ Failed s t .corruptTree)

/-- R153 to R155: `ST.LEAF` takes nine bits and allocates the next node in preorder. A leaf with nothing waiting is the
root; a leaf that is a left child leaves its parent waiting for the right one, unless the parent is the root and fewer than
9 bits remain: then the root is a `WRAP` node and the tree is complete; a leaf that completes the root completes the tree;
and a completed right child may be the left child of the node above, which at the root with fewer than 9 bits left is
`CorruptTree`. Whatever waits on the stack, the answer is that of `attach`. Without nine bits or with 511 nodes in use it is
`CorruptTree`. That a node whose right subtree is not parsed yet has right child 0, and that the decoder's nodes have weight 0,
is the model's choice (log 14, DESIGN CHOICE), not R153's. -/
def Obligations.LeafRecordAttaches : Prop :=
  ∀ (v : Byte) (s : State),
    let i := s.eng.node.length
    let node := s.eng.node ++ [decoderNode (.leaf v)]
    let answers := fun (node : List Node) (pstk : List ParseFrame) (root : Nat) =>
      exec (.stLeaf v) s =
        .next { s with eng := { s.eng with tcur := s.eng.tcur + 9, node := node, pstk := pstk, root := root } }
    (s.tb < s.eng.tcur + 9 ∨ i = 511 → ∃ t, exec (.stLeaf v) s = .next t ∧ Failed s t .corruptTree) ∧
    (s.eng.tcur + 9 ≤ s.tb → i ≠ 511 →
      (s.eng.pstk = [] → answers node [] i) ∧
      (∀ p rest, s.eng.pstk = { idx := p, stage := .left } :: rest → rest ≠ [] ∨ s.eng.tcur + 18 ≤ s.tb →
        answers (node.set p (decoderNode (.internal i 0))) ({ idx := p, stage := .right } :: rest) s.eng.root) ∧
      (∀ p, s.eng.pstk = [{ idx := p, stage := .left }] → s.tb < s.eng.tcur + 18 →
        answers (node.set p (decoderNode (.wrap i))) [] p) ∧
      (∀ p l r, s.eng.pstk = [{ idx := p, stage := .right }] → shapeAt s.eng.node p = some (.internal l r) →
        answers (node.set p (decoderNode (.internal l i))) [] p) ∧
      (∀ p q l r rest, s.eng.pstk = { idx := p, stage := .right } :: { idx := q, stage := .left } :: rest →
        shapeAt s.eng.node p = some (.internal l r) → rest ≠ [] ∨ s.eng.tcur + 18 ≤ s.tb →
        answers ((node.set p (decoderNode (.internal l i))).set q (decoderNode (.internal p 0)))
          ({ idx := q, stage := .right } :: rest) s.eng.root) ∧
      (∀ p q l r, s.eng.pstk = [{ idx := p, stage := .right }, { idx := q, stage := .left }] →
        shapeAt s.eng.node p = some (.internal l r) → s.tb < s.eng.tcur + 18 →
        ∃ t, exec (.stLeaf v) s = .next t ∧ Failed s t .corruptTree) ∧
      (∀ done, attach (s.tb - (s.eng.tcur + 9)) node s.eng.pstk i = .ok done →
        answers done.node done.pstk (done.root.getD s.eng.root)) ∧
      (∀ kind, attach (s.tb - (s.eng.tcur + 9)) node s.eng.pstk i = .error kind →
        ∃ t, exec (.stLeaf v) s = .next t ∧ Failed s t kind))

/-- R155: a complete tree whose root is a leaf is `CorruptTree`; any other root starts the walk at it. -/
def Obligations.RootMustNotBeALeaf : Prop :=
  ∀ s : State, s.engineRuns .hdTree → s.treeComplete = true →
    (∀ b, shapeAt s.eng.node s.eng.root = some (.leaf b) → ∃ t, step s = .next t ∧ Failed s t .corruptTree) ∧
    (∀ l r, shapeAt s.eng.node s.eng.root = some (.internal l r) ∨ shapeAt s.eng.node s.eng.root = some (.wrap l) →
      step s =
        .next { s with eng := { s.eng with walk := s.eng.root, bcur := 0, out := [] }, phase := .hdWalk })

/-- R158: one bit of the walk. With enough bytes the operation delivers them; with no real bit left it is
`TruncatedStream`; a `1` at a `WRAP` root is `CorruptTree`; otherwise the bit leads to a child, and at a leaf its byte is
emitted and the walk is back at the root. -/
def Obligations.WalkFollowsOneBit : Prop :=
  ∀ s : State, s.engineRuns .hdWalk →
    (s.origN ≤ s.eng.out.length → step s = .next (s.deliver s.eng.out false)) ∧
    (s.eng.out.length < s.origN → s.nb ≤ s.eng.bcur → ∃ t, step s = .next t ∧ Failed s t .truncatedStream) ∧
    (s.eng.out.length < s.origN → s.eng.bcur < s.nb →
      (∀ l, shapeAt s.eng.node s.eng.walk = some (.wrap l) → s.pbit s.eng.bcur = true →
        ∃ t, step s = .next t ∧ Failed s t .corruptTree) ∧
      (∀ c, (∃ l r, shapeAt s.eng.node s.eng.walk = some (.internal l r) ∧ c = (if s.pbit s.eng.bcur then r else l)) ∨
          (shapeAt s.eng.node s.eng.walk = some (.wrap c) ∧ s.pbit s.eng.bcur = false) →
        (∀ b, shapeAt s.eng.node c = some (.leaf b) →
          step s =
            .next
              { s with
                eng :=
                  { s.eng with bcur := s.eng.bcur + 1, out := s.eng.out ++ [b], walk := s.eng.root } }) ∧
        (∀ l r, shapeAt s.eng.node c = some (.internal l r) →
          step s = .next { s with eng := { s.eng with bcur := s.eng.bcur + 1, walk := c } })))

/-- Frame of the decoded units: while the operation goes on, only the engine's memories and the phase change; tokens change
the cursor and the output only, records the parse only; and every byte of both buffers reads as before. -/
def Obligations.DecodedUnitFrame : Prop :=
  ∀ (i : Instr) (s t : State), i.format ≠ .cmdw → s.status.busy = true → exec i s = .next t → t.status.busy = true →
    t = { s with eng := t.eng, phase := t.phase } ∧
    (∀ a, t.ibufByte a = s.ibufByte a) ∧ (∀ a, t.obufByte a = s.obufByte a) ∧
    (i.format = .token → t.phase = s.phase ∧ t.eng = { s.eng with ipos := t.eng.ipos, out := t.eng.out }) ∧
    (i.format = .st → t.phase = s.phase ∧
      t.eng = { s.eng with tcur := t.eng.tcur, node := t.eng.node, pstk := t.eng.pstk, root := t.eng.root }) ∧
    (i.format = .hb → t.eng =
      { s.eng with origLen := t.eng.origLen, treeLen := t.eng.treeLen, pad := t.eng.pad, tcur := 0, node := [],
                   pstk := [], out := [] }) ∧
    (i.format = .lb → t.eng = { s.eng with origLen := t.eng.origLen, ipos := 4, out := [] })

/-! ## The tree builder and the packer -/

/-- R100: the counts, their sum, and the number of present bytes. -/
def Obligations.FrequenciesCountTheInput : Prop :=
  ∀ input : List Byte, input ≠ [] →
    (∀ b : Byte, (countFrequencies input)[b.toNat] = input.count b) ∧
    (countFrequencies input).toList.sum = input.length ∧
    1 ≤ ((countFrequencies input).toList.filter (0 < ·)).length ∧
    ((countFrequencies input).toList.filter (0 < ·)).length ≤ min input.length 256

/-- R101, R102, R104: on a heap, `extractMin` gives an entry that no other is before, keeps the others and the heap, and is
without an answer for the empty queue only; `insert` adds the entry and keeps the heap. -/
def Obligations.QueueExtractsTheLeast : Prop :=
  (∀ h m h', IsHeap h → pqExtractMin h = some (m, h') →
    IsHeap h' ∧ (m :: h').Perm h ∧ ∀ e ∈ h', before e m = false) ∧
  (∀ h, pqExtractMin h = none ↔ h = []) ∧
  (∀ h e, IsHeap h → IsHeap (pqInsert h e) ∧ (pqInsert h e).Perm (e :: h))

/-- R103, R105, R106, R108: `BuildTree` on the counts of a non-empty input gives a tree with each present byte at exactly
one leaf: a `WRAP` over the leaf of the only byte, or else a plain tree with a weight of `n`, `2m - 1` nodes and the root at
the last index. -/
def Obligations.BuildTreeHasEachByteOnce : Prop :=
  ∀ input : List Byte, input ≠ [] →
    ∃ t node root, buildLoop 256 (makeLeaves (countFrequencies input)) = some (node, root) ∧
      buildTree (countFrequencies input) = some t ∧ t.encoderMade = true ∧ t.leaves.Nodup ∧
      (∀ b, b ∈ t.leaves ↔ b ∈ input) ∧
      (∀ b, t.leaves = [b] → t = .wrap (.leaf b) ∧ node.length = 2 ∧ root = 1) ∧
      (2 ≤ t.leaves.length → node.length = 2 * t.leaves.length - 1 ∧ root = 2 * t.leaves.length - 2) ∧
      (node[root]?).map (·.weight) = some input.length

/-- R34, R77, R109: the codes of the bytes of an input are 1 to 255 bits long and no code begins another. -/
def Obligations.CodesArePrefixFree : Prop :=
  ∀ (input : List Byte) (t : Tree), buildTree (countFrequencies input) = some t →
    (∀ b ∈ input, 1 ≤ (codeOf (deriveCodes t) b).length ∧ (codeOf (deriveCodes t) b).length ≤ 255) ∧
    (∀ a ∈ input, ∀ b ∈ input, a ≠ b → ¬ (codeOf (deriveCodes t) a <+: codeOf (deriveCodes t) b)) ∧
    (∀ b, b ∉ input → codeOf (deriveCodes t) b = [])

/-- R109: `TOTAL_BITS` by the table is the length of the code bits of the input (R132). -/
def Obligations.TotalBitsIsTheCodeLength : Prop :=
  ∀ (input : List Byte) (code : Vector (List Bool) 256),
    totalBitsOf (countFrequencies input) code = (codeBits code input).length

/-- R131: `Pack` gives `ceil(len/8)` bytes that unpack to the bits and zeros, a pad count of 0 to 7 that is 0 exactly when
the length is a multiple of 8, nothing for nothing; and the accumulator that shifts bits in and emits at 8 gives the same
bytes, `ACC_N` counting the bits left over. -/
def Obligations.PackerMatchesPack : Prop :=
  ∀ bits : List Bool,
    (pack bits).1.length = (bits.length + 7) / 8 ∧ (pack bits).2 ≤ 7 ∧
    ((pack bits).2 = 0 ↔ bits.length % 8 = 0) ∧
    unpackBits (pack bits).1 = bits ++ List.replicate (pack bits).2 false ∧
    pack [] = ([], 0) ∧
    (bits.foldl Packer.push { acc := 0, accN := 0, out := [] }).accN = bits.length % 8 ∧
    (bits.foldl Packer.push { acc := 0, accN := 0, out := [] }).flush = (pack bits).1

/-- R75, R76, R153, R154: the tree field an encoder writes parses back to the tree, a one-symbol tree as `WRAP`. -/
def Obligations.SerializedTreeParsesBack : Prop :=
  ∀ t : Tree, t.encoderMade = true → t.leaves.length ≤ 256 →
    parseTree (unpackBits (pack t.serialize).1) = .ok t ∧
    t.serialize.length = (if t.leaves.length = 1 then 10 else 10 * t.leaves.length - 1)

/-! ## The match finder and the LZ77 encoder -/

/-- R170, R173, R176: the no-match value exactly when no candidate has a run of 3, and otherwise a match in bounds, which
agrees with the input, is of the longest run and the nearest of them. -/
def Obligations.MatchFinderIsLongestAndNearest : Prop :=
  ∀ (input : List Byte) (pos : Nat), pos < input.length →
    let m := findLongestMatch input pos
    (m = { dist := 0, len := 0 } ↔
      ∀ d, 1 ≤ d → d ≤ min pos 4096 → runLength input pos (pos - d) < 3) ∧
    (m ≠ { dist := 0, len := 0 } →
      1 ≤ m.dist ∧ m.dist ≤ min pos 4096 ∧ 3 ≤ m.len ∧ m.len ≤ min 18 (input.length - pos) ∧
      (∀ k < m.len, input[pos - m.dist + k]? = input[pos + k]?) ∧
      (∀ d, 1 ≤ d → d ≤ min pos 4096 →
        runLength input pos (pos - d) ≤ m.len ∧ (runLength input pos (pos - d) = m.len → m.dist ≤ d)))

/-- R172: `run(i)` is the largest length up to which the candidate agrees with the lookahead. -/
def Obligations.RunLengthIsTheLargest : Prop :=
  ∀ (input : List Byte) (pos i : Nat), i < pos → pos < input.length →
    runLength input pos i ≤ min 18 (input.length - pos) ∧
    (∀ k < runLength input pos i, input[i + k]? = input[pos + k]?) ∧
    (runLength input pos i < min 18 (input.length - pos) →
      input[i + runLength input pos i]? ≠ input[pos + runLength input pos i]?)

/-- R186, R187: what `EmitLiteral(b)` emits, both marker values escaped, and what `EmitMatch(d, l, has_next, nx)` emits, `nx`
not escaped and 0x00 when there is none. -/
def Obligations.EmittedTokenBytes : Prop :=
  (∀ b : Byte, encodeBytes (literalToken b) = (if b = 0xFF ∨ b = 0xFE then [0xFE, b] else [b])) ∧
  (∀ (d l : Nat) (nx : Option Byte), 1 ≤ d → d ≤ 4096 → 3 ≤ l → l ≤ 18 →
    encodeBytes (matchToken { dist := d, len := l } nx) =
      [0xFF, BitVec.ofNat 8 (d / 256), BitVec.ofNat 8 (d % 256),
       BitVec.ofNat 8 ((if nx.isSome then 128 else 0) + l), nx.getD 0])

/-- R85, R188, R190: every token `LZ77_ENC` writes is canonical, and the tokens cover the input exactly: a literal one byte,
a match its length and its next byte. -/
def Obligations.EncoderTokensAreCanonical : Prop :=
  ∀ input : List Byte,
    (∀ i ∈ lz77Tokens input input.length 0, i.canonical = true ∧ i.format = .token) ∧
    ((lz77Tokens input input.length 0).map fun i =>
      match i with
      | .matchRef _ h l _ => l.toNat + (if h then 1 else 0)
      | _ => 1).sum = input.length ∧
    (lz77Encode input).length ≤ 4 + 2 * input.length

/-! ## Operations -/

/-- R221: `Exec` is total; the empty input is the identity; otherwise a result fits `OBUF` and an error is one of the
operation's own kinds. -/
def Obligations.ExecIsTotal : Prop :=
  ∀ (op : Operation) (cap : Nat) (input : List Byte), ∃ r, Exec op cap input = some r ∧
    (input = [] → r = .ok ([], true)) ∧
    (input ≠ [] →
      (∀ out empty, r = .ok (out, empty) → empty = false ∧ out.length ≤ cap) ∧
      (∀ kind, r = .error kind →
        kind ∈ (match op with
          | .huffEnc | .lz77Enc => [ErrorKind.capacity]
          | .huffDec => [.malformedHeader, .capacity, .corruptTree, .truncatedStream]
          | .lz77Dec => [.malformedHeader, .capacity, .truncatedStream])))

/-- R136, R219, R221, R222: from every idle block with a non-empty input and a waiting host, `HUFF_ENC` starts, its phases
run one after another without a fault, and the block finishes with the result of `Exec`. -/
def Obligations.HuffEncRunsToExec : Prop := ∀ s : State, s.ready → RunsToExec .huffEnc s

/-- R159, R219, R221, R222: `HUFF_DEC` starts, its phases decode `IBUF` unit by unit, and the block finishes with the result
of `Exec`: the bytes, or the error of the first check that fails (R238). -/
def Obligations.HuffDecRunsToExec : Prop := ∀ s : State, s.ready → RunsToExec .huffDec s

/-- R189, R219, R221, R222: `LZ77_ENC` starts, emits token by token, and the block finishes with the result of `Exec`. -/
def Obligations.Lz77EncRunsToExec : Prop := ∀ s : State, s.ready → RunsToExec .lz77Enc s

/-- R204, R219, R221, R222: `LZ77_DEC` starts, runs token by token, and the block finishes with the result of `Exec`. -/
def Obligations.Lz77DecRunsToExec : Prop := ∀ s : State, s.ready → RunsToExec .lz77Dec s

/-- R137: `HUFF_DEC(HUFF_ENC(x)) = x` for every non-empty `x` whose length fits the header and the buffer. -/
def Obligations.HuffmanRoundTrip : Prop :=
  ∀ (x : List Byte) (cap : Nat), x ≠ [] → x.length ≤ Config.maxLen → x.length ≤ cap →
    ∃ y, huffEncode x = some y ∧ huffDecode cap y = .ok x

/-- R190: `LZ77_DEC(LZ77_ENC(x)) = x` for every non-empty `x` whose length fits the header and the buffer, inputs with 0x00
after a match, 0xFE and 0xFF among them. -/
def Obligations.Lz77RoundTrip : Prop :=
  ∀ (x : List Byte) (cap : Nat), x ≠ [] → x.length ≤ Config.maxLen → x.length ≤ cap →
    lz77Decode cap (lz77Encode x) = .ok x

/-! ## The host's side -/

/-- R23: the fields of the word a read of `STATUS` returns; reserved bits read 0. -/
def Obligations.StatusWordFields : Prop :=
  ∀ st : Status,
    st.word.getLsbD 0 = st.busy ∧ st.word.getLsbD 1 = st.done ∧ st.word.getLsbD 2 = st.empty ∧
    st.word.getLsbD 3 = false ∧ (∀ k, 8 ≤ k → st.word.getLsbD k = false) ∧
    (st.word.extractLsb' 4 4).toNat =
      (match st.err with
      | none => 0
      | some .malformedHeader => 1
      | some .truncatedStream => 2
      | some .corruptTree => 3
      | some .capacity => 4
      | some .illegalCommand => 5)

/-- R21, R22, R41, R54, R219, R268: register reads, in an idle and in a busy block. `STATUS` gives its value, which in a busy
block whose status fields are legal is `BUSY = 1` and nothing else; `OUT_LEN` of an idle block gives its value; `CMD`, every
other offset and every access that is not a whole word give 0; nothing else changes. The model's choices: `IN_LEN` read while
busy gives its value (log 12, DEDUCED), and `OUT_LEN` read while busy gives some value and takes a free one from the counter
(log 4, DESIGN CHOICE). -/
def Obligations.RegisterReads : Prop :=
  ∀ (s : State) (d : Nat) (size : AccessSize) (offset : Nat) rest,
    s.hostq = { delay := d, action := .readReg size offset } :: rest → s.status.busy = false ∨ d = 0 →
    (s.status.busy = false ∨ ¬(size = .word ∧ offset = 12) →
      step s =
        .next
          { s with
            hostq := rest
            rdata :=
              if size = .word ∧ offset = 4 then s.status.word
              else if size = .word ∧ offset = 8 then s.inLen
              else if size = .word ∧ offset = 12 then s.outLen
              else 0 }) ∧
    (s.status.busy = true → size = .word → offset = 12 →
      ∃ v, step s = .next { s with hostq := rest, rdata := v, fresh := s.fresh + 1 }) ∧
    (s.statusLegal → s.status.busy = true → s.status.word = 1)

/-- R21, R26, R41, R54: register writes other than to `CMD`. `IN_LEN` takes the value, in an idle block without further
effect; every other write is ignored, whatever the block does. -/
def Obligations.RegisterWrites : Prop :=
  ∀ (s : State) (d : Nat) (size : AccessSize) (offset : Nat) (v : Word) rest,
    s.hostq = { delay := d, action := .writeReg size offset v } :: rest → s.status.busy = false ∨ d = 0 →
    (size ≠ .word ∨ (offset ≠ 0 ∧ offset ≠ 8) → step s = .next { s with hostq := rest }) ∧
    (size = .word → offset = 8 → s.status.busy = false → step s = .next { s with hostq := rest, inLen := v })

/-- R29, R50, R263, R268: the host's accesses to both buffers of an idle block, to `OBUF` of a busy one, and beyond a capacity.
In an idle block a write of an `IBUF` byte stores that byte and no other,
and a read of either buffer gives the byte and changes nothing else. The model's choices: a write to `OBUF` in an idle block
makes that byte a free value and no other, and in a busy block records the address without disturbing the operation (log 10,
DESIGN CHOICE); a read of `OBUF` in a busy block gives some value and takes a free one from the counter (log 4, DESIGN CHOICE);
an address at or beyond the capacity, which does not exist, is a fault for every access (log 11, DEDUCED). -/
def Obligations.InputBufferHoldsWhatIsWritten : Prop :=
  ∀ (s : State) (d a : Nat) (b : Byte) rest,
    let next := fun action => s.hostq = { delay := d, action := action } :: rest
    (s.status.busy = false →
      (next (.writeIbuf a b) → a < s.cfg.ibufCap →
        ∃ t, step s = .next t ∧ t.ibufByte a = b ∧ (∀ a', a' ≠ a → t.ibufByte a' = s.ibufByte a') ∧
          (∀ a', t.obufByte a' = s.obufByte a') ∧ t = { s with hostq := rest, ibuf := t.ibuf }) ∧
      (next (.readIbuf a) → a < s.cfg.ibufCap →
        step s = .next { s with hostq := rest, rdata := (s.ibufByte a).setWidth 32 }) ∧
      (next (.readObuf a) → a < s.cfg.obufCap →
        step s = .next { s with hostq := rest, rdata := (s.obufByte a).setWidth 32 }) ∧
      (next (.writeObuf a b) → a < s.cfg.obufCap →
        ∃ t, step s = .next t ∧ t.obufByte a = Config.freeByte s.fresh a ∧
          (∀ a', a' ≠ a → t.obufByte a' = s.obufByte a') ∧
          t = { s with hostq := rest, obuf := t.obuf, fresh := s.fresh + 1 })) ∧
    (s.status.busy = true → d = 0 → a < s.cfg.obufCap →
      (next (.writeObuf a b) → step s = .next { s with hostq := rest, obufDirty := a :: s.obufDirty }) ∧
      (next (.readObuf a) → ∃ v, step s = .next { s with hostq := rest, rdata := v, fresh := s.fresh + 1 })) ∧
    (s.status.busy = false ∨ d = 0 →
      (next (.writeIbuf a b) ∨ next (.readIbuf a) → s.cfg.ibufCap ≤ a → step s = .fault .bufferAddress) ∧
      (next (.writeObuf a b) ∨ next (.readObuf a) → s.cfg.obufCap ≤ a → step s = .fault .bufferAddress))

/-- R267: a host write to `IN_LEN` or inside `IBUF[0 .. IN_LEN)` while `BUSY = 1` is a hazard. The model's choices: that the
hazard is a flag which ends the operation at the engine's next move (log 5, DESIGN CHOICE), and that a write of `IBUF` at or
beyond `IN_LEN` is no hazard (log 12, DEDUCED: R267 does not name it). -/
def Obligations.TouchingTheInputIsAHazard : Prop :=
  ∀ (s : State) (a : Nat) (b : Byte) (v : Word) rest, s.status.busy = true →
    (s.hostq = { delay := 0, action := .writeIbuf a b } :: rest → a < s.cfg.ibufCap →
      ∃ t, step s = .next t ∧ (a < s.n → t.hazard = true) ∧ (s.n ≤ a → t.hazard = s.hazard) ∧
        t.status = s.status ∧ t.eng = s.eng) ∧
    (s.hostq = { delay := 0, action := .writeReg .word 8 v } :: rest →
      ∃ t, step s = .next t ∧ t.hazard = true ∧ t.status = s.status ∧ t.eng = s.eng)

/-- R267: an operation whose input was touched still terminates and leaves the block idle and sound: it completes with some
length up to `OBUF_CAP` or fails with a code from 1 to 4, whatever the free values are. The model's choices (log 5, DESIGN
CHOICE): that it ends at the engine's very next move, where R270 leaves any finite time, and that code 5 is not among the
outcomes, where R267 says any of the error codes and U4 of spec/93_implementation_defined.md says 0 to 4. -/
def Obligations.HazardEndsSoundly : Prop :=
  ∀ s : State, s.status.busy = true → s.hazard = true → s.hostq = [] → s.cfg.wf = true →
    ∃ t, step s = .next t ∧ t.phase = .idle ∧ t.status.busy = false ∧ t.status.done = true ∧ t.hazard = false ∧
      t.outLen.toNat ≤ s.cfg.obufCap ∧ t.status.err ≠ some .illegalCommand ∧
      (t.status.err ≠ none ∨ t.status.empty = true → t.outLen = 0) ∧
      (t.status.err ≠ none → t.status.empty = false) ∧
      t.inLen = s.inLen ∧ ∀ a, t.ibufByte a = s.ibufByte a

/-- R216, R268, R269: what a delivered result leaves in `OBUF`: the bytes of the result, but for those the host wrote during
the operation, which are unspecified, as are all bytes from `OUT_LEN` on. That an unspecified byte is the free value
`Config.freeByte` of a seed and its address is the model's form of it (log 3, DEDUCED), and so is the record of the addresses
the host wrote (log 10, DESIGN CHOICE); nothing can be proved of the value. -/
def Obligations.DeliveredBytes : Prop :=
  ∀ (s : State) (out : List Byte) (empty : Bool) (a : Nat),
    (∀ h : a < out.length, a ∉ s.obufDirty → (s.deliver out empty).obufByte a = out[a]) ∧
    (out.length ≤ a ∨ a ∈ s.obufDirty → (s.deliver out empty).obufByte a = Config.freeByte s.fresh a)

/-- R246, R260, R263: an idle block with nothing pending stays as it is; a host that waits for `DONE` lets the running engine
move, and goes on when `DONE = 1`. That the idle block's step answers the identical state, and that a waiting host goes on in a
step of its own, is the model's choice (log 17, DESIGN CHOICE). -/
def Obligations.IdleStaysAndWaitingLetsRun : Prop :=
  (∀ s : State, s.status.busy = false → s.hostq = [] → step s = .next s) ∧
  (∀ (s : State) rest, s.hostq = { delay := 0, action := .waitDone } :: rest →
    (s.status.busy = true → s.status.done = false → step s = (engineMove s).outcome) ∧
    (s.status.done = true → step s = .next { s with hostq := rest }))
end

