-- ==== Sys2Proof/Laws/Bits.lean ====
section
/-! SUPPORT. Byte order and bit order: taking apart and putting together are inverse. -/

namespace Sys2Proof

@[simp] theorem be32_length (n : Word) : (be32 n).length = 4 := rfl

/-- `be32_dec` is the inverse of `be32` (R9). -/
theorem be32Dec_be32 (n : Word) :
    be32Dec (n.extractLsb' 24 8) (n.extractLsb' 16 8) (n.extractLsb' 8 8) (n.extractLsb' 0 8) = n := by
  unfold be32Dec
  ext i hi
  simp only [BitVec.getElem_append, BitVec.getElem_extractLsb']
  split
  · simp only [Nat.zero_add, BitVec.getLsbD_eq_getElem hi]
  · split
    · rw [show 8 + (i - 8) = i by omega, BitVec.getLsbD_eq_getElem hi]
    · split
      · rw [show 16 + (i - 8 - 8) = i by omega, BitVec.getLsbD_eq_getElem hi]
      · rw [show 24 + (i - 8 - 8 - 8) = i by omega, BitVec.getLsbD_eq_getElem hi]

@[simp] theorem byteBits_length (b : Byte) : (byteBits b).length = 8 := rfl

/-- The eight bits of a byte, packed, are the byte (R9, R131). -/
@[simp] theorem bitsByte_byteBits (b : Byte) : bitsByte (byteBits b) = b := by
  revert b
  decide

theorem padCount_lt (n : Nat) : padCount n < 8 := Nat.mod_lt _ (by decide)

/-- The padding reaches a byte boundary. -/
theorem padCount_spec (n : Nat) : 8 ∣ n + padCount n := by
  unfold padCount
  omega

/-- The length of `Pack(bs)`: `ceil(len(bs) / 8)` bytes (R131). -/
theorem pack_length (bs : List Bool) : (pack bs).1.length = (bs.length + 7) / 8 := by
  have h := padCount_spec bs.length
  have h' := padCount_lt bs.length
  simp only [pack, List.length_map, List.length_range, List.length_append, List.length_replicate]
  omega

theorem unpackBits_length (bytes : List Byte) : (unpackBits bytes).length = 8 * bytes.length := by
  induction bytes with
  | nil => rfl
  | cons b rest ih =>
    rw [unpackBits, List.flatMap_cons, List.length_append, byteBits_length, ← unpackBits, ih, List.length_cons]
    omega

end Sys2Proof
end

