-- ==== Sys2Proof/Laws/Memory.lean ====
section
/-! SUPPORT. Memory: reading after writing, and every operation keeps the canonical form. -/

namespace Sys2Proof.Machine

/-- The canonical form as a statement about all pairs of entries. -/
theorem Memory.wf_iff_pairwise (m : Memory) : m.wf = true ↔ m.Pairwise (fun c d => c.1 < d.1) := by
  induction m with
  | nil => simp [Memory.wf]
  | cons c rest ih =>
    cases rest with
    | nil => simp [Memory.wf]
    | cons d rest =>
      rw [Memory.wf, Bool.and_eq_true, ih, decide_eq_true_eq]
      constructor
      · rintro ⟨hcd, hp⟩
        refine List.pairwise_cons.2 ⟨fun e he => ?_, hp⟩
        rcases List.mem_cons.1 he with rfl | he
        · exact hcd
        · exact hcd.trans ((List.pairwise_cons.1 hp).1 e he)
      · intro hp
        exact ⟨(List.pairwise_cons.1 hp).1 d (by simp), (List.pairwise_cons.1 hp).2⟩

@[simp] theorem Memory.wf_nil : Memory.wf [] = true := rfl

@[simp] theorem Memory.read?_nil (a : Nat) : Memory.read? [] a = none := rfl

theorem Memory.mem_write {m : Memory} {a : Nat} {b : Byte} {c : Host.Cell} (h : c ∈ m.write a b) :
    c = (a, b) ∨ c ∈ m := by
  induction m with
  | nil => simpa [Memory.write] using h
  | cons d rest ih =>
    simp only [Memory.write] at h
    split at h
    · simpa using h
    · split at h
      · rcases List.mem_cons.1 h with h | h
        · exact .inl h
        · exact .inr (List.mem_cons_of_mem _ h)
      · rcases List.mem_cons.1 h with h | h
        · exact .inr (by simp [h])
        · exact (ih h).imp_right (List.mem_cons_of_mem _)

/-- A write keeps the canonical form. -/
theorem Memory.write_wf {m : Memory} (h : m.wf = true) (a : Nat) (b : Byte) : (m.write a b).wf = true := by
  rw [Memory.wf_iff_pairwise] at h ⊢
  induction m with
  | nil => simp [Memory.write]
  | cons c rest ih =>
    obtain ⟨hc, hp⟩ := List.pairwise_cons.1 h
    simp only [Memory.write]
    split
    · rename_i hlt
      refine List.pairwise_cons.2 ⟨fun d hd => ?_, h⟩
      rcases List.mem_cons.1 hd with rfl | hd
      · exact hlt
      · exact Nat.lt_trans hlt (hc d hd)
    · split
      · rename_i heq
        exact List.pairwise_cons.2 ⟨fun d hd => heq ▸ hc d hd, hp⟩
      · refine List.pairwise_cons.2 ⟨fun d hd => ?_, ih hp⟩
        rcases Memory.mem_write hd with rfl | hd
        · dsimp only; omega
        · exact hc d hd

/-- Storing a sequence of bytes keeps the canonical form. -/
theorem storeBytes_wf {m : Memory} (h : m.wf = true) (a : Nat) (bytes : List Byte) : (storeBytes m a bytes).wf = true := by
  induction bytes generalizing m a with
  | nil => exact h
  | cons b rest ih => exact ih (Memory.write_wf h a b) (a + 1)

theorem Memory.ofBytes_lower {a : Nat} {bytes : List Byte} {c : Host.Cell} (h : c ∈ Memory.ofBytes a bytes) :
    a ≤ c.1 ∧ c.1 < a + bytes.length := by
  induction bytes generalizing a with
  | nil => simp [Memory.ofBytes] at h
  | cons b rest ih =>
    rcases List.mem_cons.1 h with rfl | h
    · simp
    · have := ih h
      simp only [List.length_cons]
      omega

/-- The cells of a byte sequence are in canonical form. -/
theorem Memory.ofBytes_wf (a : Nat) (bytes : List Byte) : (Memory.ofBytes a bytes).wf = true := by
  rw [Memory.wf_iff_pairwise]
  induction bytes generalizing a with
  | nil => simp [Memory.ofBytes]
  | cons b rest ih =>
    refine List.pairwise_cons.2 ⟨fun c hc => ?_, ih (a + 1)⟩
    have := (Memory.ofBytes_lower hc).1
    dsimp only
    omega

/-- Forgetting known values keeps the canonical form. -/
theorem Memory.forget_wf {m : Memory} (h : m.wf = true) (addresses : List Nat) : (m.forget addresses).wf = true := by
  rw [Memory.wf_iff_pairwise] at h ⊢
  exact h.sublist List.filter_sublist

@[simp] theorem Memory.forget_nil (m : Memory) : m.forget [] = m := by
  simp [Memory.forget]

/-- A read at the written address gives the written byte. -/
@[simp] theorem Memory.read?_write_self (m : Memory) (a : Nat) (b : Byte) : (m.write a b).read? a = some b := by
  induction m with
  | nil => simp [Memory.write, Memory.read?]
  | cons c rest ih =>
    simp only [Memory.write]
    split
    · simp [Memory.read?]
    · split
      · simp [Memory.read?]
      · rename_i h1 h2
        simpa [Memory.read?, ih] using fun h : c.1 = a => absurd h.symm h2

/-- A write leaves every other address alone. -/
theorem Memory.read?_write_of_ne {m : Memory} {a a' : Nat} (b : Byte) (h : a' ≠ a) :
    (m.write a b).read? a' = m.read? a' := by
  induction m with
  | nil => simp [Memory.write, Memory.read?, h.symm]
  | cons c rest ih =>
    simp only [Memory.write]
    split
    · simp [Memory.read?, h.symm]
    · split
      · rename_i h2
        subst h2
        simp [Memory.read?, h.symm]
      · simp only [Memory.read?, ih]

/-- What the cells of a byte sequence read as. -/
theorem Memory.read?_ofBytes (a : Nat) (bytes : List Byte) (k : Nat) :
    (Memory.ofBytes a bytes).read? (a + k) = bytes[k]? := by
  induction bytes generalizing a k with
  | nil => simp [Memory.ofBytes]
  | cons b rest ih =>
    cases k with
    | zero => simp [Memory.ofBytes, Memory.read?]
    | succ k =>
      have h := ih (a + 1) k
      rw [show a + 1 + k = a + (k + 1) by omega] at h
      simp [Memory.ofBytes, Memory.read?, h]

theorem reset_buffers_wf : State.reset.ibuf.wf = true ∧ State.reset.obuf.wf = true := ⟨rfl, rfl⟩

end Sys2Proof.Machine
end

