-- ==== Sys2Proof/Laws/State.lean ====
section
/-! SUPPORT. One lemma per field of State per named update, each true by definition, so that no proof unfolds a record
update. -/

namespace Sys2Proof.Machine

variable (s : State)

/-! ## emit -/

@[simp] theorem State.emit_cfg (b : Byte) : (s.emit b).cfg = s.cfg := rfl
@[simp] theorem State.emit_status (b : Byte) : (s.emit b).status = s.status := rfl
@[simp] theorem State.emit_inLen (b : Byte) : (s.emit b).inLen = s.inLen := rfl
@[simp] theorem State.emit_outLen (b : Byte) : (s.emit b).outLen = s.outLen := rfl
@[simp] theorem State.emit_phase (b : Byte) : (s.emit b).phase = s.phase := rfl
@[simp] theorem State.emit_ibuf (b : Byte) : (s.emit b).ibuf = s.ibuf := rfl
@[simp] theorem State.emit_obuf (b : Byte) : (s.emit b).obuf = s.obuf := rfl
@[simp] theorem State.emit_eng (b : Byte) : (s.emit b).eng = { s.eng with out := s.eng.out ++ [b] } := rfl
@[simp] theorem State.emit_hostq (b : Byte) : (s.emit b).hostq = s.hostq := rfl
@[simp] theorem State.emit_rdata (b : Byte) : (s.emit b).rdata = s.rdata := rfl
@[simp] theorem State.emit_ibufSeed (b : Byte) : (s.emit b).ibufSeed = s.ibufSeed := rfl
@[simp] theorem State.emit_obufSeed (b : Byte) : (s.emit b).obufSeed = s.obufSeed := rfl
@[simp] theorem State.emit_fresh (b : Byte) : (s.emit b).fresh = s.fresh := rfl
@[simp] theorem State.emit_hazard (b : Byte) : (s.emit b).hazard = s.hazard := rfl
@[simp] theorem State.emit_obufDirty (b : Byte) : (s.emit b).obufDirty = s.obufDirty := rfl

/-! ## advance -/

@[simp] theorem State.advance_cfg (k : Nat) : (s.advance k).cfg = s.cfg := rfl
@[simp] theorem State.advance_status (k : Nat) : (s.advance k).status = s.status := rfl
@[simp] theorem State.advance_inLen (k : Nat) : (s.advance k).inLen = s.inLen := rfl
@[simp] theorem State.advance_outLen (k : Nat) : (s.advance k).outLen = s.outLen := rfl
@[simp] theorem State.advance_phase (k : Nat) : (s.advance k).phase = s.phase := rfl
@[simp] theorem State.advance_ibuf (k : Nat) : (s.advance k).ibuf = s.ibuf := rfl
@[simp] theorem State.advance_obuf (k : Nat) : (s.advance k).obuf = s.obuf := rfl
@[simp] theorem State.advance_eng (k : Nat) : (s.advance k).eng = { s.eng with ipos := s.eng.ipos + k } := rfl
@[simp] theorem State.advance_hostq (k : Nat) : (s.advance k).hostq = s.hostq := rfl
@[simp] theorem State.advance_rdata (k : Nat) : (s.advance k).rdata = s.rdata := rfl
@[simp] theorem State.advance_ibufSeed (k : Nat) : (s.advance k).ibufSeed = s.ibufSeed := rfl
@[simp] theorem State.advance_obufSeed (k : Nat) : (s.advance k).obufSeed = s.obufSeed := rfl
@[simp] theorem State.advance_fresh (k : Nat) : (s.advance k).fresh = s.fresh := rfl
@[simp] theorem State.advance_hazard (k : Nat) : (s.advance k).hazard = s.hazard := rfl
@[simp] theorem State.advance_obufDirty (k : Nat) : (s.advance k).obufDirty = s.obufDirty := rfl

/-! ## loseObuf -/

@[simp] theorem State.loseObuf_cfg : (s.loseObuf).cfg = s.cfg := rfl
@[simp] theorem State.loseObuf_status : (s.loseObuf).status = s.status := rfl
@[simp] theorem State.loseObuf_inLen : (s.loseObuf).inLen = s.inLen := rfl
@[simp] theorem State.loseObuf_outLen : (s.loseObuf).outLen = s.outLen := rfl
@[simp] theorem State.loseObuf_phase : (s.loseObuf).phase = s.phase := rfl
@[simp] theorem State.loseObuf_ibuf : (s.loseObuf).ibuf = s.ibuf := rfl
@[simp] theorem State.loseObuf_obuf : (s.loseObuf).obuf = [] := rfl
@[simp] theorem State.loseObuf_eng : (s.loseObuf).eng = s.eng := rfl
@[simp] theorem State.loseObuf_hostq : (s.loseObuf).hostq = s.hostq := rfl
@[simp] theorem State.loseObuf_rdata : (s.loseObuf).rdata = s.rdata := rfl
@[simp] theorem State.loseObuf_ibufSeed : (s.loseObuf).ibufSeed = s.ibufSeed := rfl
@[simp] theorem State.loseObuf_obufSeed : (s.loseObuf).obufSeed = s.fresh := rfl
@[simp] theorem State.loseObuf_fresh : (s.loseObuf).fresh = s.fresh + 1 := rfl
@[simp] theorem State.loseObuf_hazard : (s.loseObuf).hazard = s.hazard := rfl
@[simp] theorem State.loseObuf_obufDirty : (s.loseObuf).obufDirty = s.obufDirty := rfl

/-! ## storeResult -/

@[simp] theorem State.storeResult_cfg (out : List Byte) : (s.storeResult out).cfg = s.cfg := rfl
@[simp] theorem State.storeResult_status (out : List Byte) : (s.storeResult out).status = s.status := rfl
@[simp] theorem State.storeResult_inLen (out : List Byte) : (s.storeResult out).inLen = s.inLen := rfl
@[simp] theorem State.storeResult_outLen (out : List Byte) : (s.storeResult out).outLen = s.outLen := rfl
@[simp] theorem State.storeResult_phase (out : List Byte) : (s.storeResult out).phase = s.phase := rfl
@[simp] theorem State.storeResult_ibuf (out : List Byte) : (s.storeResult out).ibuf = s.ibuf := rfl
@[simp] theorem State.storeResult_obuf (out : List Byte) : (s.storeResult out).obuf =
    (Memory.ofBytes 0 out).forget s.obufDirty := rfl
@[simp] theorem State.storeResult_eng (out : List Byte) : (s.storeResult out).eng = s.eng := rfl
@[simp] theorem State.storeResult_hostq (out : List Byte) : (s.storeResult out).hostq = s.hostq := rfl
@[simp] theorem State.storeResult_rdata (out : List Byte) : (s.storeResult out).rdata = s.rdata := rfl
@[simp] theorem State.storeResult_ibufSeed (out : List Byte) : (s.storeResult out).ibufSeed = s.ibufSeed := rfl
@[simp] theorem State.storeResult_obufSeed (out : List Byte) : (s.storeResult out).obufSeed = s.fresh := rfl
@[simp] theorem State.storeResult_fresh (out : List Byte) : (s.storeResult out).fresh = s.fresh + 1 := rfl
@[simp] theorem State.storeResult_hazard (out : List Byte) : (s.storeResult out).hazard = s.hazard := rfl
@[simp] theorem State.storeResult_obufDirty (out : List Byte) : (s.storeResult out).obufDirty = s.obufDirty := rfl

/-! ## accept -/

@[simp] theorem State.accept_cfg : (s.accept).cfg = s.cfg := rfl
@[simp] theorem State.accept_status : (s.accept).status =
    { s.status with done := false, empty := false, err := none } := rfl
@[simp] theorem State.accept_inLen : (s.accept).inLen = s.inLen := rfl
@[simp] theorem State.accept_outLen : (s.accept).outLen = 0 := rfl
@[simp] theorem State.accept_phase : (s.accept).phase = s.phase := rfl
@[simp] theorem State.accept_ibuf : (s.accept).ibuf = s.ibuf := rfl
@[simp] theorem State.accept_obuf : (s.accept).obuf = s.obuf := rfl
@[simp] theorem State.accept_eng : (s.accept).eng = s.eng := rfl
@[simp] theorem State.accept_hostq : (s.accept).hostq = s.hostq := rfl
@[simp] theorem State.accept_rdata : (s.accept).rdata = s.rdata := rfl
@[simp] theorem State.accept_ibufSeed : (s.accept).ibufSeed = s.ibufSeed := rfl
@[simp] theorem State.accept_obufSeed : (s.accept).obufSeed = s.obufSeed := rfl
@[simp] theorem State.accept_fresh : (s.accept).fresh = s.fresh := rfl
@[simp] theorem State.accept_hazard : (s.accept).hazard = s.hazard := rfl
@[simp] theorem State.accept_obufDirty : (s.accept).obufDirty = s.obufDirty := rfl

/-! ## complete -/

@[simp] theorem State.complete_cfg : (s.complete).cfg = s.cfg := rfl
@[simp] theorem State.complete_status : (s.complete).status = { s.status with busy := false, done := true } := rfl
@[simp] theorem State.complete_inLen : (s.complete).inLen = s.inLen := rfl
@[simp] theorem State.complete_outLen : (s.complete).outLen = s.outLen := rfl
@[simp] theorem State.complete_phase : (s.complete).phase = .idle := rfl
@[simp] theorem State.complete_ibuf : (s.complete).ibuf = s.ibuf := rfl
@[simp] theorem State.complete_obuf : (s.complete).obuf = s.obuf := rfl
@[simp] theorem State.complete_eng : (s.complete).eng = s.eng := rfl
@[simp] theorem State.complete_hostq : (s.complete).hostq = s.hostq := rfl
@[simp] theorem State.complete_rdata : (s.complete).rdata = s.rdata := rfl
@[simp] theorem State.complete_ibufSeed : (s.complete).ibufSeed = s.ibufSeed := rfl
@[simp] theorem State.complete_obufSeed : (s.complete).obufSeed = s.obufSeed := rfl
@[simp] theorem State.complete_fresh : (s.complete).fresh = s.fresh := rfl
@[simp] theorem State.complete_hazard : (s.complete).hazard = s.hazard := rfl
@[simp] theorem State.complete_obufDirty : (s.complete).obufDirty = s.obufDirty := rfl

/-! ## fail -/

@[simp] theorem State.fail_cfg (kind : ErrorKind) : (s.fail kind).cfg = s.cfg := rfl
@[simp] theorem State.fail_status (kind : ErrorKind) : (s.fail kind).status =
    { busy := false, done := true, empty := false, err := some kind } := rfl
@[simp] theorem State.fail_inLen (kind : ErrorKind) : (s.fail kind).inLen = s.inLen := rfl
@[simp] theorem State.fail_outLen (kind : ErrorKind) : (s.fail kind).outLen = 0 := rfl
@[simp] theorem State.fail_phase (kind : ErrorKind) : (s.fail kind).phase = .idle := rfl
@[simp] theorem State.fail_ibuf (kind : ErrorKind) : (s.fail kind).ibuf = s.ibuf := rfl
@[simp] theorem State.fail_obuf (kind : ErrorKind) : (s.fail kind).obuf = s.obuf := rfl
@[simp] theorem State.fail_eng (kind : ErrorKind) : (s.fail kind).eng = s.eng := rfl
@[simp] theorem State.fail_hostq (kind : ErrorKind) : (s.fail kind).hostq = s.hostq := rfl
@[simp] theorem State.fail_rdata (kind : ErrorKind) : (s.fail kind).rdata = s.rdata := rfl
@[simp] theorem State.fail_ibufSeed (kind : ErrorKind) : (s.fail kind).ibufSeed = s.ibufSeed := rfl
@[simp] theorem State.fail_obufSeed (kind : ErrorKind) : (s.fail kind).obufSeed = s.obufSeed := rfl
@[simp] theorem State.fail_fresh (kind : ErrorKind) : (s.fail kind).fresh = s.fresh := rfl
@[simp] theorem State.fail_hazard (kind : ErrorKind) : (s.fail kind).hazard = s.hazard := rfl
@[simp] theorem State.fail_obufDirty (kind : ErrorKind) : (s.fail kind).obufDirty = s.obufDirty := rfl

/-! ## release -/

@[simp] theorem State.release_cfg : (s.release).cfg = s.cfg := rfl
@[simp] theorem State.release_status : (s.release).status = s.status := rfl
@[simp] theorem State.release_inLen : (s.release).inLen = s.inLen := rfl
@[simp] theorem State.release_outLen : (s.release).outLen = s.outLen := rfl
@[simp] theorem State.release_phase : (s.release).phase = s.phase := rfl
@[simp] theorem State.release_ibuf : (s.release).ibuf = s.ibuf := rfl
@[simp] theorem State.release_obuf : (s.release).obuf = s.obuf := rfl
@[simp] theorem State.release_eng : (s.release).eng = s.eng := rfl
@[simp] theorem State.release_hostq : (s.release).hostq = s.hostq := rfl
@[simp] theorem State.release_rdata : (s.release).rdata = s.rdata := rfl
@[simp] theorem State.release_ibufSeed : (s.release).ibufSeed = s.ibufSeed := rfl
@[simp] theorem State.release_obufSeed : (s.release).obufSeed = s.obufSeed := rfl
@[simp] theorem State.release_fresh : (s.release).fresh = s.fresh := rfl
@[simp] theorem State.release_hazard : (s.release).hazard = false := rfl
@[simp] theorem State.release_obufDirty : (s.release).obufDirty = [] := rfl

/-! ## failOperation -/

@[simp] theorem State.failOperation_cfg (kind : ErrorKind) : (s.failOperation kind).cfg = s.cfg := rfl
@[simp] theorem State.failOperation_status (kind : ErrorKind) : (s.failOperation kind).status =
    { busy := false, done := true, empty := false, err := some kind } := rfl
@[simp] theorem State.failOperation_inLen (kind : ErrorKind) : (s.failOperation kind).inLen = s.inLen := rfl
@[simp] theorem State.failOperation_outLen (kind : ErrorKind) : (s.failOperation kind).outLen = 0 := rfl
@[simp] theorem State.failOperation_phase (kind : ErrorKind) : (s.failOperation kind).phase = .idle := rfl
@[simp] theorem State.failOperation_ibuf (kind : ErrorKind) : (s.failOperation kind).ibuf = s.ibuf := rfl
@[simp] theorem State.failOperation_obuf (kind : ErrorKind) : (s.failOperation kind).obuf = [] := rfl
@[simp] theorem State.failOperation_eng (kind : ErrorKind) : (s.failOperation kind).eng = s.eng := rfl
@[simp] theorem State.failOperation_hostq (kind : ErrorKind) : (s.failOperation kind).hostq = s.hostq := rfl
@[simp] theorem State.failOperation_rdata (kind : ErrorKind) : (s.failOperation kind).rdata = s.rdata := rfl
@[simp] theorem State.failOperation_ibufSeed (kind : ErrorKind) : (s.failOperation kind).ibufSeed = s.ibufSeed := rfl
@[simp] theorem State.failOperation_obufSeed (kind : ErrorKind) : (s.failOperation kind).obufSeed = s.fresh := rfl
@[simp] theorem State.failOperation_fresh (kind : ErrorKind) : (s.failOperation kind).fresh = s.fresh + 1 := rfl
@[simp] theorem State.failOperation_hazard (kind : ErrorKind) : (s.failOperation kind).hazard = false := rfl
@[simp] theorem State.failOperation_obufDirty (kind : ErrorKind) : (s.failOperation kind).obufDirty = [] := rfl

/-! ## deliver -/

@[simp] theorem State.deliver_cfg (out : List Byte) (empty : Bool) : (s.deliver out empty).cfg = s.cfg := rfl
@[simp] theorem State.deliver_status (out : List Byte) (empty : Bool) : (s.deliver out empty).status =
    { busy := false, done := true, empty := empty, err := none } := rfl
@[simp] theorem State.deliver_inLen (out : List Byte) (empty : Bool) : (s.deliver out empty).inLen = s.inLen := rfl
@[simp] theorem State.deliver_outLen (out : List Byte) (empty : Bool) : (s.deliver out empty).outLen =
    BitVec.ofNat 32 out.length := rfl
@[simp] theorem State.deliver_phase (out : List Byte) (empty : Bool) : (s.deliver out empty).phase = .idle := rfl
@[simp] theorem State.deliver_ibuf (out : List Byte) (empty : Bool) : (s.deliver out empty).ibuf = s.ibuf := rfl
@[simp] theorem State.deliver_obuf (out : List Byte) (empty : Bool) : (s.deliver out empty).obuf =
    (Memory.ofBytes 0 out).forget s.obufDirty := rfl
@[simp] theorem State.deliver_eng (out : List Byte) (empty : Bool) : (s.deliver out empty).eng = s.eng := rfl
@[simp] theorem State.deliver_hostq (out : List Byte) (empty : Bool) : (s.deliver out empty).hostq = s.hostq := rfl
@[simp] theorem State.deliver_rdata (out : List Byte) (empty : Bool) : (s.deliver out empty).rdata = s.rdata := rfl
@[simp] theorem State.deliver_ibufSeed (out : List Byte) (empty : Bool) : (s.deliver out empty).ibufSeed =
    s.ibufSeed := rfl
@[simp] theorem State.deliver_obufSeed (out : List Byte) (empty : Bool) : (s.deliver out empty).obufSeed =
    s.fresh := rfl
@[simp] theorem State.deliver_fresh (out : List Byte) (empty : Bool) : (s.deliver out empty).fresh =
    s.fresh + 1 := rfl
@[simp] theorem State.deliver_hazard (out : List Byte) (empty : Bool) : (s.deliver out empty).hazard = false := rfl
@[simp] theorem State.deliver_obufDirty (out : List Byte) (empty : Bool) : (s.deliver out empty).obufDirty = [] := rfl

/-! ## resetBlock -/

@[simp] theorem State.resetBlock_cfg : (s.resetBlock).cfg = s.cfg := rfl
@[simp] theorem State.resetBlock_status : (s.resetBlock).status =
    { busy := false, done := false, empty := false, err := none } := rfl
@[simp] theorem State.resetBlock_inLen : (s.resetBlock).inLen = 0 := rfl
@[simp] theorem State.resetBlock_outLen : (s.resetBlock).outLen = 0 := rfl
@[simp] theorem State.resetBlock_phase : (s.resetBlock).phase = .idle := rfl
@[simp] theorem State.resetBlock_ibuf : (s.resetBlock).ibuf = [] := rfl
@[simp] theorem State.resetBlock_obuf : (s.resetBlock).obuf = [] := rfl
@[simp] theorem State.resetBlock_eng : (s.resetBlock).eng = s.eng := rfl
@[simp] theorem State.resetBlock_hostq : (s.resetBlock).hostq = s.hostq := rfl
@[simp] theorem State.resetBlock_rdata : (s.resetBlock).rdata = s.rdata := rfl
@[simp] theorem State.resetBlock_ibufSeed : (s.resetBlock).ibufSeed = s.fresh := rfl
@[simp] theorem State.resetBlock_obufSeed : (s.resetBlock).obufSeed = s.fresh + 1 := rfl
@[simp] theorem State.resetBlock_fresh : (s.resetBlock).fresh = s.fresh + 2 := rfl
@[simp] theorem State.resetBlock_hazard : (s.resetBlock).hazard = false := rfl
@[simp] theorem State.resetBlock_obufDirty : (s.resetBlock).obufDirty = [] := rfl

/-! ## read -/

@[simp] theorem State.read_cfg (v : Word) : (s.read v).cfg = s.cfg := rfl
@[simp] theorem State.read_status (v : Word) : (s.read v).status = s.status := rfl
@[simp] theorem State.read_inLen (v : Word) : (s.read v).inLen = s.inLen := rfl
@[simp] theorem State.read_outLen (v : Word) : (s.read v).outLen = s.outLen := rfl
@[simp] theorem State.read_phase (v : Word) : (s.read v).phase = s.phase := rfl
@[simp] theorem State.read_ibuf (v : Word) : (s.read v).ibuf = s.ibuf := rfl
@[simp] theorem State.read_obuf (v : Word) : (s.read v).obuf = s.obuf := rfl
@[simp] theorem State.read_eng (v : Word) : (s.read v).eng = s.eng := rfl
@[simp] theorem State.read_hostq (v : Word) : (s.read v).hostq = s.hostq := rfl
@[simp] theorem State.read_rdata (v : Word) : (s.read v).rdata = v := rfl
@[simp] theorem State.read_ibufSeed (v : Word) : (s.read v).ibufSeed = s.ibufSeed := rfl
@[simp] theorem State.read_obufSeed (v : Word) : (s.read v).obufSeed = s.obufSeed := rfl
@[simp] theorem State.read_fresh (v : Word) : (s.read v).fresh = s.fresh := rfl
@[simp] theorem State.read_hazard (v : Word) : (s.read v).hazard = s.hazard := rfl
@[simp] theorem State.read_obufDirty (v : Word) : (s.read v).obufDirty = s.obufDirty := rfl

/-! ## markHazard -/

@[simp] theorem State.markHazard_cfg : (s.markHazard).cfg = s.cfg := rfl
@[simp] theorem State.markHazard_status : (s.markHazard).status = s.status := rfl
@[simp] theorem State.markHazard_inLen : (s.markHazard).inLen = s.inLen := rfl
@[simp] theorem State.markHazard_outLen : (s.markHazard).outLen = s.outLen := rfl
@[simp] theorem State.markHazard_phase : (s.markHazard).phase = s.phase := rfl
@[simp] theorem State.markHazard_ibuf : (s.markHazard).ibuf = s.ibuf := rfl
@[simp] theorem State.markHazard_obuf : (s.markHazard).obuf = s.obuf := rfl
@[simp] theorem State.markHazard_eng : (s.markHazard).eng = s.eng := rfl
@[simp] theorem State.markHazard_hostq : (s.markHazard).hostq = s.hostq := rfl
@[simp] theorem State.markHazard_rdata : (s.markHazard).rdata = s.rdata := rfl
@[simp] theorem State.markHazard_ibufSeed : (s.markHazard).ibufSeed = s.ibufSeed := rfl
@[simp] theorem State.markHazard_obufSeed : (s.markHazard).obufSeed = s.obufSeed := rfl
@[simp] theorem State.markHazard_fresh : (s.markHazard).fresh = s.fresh := rfl
@[simp] theorem State.markHazard_hazard : (s.markHazard).hazard = (s.hazard || s.status.busy) := rfl
@[simp] theorem State.markHazard_obufDirty : (s.markHazard).obufDirty = s.obufDirty := rfl

/-! ## running -/

@[simp] theorem State.running_cfg (p : Phase) : (s.running p).cfg = s.cfg := rfl
@[simp] theorem State.running_status (p : Phase) : (s.running p).status =
    { busy := true, done := false, empty := false, err := none } := rfl
@[simp] theorem State.running_inLen (p : Phase) : (s.running p).inLen = s.inLen := rfl
@[simp] theorem State.running_outLen (p : Phase) : (s.running p).outLen = s.outLen := rfl
@[simp] theorem State.running_phase (p : Phase) : (s.running p).phase = p := rfl
@[simp] theorem State.running_ibuf (p : Phase) : (s.running p).ibuf = s.ibuf := rfl
@[simp] theorem State.running_obuf (p : Phase) : (s.running p).obuf = s.obuf := rfl
@[simp] theorem State.running_eng (p : Phase) : (s.running p).eng = s.eng := rfl
@[simp] theorem State.running_hostq (p : Phase) : (s.running p).hostq = [] := rfl
@[simp] theorem State.running_rdata (p : Phase) : (s.running p).rdata = s.rdata := rfl
@[simp] theorem State.running_ibufSeed (p : Phase) : (s.running p).ibufSeed = s.ibufSeed := rfl
@[simp] theorem State.running_obufSeed (p : Phase) : (s.running p).obufSeed = s.obufSeed := rfl
@[simp] theorem State.running_fresh (p : Phase) : (s.running p).fresh = s.fresh := rfl
@[simp] theorem State.running_hazard (p : Phase) : (s.running p).hazard = false := rfl
@[simp] theorem State.running_obufDirty (p : Phase) : (s.running p).obufDirty = s.obufDirty := rfl

end Sys2Proof.Machine
end

