-- ==== Sys2Proof/Laws/Ops.lean ====
section
/-! SUPPORT. For each shared operation and each meaning, one lemma that says once everything it can do. -/

namespace Sys2Proof.Machine

/-! ## Commands -/

/-- A command has its effect in an idle block and none in a busy one. -/
theorem whenIdle_cases {s effect t : State} (h : s.whenIdle effect = .next t) :
    (s.status.busy = true ∧ t = s) ∨ (s.status.busy = false ∧ t = effect) := by
  unfold State.whenIdle at h
  split at h
  · exact .inl ⟨‹_›, by simpa using h.symm⟩
  · exact .inr ⟨by simpa using ‹¬s.status.busy = true›, by simpa using h.symm⟩

@[simp] theorem whenIdle_idle {s effect : State} (h : s.status.busy = false) : s.whenIdle effect = .next effect := by
  simp [State.whenIdle, h]

@[simp] theorem whenIdle_busy {s effect : State} (h : s.status.busy = true) : s.whenIdle effect = .next s := by
  simp [State.whenIdle, h]

/-- The state in which an operation has just been accepted, `BUSY` set and nothing else decided (R215). -/
def State.accepted (s : State) : State := { s.accept with status := { s.accept.status with busy := true } }

/-- The three ways an operation starts (R215, R220, R231, R39). -/
theorem startOperation_cases (s : State) (p : Phase) :
    (s.cfg.ibufCap < s.n ∧ s.startOperation p = s.accepted.failOperation .capacity) ∨
    (s.n ≤ s.cfg.ibufCap ∧ s.inLen = 0 ∧ s.startOperation p = s.accepted.deliver [] true) ∨
    (s.n ≤ s.cfg.ibufCap ∧ s.inLen ≠ 0 ∧
      s.startOperation p = ({ s.accepted with phase := p, eng := Engine.start } : State).release) := by
  by_cases h1 : s.cfg.ibufCap < s.n
  · exact .inl ⟨h1, by rw [State.startOperation]; exact if_pos h1⟩
  · have h1' : ¬s.inLen.toNat > s.cfg.ibufCap := h1
    by_cases h2 : s.inLen = 0
    · refine .inr (.inl ⟨Nat.le_of_not_lt h1, h2, ?_⟩)
      rw [State.startOperation]
      exact (if_neg h1').trans (if_pos h2)
    · refine .inr (.inr ⟨Nat.le_of_not_lt h1, h2, ?_⟩)
      rw [State.startOperation]
      exact (if_neg h1').trans (if_neg h2)

/-! ## The meanings of the decoded units -/

/-- LIT always appends its byte. -/
theorem execLit_next (v : Byte) (s : State) : exec (.lit v) s = .next ((s.emit v).advance 1) := rfl

/-- ESC appends its byte, or the token is not wholly there. -/
theorem execEsc_cases (v : Byte) (s : State) :
    (s.n < s.eng.ipos + 2 ∧ exec (.esc v) s = .next (s.failOperation .truncatedStream)) ∨
    (s.eng.ipos + 2 ≤ s.n ∧ exec (.esc v) s = .next ((s.emit v).advance 2)) := by
  by_cases h : s.eng.ipos + 2 > s.n
  · exact .inl ⟨h, if_pos h⟩
  · exact .inr ⟨Nat.le_of_not_lt h, if_neg h⟩

/-- MATCH: not wholly there, a bad distance, or the copy. -/
theorem execMatch_cases (d : BitVec 16) (hn : Bool) (l : BitVec 7) (nx : Byte) (s : State) :
    (s.n < s.eng.ipos + 5 ∧ exec (.matchRef d hn l nx) s = .next (s.failOperation .truncatedStream)) ∨
    (s.eng.ipos + 5 ≤ s.n ∧ badDistance d.toNat s.eng.out.length = true ∧
      exec (.matchRef d hn l nx) s = .next ((s.advance 5).failOperation .malformedHeader)) ∨
    (s.eng.ipos + 5 ≤ s.n ∧ badDistance d.toNat s.eng.out.length = false ∧
      exec (.matchRef d hn l nx) s =
        .next
          { s with
            eng :=
              { s.eng with
                ipos := s.eng.ipos + 5
                out := matchOutput s.origN d.toNat l.toNat hn nx s.eng.out } }) := by
  by_cases h : s.eng.ipos + 5 > s.n
  · exact .inl ⟨h, if_pos h⟩
  · cases hb : badDistance d.toNat s.eng.out.length with
    | true => exact .inr (.inl ⟨Nat.le_of_not_lt h, rfl, (if_neg h).trans (if_pos hb)⟩)
    | false => exact .inr (.inr ⟨Nat.le_of_not_lt h, rfl, (if_neg h).trans (if_neg (by simp [hb]))⟩)

/-- LB: the first check that fails, or the token phase. -/
theorem execLb_cases (o : Word) (s : State) :
    (∃ kind, lz77HeaderError s.n s.cfg.obufCap o = some kind ∧ exec (.lb o) s = .next (s.failOperation kind)) ∨
    (lz77HeaderError s.n s.cfg.obufCap o = none ∧
      exec (.lb o) s =
        .next { s with eng := { s.eng with origLen := o, ipos := 4, out := [] }, phase := .ldTokens }) := by
  cases h : lz77HeaderError s.n s.cfg.obufCap o with
  | some kind => exact .inl ⟨kind, rfl, by simp [exec, execLb, h]⟩
  | none => exact .inr ⟨rfl, by simp [exec, execLb, h]⟩

/-- HB: the first check that fails, or the tree phase. -/
theorem execHb_cases (o : Word) (tree : List Byte) (pad : Byte) (s : State) :
    (∃ kind, huffHeaderError s.n s.cfg.obufCap o tree.length pad = some kind ∧
      exec (.hb o tree pad) s = .next (s.failOperation kind)) ∨
    (huffHeaderError s.n s.cfg.obufCap o tree.length pad = none ∧
      exec (.hb o tree pad) s =
        .next
          { s with
            eng :=
              { s.eng with
                origLen := o, treeLen := BitVec.ofNat 32 tree.length, pad := pad, tcur := 0, node := [], pstk := [],
                out := [] }
            phase := .hdTree }) := by
  cases h : huffHeaderError s.n s.cfg.obufCap o tree.length pad with
  | some kind => exact .inl ⟨kind, rfl, by simp [exec, execHb, h]⟩
  | none => exact .inr ⟨rfl, by simp [exec, execHb, h]⟩

/-- ST.NODE: no room, or one more node that waits for its left child. -/
theorem execStNode_cases (s : State) :
    (s.noRoomForRecord = true ∧ exec .stNode s = .next (s.failOperation .corruptTree)) ∨
    (s.noRoomForRecord = false ∧
      exec .stNode s =
        .next
          { s with
            eng :=
              { s.eng with
                tcur := s.eng.tcur + 1
                node := s.eng.node ++ [decoderNode (.internal 0 0)]
                pstk := { idx := s.eng.node.length, stage := .left } :: s.eng.pstk } }) := by
  cases h : s.noRoomForRecord with
  | true => exact .inl ⟨rfl, if_pos h⟩
  | false => exact .inr ⟨rfl, if_neg (by simp [h])⟩

/-- ST.LEAF: no room, no parent fits, or one more leaf and the subtrees it completes. -/
theorem execStLeaf_cases (v : Byte) (s : State) :
    (∃ kind, exec (.stLeaf v) s = .next (s.failOperation kind)) ∨
    (∃ p, s.noRoomForRecord = false ∧ s.eng.tcur + 9 ≤ s.tb ∧
      attach (s.tb - (s.eng.tcur + 9)) (s.eng.node ++ [decoderNode (.leaf v)]) s.eng.pstk s.eng.node.length = .ok p ∧
      exec (.stLeaf v) s =
        .next
          { s with
            eng :=
              { s.eng with
                tcur := s.eng.tcur + 9, node := p.node, pstk := p.pstk, root := p.root.getD s.eng.root } }) := by
  by_cases h : (s.noRoomForRecord || decide (s.tb < s.eng.tcur + 9)) = true
  · exact .inl ⟨.corruptTree, if_pos h⟩
  · obtain ⟨h1, h2⟩ : s.noRoomForRecord = false ∧ s.eng.tcur + 9 ≤ s.tb := by simpa using h
    cases ha : attach (s.tb - (s.eng.tcur + 9)) (s.eng.node ++ [decoderNode (.leaf v)]) s.eng.pstk
        s.eng.node.length with
    | error kind => exact .inl ⟨kind, by simp [exec, execStLeaf, h1, Nat.not_lt.2 h2, ha]⟩
    | ok p => exact .inr ⟨p, h1, h2, rfl, by simp [exec, execStLeaf, h1, Nat.not_lt.2 h2, ha]⟩

/-! ## Every meaning answers a next state -/

/-- No instruction faults and none is refused. -/
theorem exec_next (i : Instr) (s : State) : ∃ t, exec i s = .next t := by
  have whenIdle : ∀ e : State, ∃ t, s.whenIdle e = .next t := fun e => by
    unfold State.whenIdle
    split <;> exact ⟨_, rfl⟩
  cases i with
  | nop => exact whenIdle _
  | huffEnc => exact whenIdle _
  | huffDec => exact whenIdle _
  | lz77Enc => exact whenIdle _
  | lz77Dec => exact whenIdle _
  | illegal5 => exact whenIdle _
  | illegal6 => exact whenIdle _
  | illegal7 => exact whenIdle _
  | stLeaf v => rcases execStLeaf_cases v s with ⟨_, h⟩ | ⟨_, _, _, _, h⟩ <;> exact ⟨_, h⟩
  | stNode => rcases execStNode_cases s with ⟨_, h⟩ | ⟨_, h⟩ <;> exact ⟨_, h⟩
  | matchRef d hn l nx => rcases execMatch_cases d hn l nx s with ⟨_, h⟩ | ⟨_, _, h⟩ | ⟨_, _, h⟩ <;> exact ⟨_, h⟩
  | esc v => rcases execEsc_cases v s with ⟨_, h⟩ | ⟨_, h⟩ <;> exact ⟨_, h⟩
  | lit v => exact ⟨_, execLit_next v s⟩
  | hb o t p => rcases execHb_cases o t p s with ⟨_, _, h⟩ | ⟨_, h⟩ <;> exact ⟨_, h⟩
  | lb o => rcases execLb_cases o s with ⟨_, _, h⟩ | ⟨_, h⟩ <;> exact ⟨_, h⟩

/-! ## The host's reads and the engine's fetches -/

/-- A register read changes the value last read and, where it takes a free value, the counter. -/
theorem readReg_frame (r : Reg) (s : State) :
    ∃ v, readReg r s = { s with rdata := v } ∨
      (s.status.busy = true ∧ readReg r s = { s with rdata := v, fresh := s.fresh + 1 }) := by
  cases r with
  | outLen =>
    cases h : s.status.busy with
    | true => exact ⟨_, .inr ⟨rfl, by simp [readReg, h, State.read]; rfl⟩⟩
    | false => exact ⟨_, .inl (by simp [readReg, h, State.read]; rfl)⟩
  | cmd => exact ⟨_, .inl rfl⟩
  | status => exact ⟨_, .inl rfl⟩
  | inLen => exact ⟨_, .inl rfl⟩
  | unmapped => exact ⟨_, .inl rfl⟩

/-- A unit that a decoder rejects ends the operation, and nothing is run. -/
theorem fetched_error {α : Type} {s : State} {kind : ErrorKind} {r : Except Reject (Instr × α)} {e : Reject}
    (h : r = .error e) : (fetched s kind r).outcome = .next (s.failOperation kind) := by
  subst h
  rfl

/-! ## Steps -/

/-- A step with nothing pending is the engine's transition, or nothing. -/
theorem step_of_hostq_nil {s : State} (h : s.hostq = []) :
    step s = if s.status.busy then (engineMove s).outcome else .next s := by
  unfold step nextMove
  rw [h]
  dsimp only
  split <;> rfl

end Sys2Proof.Machine
end

