-- ==== Sys2Proof/Laws/Views.lean ====
section
/-! SUPPORT. The views of spec/10_state.md R35, R37, R38 against what the engine reads. -/

namespace Sys2Proof.Machine

@[simp] theorem State.ibufBytes_length (s : State) (a k : Nat) : (s.ibufBytes a k).length = k := by
  simp [State.ibufBytes]

@[simp] theorem State.input_length (s : State) : s.input.length = s.n := by simp [State.input]

/-- Element `i` of the input is the byte at address `i` (R50). -/
theorem State.input_getElem (s : State) (i : Nat) (h : i < s.input.length) : s.input[i] = s.ibufByte i := by
  simp [State.input, State.ibufBytes]

/-- The unpacker's byte holds the bit the walk reads next (R35). -/
theorem State.pbit_payloadByte (s : State) : s.pbit s.eng.bcur = msbBit s.payloadByte (s.eng.bcur % 8) := rfl

/-- `HIST` holds at most 4096 bytes (R37). -/
theorem histView_length (input : List Byte) (pos : Nat) : (histView input pos).length ≤ Config.windowSize := by
  simp only [histView, List.length_drop, List.length_take]
  omega

/-- `LA` holds at most 18 bytes (R37). -/
theorem lookahead_length (input : List Byte) (pos : Nat) :
    (lookahead input pos).length = min Config.lookaheadSize (input.length - pos) := by
  simp [lookahead]

/-- Within the window, a match copies from `DHIST` (R38). -/
theorem dhist_eq (out : List Byte) (d : Nat) (h : badDistance d out.length = false) :
    dhist out d = out[out.length - d]? := by
  simp only [badDistance, Bool.or_eq_false_iff, beq_eq_false_iff_ne, decide_eq_false_iff_not, Nat.not_lt] at h
  exact if_pos ⟨Nat.one_le_iff_ne_zero.2 h.1.1, h.1.2, h.2⟩

end Sys2Proof.Machine
end

