-- ==== Sys2Proof/Tests/Slice0.lean ====
section
/-! SUPPORT. Tests: each expected result is worked out from the spec, whose place the comment names; the vectors `V<n>` and
programs `P<n>` are those of spec/95_test_vectors.md. After them, for each statement with hypotheses, states and operands
that meet them. -/

namespace Sys2Proof.Tests

open Sys2Proof Sys2Proof.Machine

/-! ## Small states -/

/-- An idle block whose input is the given bytes. -/
def idle (bytes : List Byte) : State :=
  { State.reset with ibuf := Memory.ofBytes 0 bytes, inLen := BitVec.ofNat 32 bytes.length }

/-- An operation under way in a phase, with the given engine state. -/
def running (p : Phase) (bytes : List Byte) (eng : Engine) : State :=
  { idle bytes with status := { busy := true, done := false, empty := false, err := none }, phase := p, eng := eng }

/-- The host's next action. -/
def State.host (s : State) (a : HostAction) : State := { s with hostq := [{ delay := 0, action := a }] }

/-- Something of the next state. -/
def after {α : Type} (r : Result) (f : State → α) : Option α :=
  match r with
  | .next t => some (f t)
  | .fault _ => none
  | .refused _ => none

/-- The fault a step stops with. -/
def faultOf (r : Result) : Option Fault :=
  match r with
  | .fault f => some f
  | .next _ => none
  | .refused _ => none

/-- The instruction a move runs. -/
def runs : Move → Option Instr
  | .run i _ => some i
  | .done _ => none

/-- What the host can see of a finished command. -/
def visible (t : State) : Word × Word × Phase := (t.status.word, t.outLen, t.phase)

/-! ## Well-formed and canonical instructions: for each check a term that it refuses (R73, R74, R78, R82, R83, R85) -/

theorem test_wf_lit_at_most_FD : Instr.wf (.lit 0xFD) = true ∧ Instr.wf (.lit 0xFE) = false := by decide

theorem test_wf_tree_field_fits_its_length (tree : List Byte) (h : tree.length = 2 ^ 32) : Instr.wf (.hb 1 tree 0) = false := by
  rw [Instr.wf, h]
  decide

theorem test_canonical_match :
    Instr.canonical (.matchRef 4096 true 18 0xFF) = true ∧ Instr.canonical (.matchRef 0 true 3 0) = false ∧
    Instr.canonical (.matchRef 4097 true 3 0) = false ∧ Instr.canonical (.matchRef 1 true 2 0) = false ∧
    Instr.canonical (.matchRef 1 true 19 0) = false ∧ Instr.canonical (.matchRef 1 false 3 0x42) = false := by decide

theorem test_canonical_literals :
    Instr.canonical (.esc 0xFE) = true ∧ Instr.canonical (.esc 0x41) = false ∧ Instr.canonical (.lit 0xFE) = false := by
  decide

theorem test_canonical_headers :
    Instr.canonical (.hb 10 [0x50, 0x40] 6) = true ∧ Instr.canonical (.hb 0 [0x50, 0x40] 6) = false ∧
    Instr.canonical (.hb 10 [0x50] 6) = false ∧ Instr.canonical (.hb 10 (List.replicate 321 0) 6) = false ∧
    Instr.canonical (.hb 10 [0x50, 0x40] 8) = false ∧ Instr.canonical (.lb 0) = false := by decide +kernel

/-! ## Decoding: for every constructor a word written out from its encoding (R71, R73, R75, R80 to R84), and its encoding -/

theorem test_decode_commands :
    decodeCmdw 0x00000008 = .nop ∧ decodeCmdw 0xFFFFFFF9 = .huffEnc ∧ decodeCmdw 2 = .huffDec ∧
    decodeCmdw 0x8000000B = .lz77Enc ∧ decodeCmdw 4 = .lz77Dec ∧ decodeCmdw 5 = .illegal5 ∧ decodeCmdw 0xFE = .illegal6 ∧
    decodeCmdw 0xFFFFFFFF = .illegal7 := by decide

/-- The first 10 bits of the packed tree field `50 40` (V1), and a marker alone. -/
theorem test_decode_records :
    decodeRecord (true :: byteBits 0x41) = .ok (.stLeaf 0x41, []) ∧
    decodeRecord (unpackBits [0x50, 0x40]) = .ok (.stNode, (unpackBits [0x50, 0x40]).drop 1) ∧
    decodeRecord ((unpackBits [0x50, 0x40]).drop 1) = .ok (.stLeaf 0x41, List.replicate 6 false) ∧
    decodeRecord [true, false] = .error .truncatedLeaf ∧ decodeRecord [] = .error .endOfInput := by decide

/-- R187's third example, a `MATCH` with the flag clear (V52), and two that end too early (V63, V64). -/
theorem test_decode_tokens :
    decodeToken [0xFF, 0x10, 0x00, 0x83, 0x00, 0x7A] = .ok (.matchRef 4096 true 3 0, [0x7A]) ∧
    decodeToken [0xFF, 0x00, 0x01, 0x09, 0x00] = .ok (.matchRef 1 false 9 0, []) ∧
    decodeToken [0xFE, 0x41, 0xFE] = .ok (.esc 0x41, [0xFE]) ∧ decodeToken [0xFD] = .ok (.lit 0xFD, []) ∧
    decodeToken [0xFE] = .error .truncatedEsc ∧ decodeToken [0xFF, 0x00, 0x01, 0x04] = .error .truncatedMatch := by decide

/-- V4's Huffman buffer; V26 and V27. -/
theorem test_decode_huffman_header :
    decodeHb [0, 0, 0, 8, 0, 0, 0, 3, 0x50, 0x68, 0x40, 0, 0x55] = .ok (.hb 8 [0x50, 0x68, 0x40] 0, [0x55]) ∧
    decodeHb [0, 0, 0, 0x0A, 0, 0, 0, 2] = .error .shortHuffmanHeader ∧
    decodeHb [0, 0, 0, 0x0A, 0, 0, 0, 9, 0x50, 0x40, 6, 0, 0] = .error .treeBeyondBuffer := by decide

/-- The header of V46 (0x1003 bytes); V60. -/
theorem test_decode_lz77_header :
    decodeLb [0x00, 0x00, 0x10, 0x03, 0x0A] = .ok (.lb 4099, [0x0A]) ∧ decodeLb [0, 0, 3] = .error .shortLz77Header := by
  decide

/-- R186 and R187's examples, R130's record bits, V4's header. -/
theorem test_encode :
    encodeBytes (.matchRef 3 true 6 0x44) = [0xFF, 0x00, 0x03, 0x86, 0x44] ∧
    encodeBytes (.matchRef 4096 true 3 0) = [0xFF, 0x10, 0x00, 0x83, 0x00] ∧ encodeBytes (.esc 0xFF) = [0xFE, 0xFF] ∧
    encodeBytes (.lit 0xFD) = [0xFD] ∧
    encodeRecord (.stLeaf 0x41) = [true, false, true, false, false, false, false, false, true] ∧
    encodeRecord .stNode = [false] ∧
    encodeBytes (.hb 8 [0x50, 0x68, 0x40] 0) = [0, 0, 0, 8, 0, 0, 0, 3, 0x50, 0x68, 0x40, 0] ∧
    encodeBytes (.lb 4099) = [0x00, 0x00, 0x10, 0x03] ∧ encodeCmdw .huffDec = 2 ∧ encodeCmdw .illegal7 = 7 := by decide

/-- The opcode table's numbers: bit 0 is the lowest bit of the first unit (log 6). -/
theorem test_table_words :
    decodeTableWord 8 3 = some .lz77Enc ∧ decodeTableWord 32 0xFFFFFFF9 = some .huffEnc ∧
    decodeTableWord 8 0xFC = some (.lit 0xFC) ∧ decodeTableWord 16 0x41FE = some (.esc 0x41) ∧
    decodeTableWord 40 0x44860300FF = some (.matchRef 3 true 6 0x44) ∧ decodeTableWord 1 0 = some .stNode ∧
    decodeTableWord 9 0x105 = some (.stLeaf 0x41) ∧
    decodeTableWord 72 0x06000000000A000000 = some (.hb 10 [] 6) := by decide

/-- Placed in the block fresh from reset, the very next move runs them. -/
theorem test_placed_words_run :
    runs (nextMove (State.reset.withFetchWord 8 3)) = some .lz77Enc ∧
    runs (nextMove (State.reset.withFetchWord 8 0xFC)) = some (.lit 0xFC) ∧
    runs (nextMove (State.reset.withFetchWord 16 0x41FE)) = some (.esc 0x41) ∧
    runs (nextMove (State.reset.withFetchWord 40 0x44860300FF)) = some (.matchRef 3 true 6 0x44) ∧
    runs (nextMove (State.reset.withFetchWord 1 0)) = some .stNode ∧
    runs (nextMove (State.reset.withFetchWord 9 0x105)) = some (.stLeaf 0x41) ∧
    runs (nextMove (State.reset.withFetchWord 72 0x06000000000A000000)) = some (.hb 10 [] 6) := by decide

/-! ## Commands -/

/-- R217: after a failed `HUFF_DEC` (`STATUS = 0x12`), `NOP` leaves `STATUS = 0x02`. -/
theorem test_nop_clears_an_error :
    after (exec .nop { idle [0x41] with status := { busy := false, done := true, empty := false, err := some .malformedHeader } })
      visible = some (0x02, 0, .idle) := by decide

/-- V81: `IN_LEN` and the input bytes are unchanged. -/
theorem test_nop_keeps_the_input : after (exec .nop (idle [0x41])) (fun t => (t.inLen, t.ibuf)) = some (1, [(0, 0x41)]) := by
  decide

/-- V82. -/
theorem test_illegal_commands :
    after (exec .illegal5 (idle [])) visible = some (0x52, 0, .idle) ∧
    after (exec .illegal6 (idle [])) visible = some (0x52, 0, .idle) ∧
    after (exec .illegal7 (idle [0x41])) visible = some (0x52, 0, .idle) := by decide

/-- R24, R215: the first phases; `STATUS` shows `BUSY` alone. -/
theorem test_operations_start :
    after (exec .huffEnc (idle [0x41])) visible = some (0x01, 0, .heFreq) ∧
    after (exec .huffDec (idle [0x41])) visible = some (0x01, 0, .hdHeader) ∧
    after (exec .lz77Enc (idle [0x41])) visible = some (0x01, 0, .leHeader) ∧
    after (exec .lz77Dec (idle [0x41])) visible = some (0x01, 0, .ldHeader) := by decide

/-- V84, and V83 with `IBUF_CAP = 1`. -/
theorem test_operations_at_the_edges_of_the_input :
    after (exec .huffEnc (idle [])) visible = some (0x06, 0, .idle) ∧
    after (exec .lz77Dec (idle [])) visible = some (0x06, 0, .idle) ∧
    after (exec .huffDec { idle [1, 2] with cfg := { ibufCap := 1, obufCap := 9 } }) visible = some (0x42, 0, .idle) ∧
    after (exec .lz77Enc { idle [1, 2] with cfg := { ibufCap := 1, obufCap := 9 } }) visible = some (0x42, 0, .idle) := by
  decide

/-! ## The LZ77 decoder -/

/-- R205: `41` appends 0x41. -/
theorem test_lit :
    after (exec (.lit 0x41) (running .ldTokens [0, 0, 0, 2, 0x41] { Engine.start with ipos := 4, origLen := 2 }))
      (fun t => (t.eng.out, t.eng.ipos)) = some ([0x41], 5) := by decide

/-- R206: `FE FF` appends 0xFF. V63: without its byte, `STATUS = 0x22`. -/
theorem test_esc :
    after (exec (.esc 0xFF) (running .ldTokens [0, 0, 0, 1, 0xFE, 0xFF] { Engine.start with ipos := 4, origLen := 1 }))
      (fun t => (t.eng.out, t.eng.ipos)) = some ([0xFF], 6) ∧
    after (step (running .ldTokens [0, 0, 0, 2, 0x41, 0xFE] { Engine.start with ipos := 5, out := [0x41], origLen := 2 }))
      visible = some (0x22, 0, .idle) := by decide

/-- R203's example: an overlapping copy and its next byte. V71: the copy of 9 is cut, and `nextByte` is not appended. -/
theorem test_match_copies :
    after (exec (.matchRef 3 true 6 0x44)
      (running .ldTokens [0, 0, 0, 0x0A, 0x41, 0x42, 0x43, 0xFF, 0, 3, 0x86, 0x44]
        { Engine.start with ipos := 7, out := [0x41, 0x42, 0x43], origLen := 10 })) (fun t => t.eng.out) =
      some [0x41, 0x42, 0x43, 0x41, 0x42, 0x43, 0x41, 0x42, 0x43, 0x44] ∧
    after (exec (.matchRef 1 true 2 0x42)
      (running .ldTokens [0, 0, 0, 3, 0x41, 0xFF, 0, 1, 0x82, 0x42]
        { Engine.start with ipos := 5, out := [0x41], origLen := 3 })) (fun t => t.eng.out) = some [0x41, 0x41, 0x41] := by
  decide

/-- V65, V66, V66a: a bad distance; V64: four of five bytes. -/
theorem test_match_errors :
    after (exec (.matchRef 0 false 4 0)
      (running .ldTokens [0, 0, 0, 5, 0x41, 0xFF, 0, 0, 4, 0] { Engine.start with ipos := 5, out := [0x41], origLen := 5 }))
      visible = some (0x12, 0, .idle) ∧
    after (exec (.matchRef 2 false 4 0)
      (running .ldTokens [0, 0, 0, 5, 0x41, 0xFF, 0, 2, 4, 0] { Engine.start with ipos := 5, out := [0x41], origLen := 5 }))
      visible = some (0x12, 0, .idle) ∧
    after (exec (.matchRef 4097 false 4 0)
      (running .ldTokens [0, 0, 0, 5, 0x41, 0xFF, 0x10, 1, 4, 0] { Engine.start with ipos := 5, out := [0x41], origLen := 5 }))
      visible = some (0x12, 0, .idle) ∧
    after (step (running .ldTokens [0, 0, 0, 5, 0x41, 0xFF, 0, 1, 4] { Engine.start with ipos := 5, out := [0x41], origLen := 5 }))
      visible = some (0x22, 0, .idle) := by decide

/-- R200; V68: `OBUF_CAP = 9`. -/
theorem test_lb :
    after (step (running .ldHeader [0, 0, 0, 0x0A, 0x41] Engine.start)) (fun t => (t.phase, t.eng.origLen, t.eng.ipos)) =
      some (.ldTokens, 10, 4) ∧
    after (exec (.lb 10) { running .ldHeader [0, 0, 0, 0x0A, 0x41] Engine.start with cfg := { ibufCap := 99, obufCap := 9 } })
      visible = some (0x42, 0, .idle) := by decide

/-! ## The Huffman decoder -/

/-- V4's header; V28: `PAD = 8`. -/
theorem test_hb :
    after (step (running .hdHeader [0, 0, 0, 8, 0, 0, 0, 3, 0x50, 0x68, 0x40, 0, 0x55] Engine.start))
      (fun t => (t.phase, t.eng.origLen, t.eng.treeLen, t.eng.pad, t.eng.tcur)) = some (.hdTree, 8, 3, 0, 0) ∧
    after (step (running .hdHeader [0, 0, 0, 1, 0, 0, 0, 2, 0x50, 0x40, 8, 0] Engine.start)) visible = some (0x12, 0, .idle) := by
  decide

/-- The engine state at the first record of a tree field of `t` bytes. -/
def atTree (t : Nat) : Engine := { Engine.start with treeLen := BitVec.ofNat 32 t, origLen := 1 }

/-- R153's example, its first record; V33: no marker bit is left. -/
theorem test_st_node :
    after (step (running .hdTree [0, 0, 0, 8, 0, 0, 0, 3, 0x50, 0x68, 0x40, 0, 0x55] (atTree 3)))
      (fun t => (t.eng.tcur, t.eng.pstk, t.eng.node.length)) = some (1, [⟨0, .left⟩], 1) ∧
    after (exec .stNode (running .hdTree [] { atTree 2 with tcur := 16 })) visible = some (0x32, 0, .idle) := by decide

/-- R154's example: `50 40` is `W(L(41))`. R153's example: with 14 bits left the root waits for its right child. -/
theorem test_st_leaf :
    after (step (running .hdTree [0, 0, 0, 0x0A, 0, 0, 0, 2, 0x50, 0x40, 6, 0, 0]
      { atTree 2 with tcur := 1, node := [decoderNode (.internal 0 0)], pstk := [⟨0, .left⟩] }))
      (fun t => (t.eng.tcur, t.eng.pstk, t.eng.root, t.eng.node)) =
      some (10, [], 0, [decoderNode (.wrap 1), decoderNode (.leaf 0x41)]) ∧
    after (step (running .hdTree [0, 0, 0, 8, 0, 0, 0, 3, 0x50, 0x68, 0x40, 0, 0x55]
      { atTree 3 with tcur := 1, node := [decoderNode (.internal 0 0)], pstk := [⟨0, .left⟩] }))
      (fun t => (t.eng.tcur, t.eng.pstk)) = some (10, [⟨0, .right⟩]) := by decide

/-- V32: the root is a leaf. R155: the 512th node is refused. -/
theorem test_tree_limits :
    after (step (running .hdTree [] { atTree 2 with tcur := 9, node := [decoderNode (.leaf 0x41)] })) visible =
      some (0x32, 0, .idle) ∧
    after (exec .stNode (running .hdTree []
      { atTree 64 with tcur := 511, node := List.replicate 511 (decoderNode (.internal 0 0)), pstk := [⟨510, .left⟩] }))
      visible = some (0x32, 0, .idle) := by decide +kernel

/-- The walk of `W(L(41))` at the root with the bit 0, and with the bit 1 (V35). -/
theorem test_walk :
    after (step (running .hdWalk [0, 0, 0, 1, 0, 0, 0, 0, 7, 0x00]
      { Engine.start with origLen := 1, pad := 7, node := [decoderNode (.wrap 1), decoderNode (.leaf 0x41)] }))
      (fun t => (t.eng.out, t.eng.walk, t.eng.bcur)) = some ([0x41], 0, 1) ∧
    after (step (running .hdWalk [0, 0, 0, 1, 0, 0, 0, 0, 7, 0x80]
      { Engine.start with origLen := 1, pad := 7, node := [decoderNode (.wrap 1), decoderNode (.leaf 0x41)] }))
      visible = some (0x32, 0, .idle) := by decide

/-! ## The units -/

/-- R131's examples, by both descriptions of the packer. -/
theorem test_pack :
    pack [false, true, false, true, false, false, false, false, false, true] = ([0x50, 0x40], 6) ∧
    pack [false, true, false, true, false, true, false, true] = ([0x55], 0) ∧
    ([false, true, false, true, false, false, false, false, false, true].foldl Packer.push ⟨0, 0, []⟩).flush = [0x50, 0x40] := by
  decide

/-- R130's examples. -/
theorem test_serialize :
    pack (Tree.internal (.leaf 0x41) (.leaf 0x42)).serialize = ([0x50, 0x68, 0x40], 5) ∧
    pack (Tree.wrap (.leaf 0x41)).serialize = ([0x50, 0x40], 6) := by decide

/-- V37, V38, V39: overlap, the nearest of equals, the longest before the nearest. -/
theorem test_match_finder :
    findLongestMatch (List.replicate 10 0x41) 1 = ⟨1, 9⟩ ∧ findLongestMatch (List.replicate 10 0x41) 8 = ⟨0, 0⟩ ∧
    findLongestMatch [0x41, 0x42, 0x43, 0x78, 0x41, 0x42, 0x43, 0x79, 0x41, 0x42, 0x43] 8 = ⟨4, 3⟩ ∧
    findLongestMatch [0x41, 0x42, 0x43, 0x44, 0x41, 0x42, 0x43, 0x45, 0x41, 0x42, 0x43, 0x44] 8 = ⟨8, 4⟩ := by decide

/-- R190, V8: the last step of `41 42 43 41 42 43 00` has `has_next = 1` with a 0x00; the literal 0xFE is escaped. -/
theorem test_encoder_step :
    (encoderStep [0x41, 0x42, 0x43, 0x41, 0x42, 0x43, 0x00] 3).map (fun e => (e.token, e.next)) =
      some (.matchRef 3 true 3 0, 7) ∧
    (encoderStep [0x41, 0x42, 0x43, 0x41, 0x42, 0x43] 3).map (fun e => (e.token, e.next)) = some (.matchRef 3 false 3 0, 6) ∧
    (encoderStep [0xFE, 0x41] 0).map (fun e => (e.token, e.next)) = some (.esc 0xFE, 1) := by decide

/-- R110, merge 2: of the three entries of weight 2 the two of the least index leave, and 6 enters with weight 4. -/
theorem test_merge :
    (Forest.merge
      { node := List.replicate 6 (decoderNode (.leaf 0)), pq := [⟨2, 1⟩, ⟨2, 4⟩, ⟨5, 0⟩, ⟨2, 5⟩] }).map
      (fun f => (f.node[6]?, f.pq.map (·.idx))) = some (some ⟨.internal 1 4, 4⟩, [5, 0, 6]) := by decide

/-- R110's tree and codes. -/
theorem test_codes :
    let code := deriveCodes (.internal (.leaf 0x41)
      (.internal (.internal (.leaf 0x43) (.leaf 0x44)) (.internal (.leaf 0x42) (.leaf 0x52))))
    codeOf code 0x41 = [false] ∧ codeOf code 0x44 = [true, false, true] ∧ codeOf code 0x52 = [true, true, true] ∧
    codeOf code 0x45 = [] := by decide

/-- V13: the tree of `AAB`. -/
theorem test_build_tree : buildTree (countFrequencies [0x41, 0x41, 0x42]) = some (.internal (.leaf 0x42) (.leaf 0x41)) := by
  decide +kernel

/-- V13e, and V11. -/
theorem test_huffman_encode :
    huffEncode [0x41, 0x41, 0x42] = some [0, 0, 0, 3, 0, 0, 0, 3, 0x50, 0xA8, 0x20, 5, 0xC0] ∧
    huffEncode [0x41] = some [0, 0, 0, 1, 0, 0, 0, 2, 0x50, 0x40, 7, 0] := by decide +kernel

/-- V24a (a non-canonical buffer), V33a, V34a. -/
theorem test_huffman_decode :
    huffDecode 9 [0, 0, 0, 2, 0, 0, 0, 3, 0x50, 0x68, 0x5F, 6, 0x7F] = .ok [0x41, 0x42] ∧
    huffDecode 9 [0, 0, 0, 1, 0, 0, 0, 3, 0x50, 0x40, 0, 7, 0] = .error .corruptTree ∧
    huffDecode 99 [0, 0, 0, 0x0A, 0, 0, 0, 2, 0x50, 0x40, 7, 0, 0] = .error .truncatedStream := by decide +kernel

/-- V54, V58 and V71. -/
theorem test_lz77 :
    lz77Encode [0x41, 0x42, 0x43, 0x41, 0x42, 0x43, 0xFE, 0x41] =
      [0, 0, 0, 8, 0x41, 0x42, 0x43, 0xFF, 0, 3, 0x83, 0xFE, 0x41] ∧
    lz77Decode 99 [0, 0, 0, 0x0A, 0x41, 0x42, 0x43, 0xFF, 0, 3, 0x86, 0x44] =
      .ok [0x41, 0x42, 0x43, 0x41, 0x42, 0x43, 0x41, 0x42, 0x43, 0x44] ∧
    lz77Decode 99 [0, 0, 0, 4, 0x41, 0xFF, 0, 1, 0x82, 0x42] = .ok [0x41, 0x41, 0x41, 0x42] ∧
    lz77Decode 99 [0, 0, 0, 5, 0xFF, 0, 1, 4, 0] = .error .malformedHeader := by decide +kernel

/-! ## The phases of the encoders -/

/-- R100, the phase's one step: the byte 0x41 is counted. -/
theorem test_count_step :
    after (step (running .heFreq [0x41] Engine.start)) (fun t => (t.eng.freq[0x41], t.eng.freq[0x42], t.eng.ipos)) =
      some (1, 0, 1) := by decide

/-- R106: the one leaf is wrapped. -/
theorem test_wrap_step :
    after (step (running .heBuild [0x41] { Engine.start with node := [⟨.leaf 0x41, 1⟩], pq := [⟨1, 0⟩] }))
      (fun t => (t.phase, t.eng.root, t.eng.node)) = some (.heCodes, 1, [⟨.leaf 0x41, 1⟩, ⟨.wrap 0, 1⟩]) := by decide

/-- V22: 13 bytes are needed; and the header of V1. -/
theorem test_header_step :
    let eng : Engine := { Engine.start with node := [⟨.leaf 0x41, 10⟩, ⟨.wrap 0, 10⟩], root := 1, totalBits := 10 }
    after (step { running .heHeader (List.replicate 10 0x41) eng with cfg := { ibufCap := 99, obufCap := 12 } }) visible =
      some (0x42, 0, .idle) ∧
    after (step { running .heHeader (List.replicate 10 0x41) eng with cfg := { ibufCap := 99, obufCap := 13 } })
      (fun t => t.eng.out) = some [0, 0, 0, 0x0A, 0, 0, 0, 2, 0x50, 0x40, 6] := by decide

/-- The last step of V11: the accumulator is flushed and the result delivered. -/
theorem test_pack_step :
    after (step (running .hePack [0x41] { Engine.start with out := [7], acc := 0, accN := 1, ipos := 1 }))
      (fun t => (visible t, t.obuf)) = some ((0x02, 2, .idle), [(0, 7), (1, 0)]) := by decide

/-- R186: a literal writes no flag; R187: a match that ends the input writes 0. -/
theorem test_has_next :
    after (step (running .leScan [0x41] { Engine.start with hasNext := true })) (fun t => (t.eng.out, t.eng.hasNext)) =
      some ([0x41], true) ∧
    after (step (running .leScan [0x41, 0x41, 0x41, 0x41] { Engine.start with ipos := 1, hasNext := true }))
      (fun t => (t.eng.out, t.eng.hasNext, t.eng.bestLen)) = some ([0xFF, 0, 1, 3, 0], false, 3) := by decide

/-- V47: the header does not fit in 3 bytes; the literal does not fit behind it in 4. -/
theorem test_lz77_encoder_capacity :
    after (step { running .leHeader [0x41] Engine.start with cfg := { ibufCap := 9, obufCap := 3 } }) visible =
      some (0x42, 0, .idle) ∧
    after (step { running .leScan [0x41] { Engine.start with out := [0, 0, 0, 1] } with cfg := { ibufCap := 9, obufCap := 4 } })
      visible = some (0x42, 0, .idle) := by decide

/-! ## The host's side -/

/-- V85: writes to `STATUS` and `OUT_LEN`; R54: half a register; R26: `IN_LEN`. -/
theorem test_register_writes :
    after (step (State.host (idle []) (.writeReg .word 4 0xFFFFFFFF))) (fun t => t.status.word) = some 0 ∧
    after (step (State.host (idle []) (.writeReg .word 12 5))) (fun t => t.outLen) = some 0 ∧
    after (step (State.host (idle []) (.writeReg .half 8 5))) (fun t => t.inLen) = some 0 ∧
    after (step (State.host (idle []) (.writeReg .word 8 5))) (fun t => t.inLen) = some 5 := by decide

/-- V80, and a read at an unmapped offset. -/
theorem test_register_reads :
    after (step (State.host { idle [1, 2] with rdata := 9 } (.readReg .word 8))) (fun t => t.rdata) = some 2 ∧
    after (step (State.host { idle [1, 2] with rdata := 9 } (.readReg .word 0))) (fun t => t.rdata) = some 0 ∧
    after (step (State.host { idle [1, 2] with rdata := 9 } (.readReg .word 16))) (fun t => t.rdata) = some 0 ∧
    after (step (State.host (running .leScan [1] Engine.start) (.readReg .word 4))) (fun t => t.rdata) = some 1 := by decide

/-- R29, R50; R268: the address of an `OBUF` write while busy is recorded; the address at the capacity does not exist. -/
theorem test_buffers :
    after (step (State.host (idle [1, 2]) (.writeIbuf 1 7))) (fun t => t.ibuf) = some [(0, 1), (1, 7)] ∧
    after (step (State.host { idle [] with obuf := [(3, 0x5A)] } (.readObuf 3))) (fun t => t.rdata) = some 0x5A ∧
    after (step (State.host (running .leScan [1] Engine.start) (.writeObuf 3 7))) (fun t => (visible t, t.obufDirty)) =
      some ((0x01, 0, .leScan), [3]) ∧
    faultOf (step (State.host { idle [] with cfg := { ibufCap := 4, obufCap := 4 } } (.readObuf 4))) = some .bufferAddress ∧
    faultOf (step (State.host { idle [] with cfg := { ibufCap := 4, obufCap := 4 } } (.writeIbuf 4 7))) =
      some .bufferAddress := by decide

/-- R261: reset in mid-operation; R266: a command while busy; R267: a hazard, but not beyond `IN_LEN`. -/
theorem test_hazards :
    after (step (State.host (running .leScan [1] Engine.start) .reset)) (fun t => (visible t, t.inLen, t.ibuf)) =
      some ((0, 0, .idle), 0, []) ∧
    after (step (State.host (running .leScan [1] Engine.start) (.writeReg .word 0 0))) visible = some (0x01, 0, .leScan) ∧
    after (step (State.host (running .leScan [1] Engine.start) (.writeIbuf 0 7))) (·.hazard) = some true ∧
    after (step (State.host (running .leScan [1] Engine.start) (.writeIbuf 1 7))) (·.hazard) = some false := by decide

/-! ## Witnesses: for each statement with hypotheses, and each of its clauses, a state and operands that meet them -/

theorem witness_DecodingInvertsEncoding :
    Instr.wf (.lit 0xFD) = true ∧ Instr.wf (.hb 10 [0x50, 0x40] 255) = true ∧ Instr.wf (.matchRef 0xFFFF true 0x7F 0) = true ∧
    Instr.wf (.stLeaf 0xFF) = true ∧ Instr.wf .illegal7 = true := by decide

theorem witness_TokenFormatFollowsFirstByte : (0xFD : Byte).toNat ≤ 0xFD ∧ (0x00 : Byte).toNat ≤ 0xFD := by decide

theorem witness_ResetInputEndsAnyOperation :
    let s := State.host (running .leScan [1] Engine.start) .reset
    s.hostq = [{ delay := 0, action := .reset }] ∧ (s.status.busy = false ∨ (0 : Nat) = 0) := by decide

/-- A running `LZ77_DEC` that still wants one byte: it meets both invariants, and it steps. -/
def lz77Running : State :=
  running .ldTokens [0, 0, 0, 2, 0x41, 0x42] { Engine.start with ipos := 5, out := [0x41], origLen := 2 }

theorem witness_StepKeepsInvariant : lz77Running.Inv ∧ ∃ t, step lz77Running = .next t := by
  refine ⟨?_, _, rfl⟩
  unfold State.Inv State.statusLegal State.buffersCanonical
  decide

theorem witness_StepKeepsWithinCapacity :
    lz77Running.Inv ∧ lz77Running.withinCapacity ∧ ∃ t, step lz77Running = .next t := by
  refine ⟨witness_StepKeepsInvariant.1, ?_, _, rfl⟩
  unfold State.withinCapacity Memory.below State.outputBounded
  exact ⟨by decide, by decide, by decide, by decide, fun _ => show 2 ≤ 65536 ∧ 1 ≤ 2 by decide⟩

theorem witness_NopCompletesAtOnce : (idle [0x41]).status.busy = false := by decide

theorem witness_IllegalCommandsFail :
    (Instr.illegal6 = .illegal5 ∨ Instr.illegal6 = .illegal6 ∨ Instr.illegal6 = .illegal7) ∧ (idle []).status.busy = false := by
  decide

theorem witness_CommandsIgnoredWhileBusy :
    Instr.format .illegal7 = .cmdw ∧ (running .leScan [1] Engine.start).status.busy = true := by decide

/-- The largest input that the block of this capacity takes. -/
theorem witness_OperationsStart :
    let s := { idle [1, 2] with cfg := { ibufCap := 2, obufCap := 1 } }
    s.status.busy = false ∧ 0 < s.n ∧ s.n ≤ s.cfg.ibufCap := by decide

theorem witness_EmptyInputIsIdentity : (idle []).status.busy = false ∧ (idle []).inLen = 0 := by decide

theorem witness_InputBeyondCapacityFails :
    let s := { idle [1, 2] with cfg := { ibufCap := 1, obufCap := 1 } }
    s.status.busy = false ∧ s.cfg.ibufCap < s.n := by decide

theorem witness_CommandFrame : Instr.format .nop = .cmdw ∧ ∃ t, exec .nop (idle [1]) = .next t := ⟨by decide, _, rfl⟩

theorem witness_OperationsForgetTheLast : (idle [1]).status.busy = false ∧ 0 < (idle [1]).n := by decide

theorem witness_StepRunsTheCommandWord :
    let s := State.host (idle [1]) (.writeReg .word 0 3)
    s.hostq = [{ delay := 0, action := .writeReg .word 0 3 }] ∧ (s.status.busy = false ∨ (0 : Nat) = 0) := by decide

/-- The last token of an input, in all three formats. -/
theorem witness_StepRunsTheToken (i : Instr) (h : i ∈ [Instr.lit 0x42, .esc 0x42, .matchRef 1 true 3 0xFF]) :
    let s := running .ldTokens ([0, 0, 0, 2, 0x41] ++ encodeBytes i) { Engine.start with ipos := 5, out := [0x41], origLen := 2 }
    i.format = .token ∧ i.wf = true ∧ s.engineRuns .ldTokens ∧ s.eng.out.length < s.origN ∧
      s.eng.ipos + (encodeBytes i).length ≤ s.n ∧ s.holds s.eng.ipos (encodeBytes i) := by
  unfold State.engineRuns State.holds
  revert i
  decide

/-- The leaf of V1's tree field. -/
theorem witness_StepRunsTheRecord :
    let s := running .hdTree [0, 0, 0, 0x0A, 0, 0, 0, 2, 0x50, 0x40, 6, 0, 0]
      { atTree 2 with tcur := 1, node := [decoderNode (.internal 0 0)], pstk := [⟨0, .left⟩] }
    Instr.format (.stLeaf 0x41) = .st ∧ s.engineRuns .hdTree ∧ s.treeComplete = false ∧
      s.eng.tcur + (encodeRecord (.stLeaf 0x41)).length ≤ s.tb ∧
      ((List.range (encodeRecord (.stLeaf 0x41)).length).map fun j => s.tbit (s.eng.tcur + j)) =
        encodeRecord (.stLeaf 0x41) := by
  unfold State.engineRuns
  decide

theorem witness_StepRunsTheHeader :
    let s := running .hdHeader [0, 0, 0, 0x0A, 0, 0, 0, 2, 0x50, 0x40, 6, 0, 0] Engine.start
    let r := running .ldHeader [0, 0, 0, 1, 0x41] Engine.start
    ([0x50, 0x40] : List Byte).length < 2 ^ 32 ∧ s.engineRuns .hdHeader ∧
      s.input = encodeBytes (.hb 10 [0x50, 0x40] 6) ++ [0, 0] ∧
      r.engineRuns .ldHeader ∧ r.eng.ipos = 0 ∧ r.input = encodeBytes (.lb 1) ++ [0x41] := by
  unfold State.engineRuns
  decide

/-- The eight clauses in their order, each at the last length at which the unit is missing. -/
theorem witness_MissingUnitsFail :
    let hd := running .hdHeader [0, 0, 0, 0x0A, 0, 0, 0, 2] Engine.start
    let noPad := running .hdHeader [0, 0, 0, 0x0A, 0, 0, 0, 5, 0x50, 0x40, 6, 0, 0] Engine.start
    let noMarker := running .hdTree [] { atTree 1 with tcur := 8, node := [decoderNode (.internal 0 0)], pstk := [⟨0, .left⟩] }
    let noValue := running .hdTree [0, 0, 0, 1, 0, 0, 0, 2, 0, 0xFF, 0]
      { atTree 2 with tcur := 8, node := [decoderNode (.internal 0 0)], pstk := [⟨0, .left⟩] }
    let ld := running .ldHeader [0, 0, 3] Engine.start
    let tokens := fun bytes => running .ldTokens ([0, 0, 0, 1] ++ bytes) { Engine.start with ipos := 4, origLen := 1 }
    let m := tokens [0xFF, 0, 1, 4]
    (hd.engineRuns .hdHeader ∧ hd.n < 9) ∧
    (noPad.engineRuns .hdHeader ∧ 9 ≤ noPad.n ∧ noPad.n < 9 + (be32Dec (noPad.ibufByte 4) (noPad.ibufByte 5)
      (noPad.ibufByte 6) (noPad.ibufByte 7)).toNat) ∧
    (noMarker.engineRuns .hdTree ∧ noMarker.treeComplete = false ∧ noMarker.tb ≤ noMarker.eng.tcur) ∧
    (noValue.engineRuns .hdTree ∧ noValue.treeComplete = false ∧ noValue.eng.tcur < noValue.tb ∧
      noValue.tbit noValue.eng.tcur = true ∧ noValue.tb < noValue.eng.tcur + 9) ∧
    (ld.engineRuns .ldHeader ∧ ld.eng.ipos = 0 ∧ ld.n < 4) ∧
    ((tokens []).engineRuns .ldTokens ∧ (tokens []).eng.out.length < (tokens []).origN ∧ (tokens []).n ≤ (tokens []).eng.ipos) ∧
    ((tokens [0xFE]).eng.ipos + 1 = (tokens [0xFE]).n ∧ (tokens [0xFE]).ibufByte 4 = 0xFE) ∧
    (m.eng.ipos < m.n ∧ m.n < m.eng.ipos + 5 ∧ m.ibufByte m.eng.ipos = 0xFF) := by
  unfold State.engineRuns
  decide

theorem witness_EscapeAppendsItsByte :
    let s := running .ldTokens [0, 0, 0, 1, 0xFE, 0xFF] { Engine.start with ipos := 4, origLen := 1 }
    let r := running .ldTokens [0, 0, 0, 1, 0xFE] { Engine.start with ipos := 4, origLen := 1 }
    s.eng.ipos + 2 ≤ s.n ∧ r.n < r.eng.ipos + 2 := by decide

/-- A token one byte short; the two distances that are the first bad ones of a one-byte output; the one that is good. -/
theorem witness_MatchCopiesFromTheOutput :
    let s := running .ldTokens [0, 0, 0, 5, 0x41, 0xFF, 0, 1, 4, 0] { Engine.start with ipos := 5, out := [0x41], origLen := 5 }
    let r := running .ldTokens [0, 0, 0, 5, 0x41, 0xFF, 0, 1, 4] { Engine.start with ipos := 5, out := [0x41], origLen := 5 }
    r.n < r.eng.ipos + 5 ∧ s.eng.ipos + 5 ≤ s.n ∧ (0 : BitVec 16).toNat = 0 ∧ 4096 < (4097 : BitVec 16).toNat ∧
      s.eng.out.length < (2 : BitVec 16).toNat ∧
      1 ≤ (1 : BitVec 16).toNat ∧ (1 : BitVec 16).toNat ≤ 4096 ∧ (1 : BitVec 16).toNat ≤ s.eng.out.length ∧
      s.eng.out.length ≤ s.origN := by decide

/-- The largest good distance. -/
theorem witness_MatchCopiesFromTheOutput_far :
    let s := running .ldTokens [0, 0, 0, 5, 0x41, 0xFF, 0x10, 0, 4, 0]
      { Engine.start with ipos := 5, out := List.replicate 4096 0x41, origLen := 5000 }
    s.eng.ipos + 5 ≤ s.n ∧ (4096 : BitVec 16).toNat ≤ 4096 ∧ (4096 : BitVec 16).toNat ≤ s.eng.out.length ∧
      s.eng.out.length ≤ s.origN := by
  refine ⟨by decide, by decide, ?_, ?_⟩ <;> decide +kernel

theorem witness_CopyBackRepeatsWithPeriod :
    1 ≤ 1 ∧ 1 ≤ ([0x41] : List Byte).length ∧ ([0x41] : List Byte).length ≤ 10 ∧
    ([0x41] : List Byte).length + 8 < (copyBack 1 10 9 [0x41]).length := by decide

theorem witness_Lz77HeaderIsChecked :
    let s := { idle [0, 0, 0, 9] with cfg := { ibufCap := 9, obufCap := 9 } }
    (idle [0, 0, 3]).n < 4 ∧ 4 ≤ s.n ∧ s.cfg.obufCap < (10 : Word).toNat ∧ (9 : Word).toNat ≤ s.cfg.obufCap := by decide

theorem witness_Lz77DecoderCountsExactly : lz77Decode 2 (0 :: 0 :: 0 :: 2 :: [0x41, 0x42, 0x43]) = .ok [0x41, 0x42] := by
  decide

/-- The five clauses: 8 bytes; a tree field one byte too long; `PAD` 8, and 1 with no payload; a result of 10 for a capacity
of 9; and one of 9. -/
theorem witness_HuffmanHeaderIsChecked :
    let s := { idle [0, 0, 0, 9, 0, 0, 0, 2, 0x50, 0x40, 6, 0, 0] with cfg := { ibufCap := 99, obufCap := 9 } }
    (idle [0, 0, 0, 0x0A, 0, 0, 0, 2]).n < 9 ∧ s.n < 9 + (List.replicate 5 (0 : Byte)).length ∧
    (9 + ([0x50, 0x40] : List Byte).length ≤ s.n ∧ 7 < (8 : Byte).toNat) ∧
    (9 + ([0x50, 0x40, 6, 0] : List Byte).length ≤ s.n ∧ 8 * (s.n - 9 - ([0x50, 0x40, 6, 0] : List Byte).length) < (1 : Byte).toNat) ∧
    ((7 : Byte).toNat ≤ 7 ∧ (7 : Byte).toNat ≤ 8 * (s.n - 9 - ([0x50, 0x40] : List Byte).length)) ∧
    s.cfg.obufCap < (10 : Word).toNat ∧ (9 : Word).toNat ≤ s.cfg.obufCap := by decide

theorem witness_NodeRecordAllocates :
    let s := running .hdTree [] { atTree 1 with tcur := 7, node := List.replicate 510 (decoderNode (.internal 0 0)) }
    (s.eng.tcur < s.tb ∧ s.eng.node.length ≠ 511) ∧
    ({ atTree 1 with tcur := 8 } : Engine).tcur = 8 ∧ (running .hdTree [] { atTree 1 with tcur := 8 }).tb ≤ 8 ∧
    (List.replicate 511 (decoderNode (.internal 0 0))).length = 511 := by decide +kernel

/-- Parse states for the clauses: nine bits short; nothing waits; a left child with 9 bits left, and with 8; a right child of
the root; a right child under the root, with 9 bits left and with 8. -/
theorem witness_LeafRecordAttaches :
    let at_ := fun (tcur : Nat) (node : List Node) (pstk : List ParseFrame) =>
      running .hdTree [] { atTree 4 with tcur := tcur, node := node, pstk := pstk }
    let inner := decoderNode (.internal 1 0)
    let two := at_ 14 [inner, inner, decoderNode (.leaf 0)] [⟨1, .right⟩, ⟨0, .left⟩]
    let twoLate := at_ 15 [inner, inner, decoderNode (.leaf 0)] [⟨1, .right⟩, ⟨0, .left⟩]
    ((at_ 24 [] []).tb < (at_ 24 [] []).eng.tcur + 9) ∧
    ((at_ 23 [] []).eng.tcur + 9 ≤ (at_ 23 [] []).tb ∧ (at_ 23 [] []).eng.node.length ≠ 511 ∧ (at_ 23 [] []).eng.pstk = []) ∧
    ((at_ 14 [inner] [⟨0, .left⟩]).eng.tcur + 18 ≤ (at_ 14 [inner] [⟨0, .left⟩]).tb) ∧
    ((at_ 15 [inner] [⟨0, .left⟩]).tb < (at_ 15 [inner] [⟨0, .left⟩]).eng.tcur + 18) ∧
    (shapeAt (at_ 23 [inner, decoderNode (.leaf 0)] [⟨0, .right⟩]).eng.node 0 = some (.internal 1 0)) ∧
    (two.eng.tcur + 18 ≤ two.tb ∧ shapeAt two.eng.node 1 = some (.internal 1 0)) ∧
    (twoLate.tb < twoLate.eng.tcur + 18 ∧ shapeAt twoLate.eng.node 1 = some (.internal 1 0)) ∧
    attach 0 [decoderNode (.leaf 0x41)] [] 0 = .ok ⟨[decoderNode (.leaf 0x41)], [], some 0⟩ ∧
    attach 8 (twoLate.eng.node ++ [decoderNode (.leaf 0x41)]) twoLate.eng.pstk 3 = .error .corruptTree := by decide

theorem witness_RootMustNotBeALeaf :
    let s := running .hdTree [] { atTree 2 with tcur := 9, node := [decoderNode (.leaf 0x41)] }
    let r := running .hdTree [] { atTree 2 with tcur := 10, node := [decoderNode (.wrap 1), decoderNode (.leaf 0x41)] }
    (s.engineRuns .hdTree ∧ s.treeComplete = true ∧ shapeAt s.eng.node s.eng.root = some (.leaf 0x41)) ∧
    (r.engineRuns .hdTree ∧ r.treeComplete = true ∧
      (shapeAt r.eng.node r.eng.root = some (.internal 1 0) ∨ shapeAt r.eng.node r.eng.root = some (.wrap 1))) := by
  unfold State.engineRuns
  decide

/-- A walk in `W(L(41))` with 9 real bits, 0 but the last: all bytes there; no bit left; a `1` at the root; a `0` to a leaf. -/
theorem witness_WalkFollowsOneBit :
    let at_ := fun (bcur : Nat) (out : List Byte) =>
      running .hdWalk [0, 0, 0, 2, 0, 0, 0, 0, 7, 0x00, 0x80]
        { Engine.start with
          origLen := 2, pad := 7, bcur := bcur, out := out, node := [decoderNode (.wrap 1), decoderNode (.leaf 0x41)] }
    ((at_ 0 []).engineRuns .hdWalk ∧ (at_ 0 [1, 2]).origN ≤ (at_ 0 [1, 2]).eng.out.length) ∧
    ((at_ 9 [1]).eng.out.length < (at_ 9 [1]).origN ∧ (at_ 9 [1]).nb ≤ (at_ 9 [1]).eng.bcur) ∧
    ((at_ 8 [1]).eng.bcur < (at_ 8 [1]).nb ∧ shapeAt (at_ 8 [1]).eng.node 0 = some (.wrap 1) ∧ (at_ 8 [1]).pbit 8 = true) ∧
    ((at_ 7 [1]).eng.bcur < (at_ 7 [1]).nb ∧ (at_ 7 [1]).pbit 7 = false ∧ shapeAt (at_ 7 [1]).eng.node 1 = some (.leaf 0x41)) := by
  unfold State.engineRuns
  decide

/-- The clause of an `INTERNAL` node: bit 1 of the payload `40` leads right, to another one. -/
theorem witness_WalkFollowsOneBit_internal :
    let s := running .hdWalk [0, 0, 0, 2, 0, 0, 0, 0, 0, 0x40]
      { Engine.start with origLen := 2, bcur := 1, node := [decoderNode (.internal 1 2), decoderNode (.leaf 1), decoderNode (.internal 1 1)] }
    s.engineRuns .hdWalk ∧ s.eng.out.length < s.origN ∧ s.eng.bcur < s.nb ∧
      shapeAt s.eng.node s.eng.walk = some (.internal 1 2) ∧ (2 : Nat) = (if s.pbit s.eng.bcur then 2 else 1) ∧
      shapeAt s.eng.node 2 = some (.internal 1 1) := by
  unfold State.engineRuns
  decide

theorem witness_DecodedUnitFrame :
    Instr.format (.lit 0x42) ≠ .cmdw ∧ lz77Running.status.busy = true ∧
      after (exec (.lit 0x42) lz77Running) (·.status.busy) = some true := by decide

theorem witness_FrequenciesCountTheInput : ([0x41] : List Byte) ≠ [] := by decide

/-- A heap of three, its extraction, and an entry put in. -/
theorem witness_QueueExtractsTheLeast :
    IsHeap [⟨1, 2⟩, ⟨1, 3⟩, ⟨2, 0⟩] ∧ pqExtractMin [⟨1, 2⟩, ⟨1, 3⟩, ⟨2, 0⟩] = some (⟨1, 2⟩, [⟨1, 3⟩, ⟨2, 0⟩]) := by
  refine ⟨?_, by decide⟩
  intro k x y hk hx hy
  match k, hk with
  | 1, _ => simp_all; subst hx hy; decide
  | 2, _ => simp_all; subst hx hy; decide
  | k + 3, _ => simp at hx

theorem witness_BuildTreeHasEachByteOnce :
    ([0x41] : List Byte) ≠ [] ∧ Tree.leaves (.wrap (.leaf 0x41)) = [0x41] ∧
    2 ≤ (Tree.leaves (.internal (.leaf 0x42) (.leaf 0x41))).length := by decide

theorem witness_CodesArePrefixFree :
    buildTree (countFrequencies [0x41, 0x41, 0x42]) = some (.internal (.leaf 0x42) (.leaf 0x41)) ∧
    (0x41 : Byte) ∈ ([0x41, 0x41, 0x42] : List Byte) ∧ (0x42 : Byte) ∈ ([0x41, 0x41, 0x42] : List Byte) ∧
    (0x41 : Byte) ≠ 0x42 ∧ (0x43 : Byte) ∉ ([0x41, 0x41, 0x42] : List Byte) := ⟨test_build_tree, by decide⟩

theorem witness_SerializedTreeParsesBack :
    (Tree.wrap (.leaf 0x41)).encoderMade = true ∧ (Tree.wrap (.leaf 0x41)).leaves.length ≤ 256 ∧
    (Tree.internal (.leaf 0x42) (.leaf 0x41)).encoderMade = true := by decide

/-- V37: a match, and none with two bytes left. -/
theorem witness_MatchFinderIsLongestAndNearest :
    7 < (List.replicate 10 (0x41 : Byte)).length ∧ findLongestMatch (List.replicate 10 0x41) 7 ≠ ⟨0, 0⟩ ∧
    8 < (List.replicate 10 (0x41 : Byte)).length ∧ findLongestMatch (List.replicate 10 0x41) 8 = ⟨0, 0⟩ := by decide

theorem witness_RunLengthIsTheLargest :
    0 < 1 ∧ 1 < ([0x41, 0x41, 0x42] : List Byte).length ∧
    runLength [0x41, 0x41, 0x42] 1 0 < min 18 (([0x41, 0x41, 0x42] : List Byte).length - 1) := by decide

theorem witness_EmittedTokenBytes : 1 ≤ 4096 ∧ 4096 ≤ 4096 ∧ 3 ≤ 3 ∧ 3 ≤ 18 ∧ 18 ≤ 18 := by decide

theorem witness_ExecIsTotal :
    Exec .lz77Dec 9 [0, 0, 3] = some (.error .malformedHeader) ∧ Exec .lz77Enc 5 [0x41] = some (.ok ([0, 0, 0, 1, 0x41], false)) := by
  decide

/-- The hypothesis of the four run statements. -/
theorem witness_ready : (idle [0x41, 0x42]).ready := by
  unfold State.ready
  decide

theorem witness_RoundTrips :
    ([0xFF] : List Byte) ≠ [] ∧ ([0xFF] : List Byte).length ≤ Config.maxLen ∧ ([0xFF] : List Byte).length ≤ 1 := by decide

theorem witness_RegisterAccesses :
    (State.host (idle []) (.readReg .word 12)).hostq = [{ delay := 0, action := .readReg .word 12 }] ∧
    (State.host (idle []) (.writeReg .word 8 5)).hostq = [{ delay := 0, action := .writeReg .word 8 5 }] ∧
    (State.host (idle []) (.writeReg .word 12 5)).status.busy = false := by decide

/-- `STATUS` of a busy block, whose fields are legal; and the two clauses of a busy block. -/
theorem witness_RegisterReads_busy :
    let s := State.host lz77Running (.readReg .word 4)
    s.hostq = [{ delay := 0, action := .readReg .word 4 }] ∧ s.status.busy = true ∧
      ¬(AccessSize.word = .word ∧ 4 = 12) ∧ s.statusLegal ∧
      (State.host lz77Running (.readReg .word 12)).hostq = [{ delay := 0, action := .readReg .word 12 }] := by
  unfold State.statusLegal
  decide

/-- The last address of both buffers and the first beyond, in an idle and in a busy block. -/
theorem witness_InputBufferHoldsWhatIsWritten :
    let s := { idle [1] with cfg := { ibufCap := 4, obufCap := 4 } }
    let r := { running .leScan [1] Engine.start with cfg := { ibufCap := 4, obufCap := 4 } }
    s.status.busy = false ∧ 3 < s.cfg.ibufCap ∧ s.cfg.ibufCap ≤ 4 ∧ 3 < s.cfg.obufCap ∧ s.cfg.obufCap ≤ 4 ∧
    r.status.busy = true ∧ 3 < r.cfg.obufCap ∧ r.cfg.obufCap ≤ 4 ∧
    (State.host s (.writeIbuf 3 7)).hostq = [{ delay := 0, action := .writeIbuf 3 7 }] ∧
    (State.host s (.readIbuf 3)).hostq = [{ delay := 0, action := .readIbuf 3 }] ∧
    (State.host r (.writeObuf 3 7)).hostq = [{ delay := 0, action := .writeObuf 3 7 }] ∧
    (State.host r (.readObuf 4)).hostq = [{ delay := 0, action := .readObuf 4 }] := by decide

/-- The last byte of the input, and the first beyond it. -/
theorem witness_TouchingTheInputIsAHazard :
    let s := running .leScan [1, 2] Engine.start
    s.status.busy = true ∧ 1 < s.n ∧ s.n ≤ 2 ∧ 2 < s.cfg.ibufCap ∧
    (State.host s (.writeIbuf 1 7)).hostq = [{ delay := 0, action := .writeIbuf 1 7 }] ∧
    (State.host s (.writeReg .word 8 7)).hostq = [{ delay := 0, action := .writeReg .word 8 7 }] := by decide

theorem witness_HazardEndsSoundly :
    let s := { running .leScan [1, 2] Engine.start with hazard := true }
    s.status.busy = true ∧ s.hazard = true ∧ s.hostq = [] ∧ s.cfg.wf = true := by decide

theorem witness_DeliveredBytes :
    let s := { running .ldTokens [1] Engine.start with obufDirty := [1] }
    (0 < ([7, 8] : List Byte).length ∧ 0 ∉ s.obufDirty) ∧ ([7, 8] : List Byte).length ≤ 2 ∧ 1 ∈ s.obufDirty := by decide

theorem witness_IdleStaysAndWaitingLetsRun :
    let s := State.host (running .leScan [1] Engine.start) .waitDone
    let r := State.host { idle [] with status := { busy := false, done := true, empty := false, err := none } } .waitDone
    ((idle []).status.busy = false ∧ (idle []).hostq = []) ∧
    (s.hostq = [{ delay := 0, action := .waitDone }] ∧ s.status.busy = true ∧ s.status.done = false) ∧
    r.status.done = true := by decide

end Sys2Proof.Tests
end

section
/-! PROOFS. The decoders of the byte formats undo the encoder (R73, R80 to R84). -/

namespace Sys2Proof

theorem selectRow_lit (v : Byte) (h : v.toNat ≤ 0xFD) : selectRow tokenRows v = some .lit := by
  revert v
  decide

/-- The two fields of the length byte of a `MATCH` (R84). -/
theorem matchOfBytes_encodeBytes (d : BitVec 16) (h : Bool) (l : BitVec 7) (nx : Byte) :
    matchOfBytes (d.extractLsb' 8 8) (d.extractLsb' 0 8) (BitVec.ofBool h ++ l : BitVec 8) nx = .matchRef d h l nx := by
  have hd : be16Dec (d.extractLsb' 8 8) (d.extractLsb' 0 8) = d := by
    unfold be16Dec
    ext i hi
    simp only [BitVec.getElem_append, BitVec.getElem_extractLsb']
    split
    · rw [Nat.zero_add, BitVec.getLsbD_eq_getElem hi]
    · rw [Nat.add_sub_cancel' (by omega), BitVec.getLsbD_eq_getElem hi]
  have hh : (BitVec.ofBool h ++ l : BitVec 8).getLsbD 7 = h := by
    rw [BitVec.getLsbD_append]
    simp
  have hl : (BitVec.ofBool h ++ l : BitVec 8).setWidth 7 = l := BitVec.setWidth_append_eq_right
  rw [matchOfBytes, hd, hh, hl]

/-- A token followed by anything is read back, and what followed is left (R81 to R84). -/
theorem decodeToken_encodeBytes (i : Instr) (hf : i.format = .token) (hwf : i.wf = true) (rest : List Byte) :
    decodeToken (encodeBytes i ++ rest) = .ok (i, rest) := by
  cases i with
  | lit v =>
    have hrow := selectRow_lit v (by simpa [Instr.wf] using hwf)
    simp only [encodeBytes, List.cons_append, List.nil_append, decodeToken, hrow]
  | esc v => rfl
  | matchRef d h l nx => exact congrArg (fun i => Except.ok (i, rest)) (matchOfBytes_encodeBytes d h l nx)
  | _ => cases hf

/-- An LZ77 header followed by anything is read back (R80). -/
theorem decodeLb_encodeBytes (n : Word) (rest : List Byte) : decodeLb (be32 n ++ rest) = .ok (.lb n, rest) := by
  simp [be32, decodeLb, be32Dec_be32]

/-- A Huffman header followed by anything is read back (R73). -/
theorem decodeHb_encodeBytes (o : Word) (tree : List Byte) (pad : Byte) (hT : tree.length < 2 ^ 32)
    (payload : List Byte) :
    decodeHb (encodeBytes (.hb o tree pad) ++ payload) = .ok (.hb o tree pad, payload) := by
  have hlen : ¬ (encodeBytes (.hb o tree pad) ++ payload).length < 9 := by
    simp only [encodeBytes, List.length_append, be32_length, List.length_singleton]
    omega
  have hT' : (BitVec.ofNat 32 tree.length).toNat = tree.length := by simpa using Nat.mod_eq_of_lt hT
  unfold decodeHb
  rw [if_neg hlen]
  simp only [encodeBytes, be32, List.append_assoc, List.cons_append, List.nil_append, be32Dec_be32, hT',
    List.drop_left, List.take_left]

end Sys2Proof
end

section
/-! PROOFS. O52: the LZ77 decoder undoes the LZ77 encoder. A match copies what the finder agreed on (R173, R203), so each
token takes the output from one length of the input to the next one at which the encoder goes on (R188). -/

namespace Sys2Proof.Machine

/-! ## The match finder -/

theorem commonRun_le_length_right (as bs : List Byte) : commonRun as bs ≤ bs.length := by
  fun_induction commonRun as bs with
  | case1 as b bs ih => exact Nat.succ_le_succ ih
  | _ => exact Nat.zero_le _

/-- The common run is a run: below it the two sequences agree (R172). -/
theorem getElem?_eq_of_lt_commonRun {as bs : List Byte} {k : Nat} (h : k < commonRun as bs) : as[k]? = bs[k]? := by
  fun_induction commonRun as bs generalizing k with
  | case1 as b bs ih =>
    cases k with
    | zero => rfl
    | succ k => exact ih (Nat.lt_of_succ_lt_succ h)
  | _ => cases h

/-- What the scan answers is what it started from, or a candidate with a run of at least 3 (R173, R174). -/
theorem scanCandidates_cases (la src : List Byte) (D : Nat) (best : Best) :
    scanCandidates la src D best = best ∨
      ∃ d, 1 ≤ d ∧ d ≤ D ∧ scanCandidates la src D best = { dist := d, len := commonRun (src.drop (D - d)) la } := by
  induction D generalizing src best with
  | zero => exact .inl rfl
  | succ D ih =>
    rw [scanCandidates]
    rcases ih (src.drop 1) (best.offer (D + 1) (commonRun src la)) with h | ⟨d, h1, hD, h⟩
    · rw [h, Best.offer]
      split
      · exact .inr ⟨D + 1, by omega, by omega, by simp⟩
      · exact .inl rfl
    · refine .inr ⟨d, h1, by omega, ?_⟩
      rw [h, List.drop_drop, show 1 + (D - d) = D + 1 - d by omega]

/-- A match at `pos` that a decoder can follow: it lies in the window and in the input, and the input agrees with itself
at its distance (R173, R176). -/
structure Best.IsMatchAt (m : Best) (input : List Byte) (pos : Nat) : Prop where
  one_le_dist : 1 ≤ m.dist
  dist_le : m.dist ≤ pos
  dist_le_window : m.dist ≤ Config.windowSize
  len_le : m.len ≤ Config.lookaheadSize
  end_le : pos + m.len ≤ input.length
  agrees : ∀ k < m.len, input[pos - m.dist + k]? = input[pos + k]?

/-- What the match finder answers, where it does not answer the no-match value, is a match. -/
theorem findLongestMatch_isMatchAt {input : List Byte} {pos : Nat} (hpos : pos ≤ input.length)
    (hlen : Config.minMatchLength ≤ (findLongestMatch input pos).len) :
    (findLongestMatch input pos).IsMatchAt input pos := by
  rcases scanCandidates_cases (lookahead input pos) (input.drop (pos - farthest pos)) (farthest pos) ⟨0, 0⟩ with
    h | ⟨d, h1, hd, h⟩
  · rw [findLongestMatch, h] at hlen
    exact absurd hlen (by decide)
  · have hfar : farthest pos ≤ pos ∧ farthest pos ≤ Config.windowSize := ⟨Nat.min_le_left .., Nat.min_le_right ..⟩
    rw [List.drop_drop, show pos - farthest pos + (farthest pos - d) = pos - d by omega] at h
    have hrun := commonRun_le_length_right (input.drop (pos - d)) (lookahead input pos)
    rw [lookahead_length, Nat.le_min] at hrun
    rw [findLongestMatch, h]
    refine ⟨h1, hd.trans hfar.1, hd.trans hfar.2, hrun.1, Nat.add_le_of_le_sub' hpos hrun.2, fun k hk => ?_⟩
    have hk' := getElem?_eq_of_lt_commonRun hk
    rwa [lookahead, List.getElem?_take_of_lt (hk.trans_le hrun.1), List.getElem?_drop, List.getElem?_drop] at hk'

/-! ## The copy -/

/-- Where the input agrees with itself `d` places back, copying from what is decoded of it gives more of it (R63). -/
theorem copyBack_take {input : List Byte} {d : Nat} (hd : 1 ≤ d) (l pos : Nat) (hdpos : d ≤ pos)
    (hl : pos + l ≤ input.length) (hagree : ∀ k < l, input[pos - d + k]? = input[pos + k]?) :
    copyBack d input.length l (input.take pos) = input.take (pos + l) := by
  induction l generalizing pos with
  | zero => rfl
  | succ l ih =>
    have hlen : (input.take pos).length = pos := List.length_take_of_le (by omega)
    have hread : (input.take pos)[pos - d]? = some (input[pos]'(by omega)) := by
      rw [List.getElem?_take_of_lt (by omega), ← List.getElem?_eq_getElem (by omega)]
      exact hagree 0 (by omega)
    rw [copyBack, hlen, if_neg (by omega)]
    simp only [hread, List.take_append_getElem]
    rw [ih (pos + 1) (by omega) (by omega) fun k hk => ?_, show pos + 1 + l = pos + (l + 1) by omega]
    have hk' := hagree (k + 1) (by omega)
    rwa [show pos - d + (k + 1) = pos + 1 - d + k by omega, show pos + (k + 1) = pos + 1 + k by omega] at hk'

/-! ## One token -/

/-- What one token must do for the round trip: it is a token that some bytes spell, and it takes the decoder from `pos`
bytes of the input to the first `next`. -/
def TokenCovers (input : List Byte) (pos : Nat) (token : Instr) (next : Nat) : Prop :=
  token.format = .token ∧ token.wf = true ∧ pos < next ∧ next ≤ input.length ∧
    tokenOutput input.length (input.take pos) token = .ok (input.take next)

/-- A literal, escaped or not, appends the byte at `pos` (R186, R205, R206). -/
theorem tokenCovers_literalToken {input : List Byte} {pos : Nat} (hpos : pos < input.length) :
    TokenCovers input pos (literalToken input[pos]) (pos + 1) := by
  have hbyte : ∀ b : Byte, ¬ (b = Config.matchMark ∨ b = Config.escMark) → b.toNat ≤ 0xFD := by decide
  rw [literalToken]
  split
  · exact ⟨rfl, rfl, by omega, hpos, by rw [tokenOutput, List.take_append_getElem]⟩
  · next h =>
    exact ⟨rfl, by simpa [Instr.wf] using hbyte _ h, by omega, hpos, by rw [tokenOutput, List.take_append_getElem]⟩

/-- A match token with the byte after it, if there is one, appends the matched bytes and that byte (R187, R203). -/
theorem tokenCovers_matchToken {input : List Byte} {pos : Nat} {m : Best} (hm : m.IsMatchAt input pos)
    (hlen : Config.minMatchLength ≤ m.len) (next : Option Byte)
    (hnext : ∀ b, next = some b → input[pos + m.len]? = some b) :
    TokenCovers input pos (matchToken m next) (pos + m.len + next.toList.length) := by
  obtain ⟨hd1, hdpos, hdw, hll, hend, hagree⟩ := hm
  have hlen : 3 ≤ m.len := hlen
  have hd : (BitVec.ofNat 16 m.dist).toNat = m.dist := Nat.mod_eq_of_lt (hdw.trans_lt (by decide : 4096 < 2 ^ 16))
  have hl : (BitVec.ofNat 7 m.len).toNat = m.len := Nat.mod_eq_of_lt (hll.trans_lt (by decide : 18 < 2 ^ 7))
  have hgood : badDistance m.dist (input.take pos).length = false := by
    rw [List.length_take_of_le (by omega)]
    simp only [badDistance, Bool.or_eq_false_iff, beq_eq_false_iff_ne, decide_eq_false_iff_not]
    omega
  have hcopy := copyBack_take hd1 m.len pos hdpos hend hagree
  cases next with
  | none =>
    refine ⟨rfl, rfl, by omega, hend, ?_⟩
    simp only [matchToken, tokenOutput, matchOutput, hd, hl, hgood, hcopy, Option.isSome_none, Bool.false_and,
      Bool.false_eq_true, if_false, Option.toList_none, List.length_nil, Nat.add_zero]
  | some b =>
    obtain ⟨hlt, rfl⟩ := List.getElem?_eq_some_iff.1 (hnext b rfl)
    have hroom : (input.take (pos + m.len)).length < input.length := by rwa [List.length_take_of_le hend]
    refine ⟨rfl, rfl, by omega, hlt, ?_⟩
    simp only [matchToken, tokenOutput, matchOutput, hd, hl, hgood, hcopy, Option.isSome_some, Option.getD_some,
      Bool.true_and, hroom, decide_true, if_true, Option.toList_some, List.length_singleton,
      List.take_append_getElem, Bool.false_eq_true, if_false]

/-- Every step of the encoder before the end of the input writes a token that covers what the step passes (R188). -/
theorem encoderStep_covers {input : List Byte} {pos : Nat} (hpos : pos < input.length) :
    ∃ e, encoderStep input pos = some e ∧ TokenCovers input pos e.token e.next := by
  simp only [encoderStep, List.getElem?_eq_getElem hpos]
  split
  · next hlen =>
    have hm := findLongestMatch_isMatchAt hpos.le hlen
    split
    · next hnext =>
      have hlt : pos + (findLongestMatch input pos).len < input.length := by simpa [hasNextFlag] using hnext
      refine ⟨_, rfl, ?_⟩
      rw [List.getElem?_eq_getElem hlt]
      exact tokenCovers_matchToken hm hlen _ fun b hb => (List.getElem?_eq_getElem hlt).trans hb
    · exact ⟨_, rfl, tokenCovers_matchToken hm hlen none nofun⟩
  · exact ⟨_, rfl, tokenCovers_literalToken hpos⟩

/-! ## The token stream -/

/-- A token takes at least one byte, which the decoder's fuel counts on. -/
theorem encodeBytes_token_ne_nil {i : Instr} (hf : i.format = .token) : encodeBytes i ≠ [] := by
  cases i with
  | lit | esc | matchRef => exact List.cons_ne_nil _ _
  | _ => cases hf

theorem lz77Loop_of_le {N : Nat} (fuel : Nat) (rest : List Byte) {out : List Byte} (h : N ≤ out.length) :
    lz77Loop N fuel rest out = .ok out := by
  unfold lz77Loop
  exact if_pos h

/-- With the whole input decoded, the loop ends with it (R204). -/
theorem lz77Loop_take_of_le (fuel : Nat) (rest : List Byte) {input : List Byte} {pos : Nat} (h : input.length ≤ pos) :
    lz77Loop input.length fuel rest (input.take pos) = .ok input := by
  rw [List.take_of_length_le h, lz77Loop_of_le _ _ le_rfl]

/-- Once round the loop of R204. -/
theorem lz77Loop_token {N fuel : Nat} {i : Instr} {rest out out' : List Byte} (hlt : out.length < N)
    (hf : i.format = .token) (hwf : i.wf = true) (hout : tokenOutput N out i = .ok out') :
    lz77Loop N (fuel + 1) (encodeBytes i ++ rest) out = lz77Loop N fuel rest out' := by
  rw [lz77Loop, if_neg (by omega)]
  simp only [decodeToken_encodeBytes i hf hwf rest, hout]

/-- From the first `pos` bytes of an input on, the decoder reads the rest of it from the encoder's tokens. -/
theorem lz77Loop_lz77Tokens (input : List Byte) (fuel pos : Nat) (hpos : pos ≤ input.length)
    (hfuel : input.length ≤ pos + fuel) (fuel' : Nat)
    (hfuel' : ((lz77Tokens input fuel pos).flatMap encodeBytes).length ≤ fuel') :
    lz77Loop input.length fuel' ((lz77Tokens input fuel pos).flatMap encodeBytes) (input.take pos) = .ok input := by
  induction fuel generalizing pos fuel' with
  | zero => exact lz77Loop_take_of_le _ _ (by omega)
  | succ fuel ih =>
    rcases hpos.eq_or_lt with h | hlt
    · exact lz77Loop_take_of_le _ _ h.ge
    · obtain ⟨e, he, hf, hwf, hnext, hle, hout⟩ := encoderStep_covers hlt
      simp only [lz77Tokens, he, List.flatMap_cons, List.length_append] at hfuel' ⊢
      have hpositive := List.length_pos_iff.2 (encodeBytes_token_ne_nil hf)
      obtain ⟨fuel', rfl⟩ : ∃ k, fuel' = k + 1 := ⟨fuel' - 1, by omega⟩
      rw [lz77Loop_token (by rwa [List.length_take_of_le hpos]) hf hwf hout]
      exact ih e.next hle (by omega) fuel' (by omega)

/-- The 32-bit length of an input that a header can count (R7). -/
theorem toNat_ofNat_length {input : List Byte} (h : input.length ≤ Config.maxLen) :
    (BitVec.ofNat 32 input.length).toNat = input.length :=
  Nat.mod_eq_of_lt (h.trans_lt (by decide : 2 ^ 32 - 1 < 2 ^ 32))

/-- Settles O52: the header gives back the length, and the tokens, read one by one, give back the input. -/
theorem lz77RoundTrip : Obligations.Lz77RoundTrip := by
  intro x cap _ hmax hcap
  rw [lz77Decode, lz77Encode, decodeLb_encodeBytes]
  simp only [toNat_ofNat_length hmax, gt_iff_lt, Nat.not_lt.2 hcap, if_false]
  exact lz77Loop_lz77Tokens x x.length 0 (by omega) (by omega) _ le_rfl

end Sys2Proof.Machine
end

section
/-! PROOFS. The bit packer: unpacking what is packed gives the bits and the padding (R131). -/

namespace Sys2Proof

theorem byteBits_bitsByte {bs : List Bool} (h : bs.length = 8) : byteBits (bitsByte bs) = bs := by
  have hall : ∀ a b c d e f g h : Bool, byteBits (bitsByte [a, b, c, d, e, f, g, h]) = [a, b, c, d, e, f, g, h] := by
    decide
  match bs, h with
  | [a, b, c, d, e, f, g, h], _ => exact hall a b c d e f g h

/-- The groups of eight that `Pack` cuts a bit string into make up the string. -/
theorem flatMap_groups (n : Nat) (l : List Bool) (h : l.length = 8 * n) :
    ((List.range n).flatMap fun k => (l.drop (8 * k)).take 8) = l := by
  induction n generalizing l with
  | zero => exact (List.length_eq_zero_iff.1 h).symm
  | succ n ih =>
    have hnext : ∀ k, (l.drop (8 * (k + 1))).take 8 = ((l.drop 8).drop (8 * k)).take 8 := fun k => by
      rw [List.drop_drop, show 8 * (k + 1) = 8 + 8 * k by omega]
    have hrest := ih (l.drop 8) (by rw [List.length_drop]; omega)
    rw [List.range_succ_eq_map, List.flatMap_cons, List.flatMap_map]
    simp only [Nat.succ_eq_add_one, hnext, hrest, Nat.mul_zero, List.drop_zero, List.take_append_drop]

/-- Unpacking gives the bits and the padding zeros (R131). -/
theorem unpackBits_pack (bs : List Bool) :
    unpackBits (pack bs).1 = bs ++ List.replicate (padCount bs.length) false := by
  generalize hl : bs ++ List.replicate (padCount bs.length) false = l
  have hlen : l.length = 8 * (l.length / 8) := by
    have h8 := padCount_spec bs.length
    rw [← hl, List.length_append, List.length_replicate]
    omega
  have hbyte : ∀ k ∈ List.range (l.length / 8),
      byteBits (bitsByte ((l.drop (8 * k)).take 8)) = (l.drop (8 * k)).take 8 := fun k hk => by
    have hk := List.mem_range.1 hk
    exact byteBits_bitsByte (by rw [List.length_take, List.length_drop]; omega)
  calc unpackBits (pack bs).1
    _ = (List.range (l.length / 8)).flatMap fun k => byteBits (bitsByte ((l.drop (8 * k)).take 8)) := by
      simp only [unpackBits, pack, hl, List.flatMap_map]
    _ = (List.range (l.length / 8)).flatMap fun k => (l.drop (8 * k)).take 8 := List.flatMap_congr hbyte
    _ = l := flatMap_groups _ _ hlen

/-- The real bits of a packed field: all but the padding (R151). -/
theorem take_unpackBits_pack (bs : List Bool) :
    (unpackBits (pack bs).1).take (8 * (pack bs).1.length - padCount bs.length) = bs := by
  have hlen := unpackBits_length (pack bs).1
  rw [unpackBits_pack, List.length_append, List.length_replicate] at hlen
  rw [unpackBits_pack, ← hlen, Nat.add_sub_cancel, List.take_left]

end Sys2Proof
end

section
/-! PROOFS. The tree field: what the serializer writes parses back (R75, R130, R153, R154). -/

namespace Sys2Proof.Machine

theorem Tree.leaves_length_pos (t : Tree) : 1 ≤ t.leaves.length := by
  induction t with
  | leaf b => exact le_rfl
  | internal l r ihl ihr => rw [Tree.leaves, List.length_append]; omega
  | wrap l ih => exact ih

/-- A plain tree of `m` leaves takes `9 m` bits for the leaves and one for each of the `m - 1` inner nodes (R76). -/
theorem Tree.serialize_length_of_plain {t : Tree} (h : t.plain = true) :
    t.serialize.length + 1 = 10 * t.leaves.length := by
  induction t with
  | leaf b => rfl
  | internal l r ihl ihr =>
    rw [Tree.plain, Bool.and_eq_true] at h
    have hl := ihl h.1
    have hr := ihr h.2
    simp only [Tree.serialize, Tree.leaves, List.length_cons, List.length_append]
    omega
  | wrap l => cases h

/-- A leaf record, with its byte value wholly there (R153). -/
theorem parseNode_leaf (fuel : Nat) (top : Bool) (b : Byte) (rest : List Bool) {k : Nat} (hk : k ≠ Config.nodeCap) :
    parseNode (fuel + 1) top { rest := (Tree.leaf b).serialize ++ rest, nodes := k } =
      .ok (.leaf b, { rest := rest, nodes := k + 1 }) := by
  have htake : (byteBits b ++ rest).take 8 = byteBits b := List.take_left' (byteBits_length b)
  have hdrop : (byteBits b ++ rest).drop 8 = rest := List.drop_left' (byteBits_length b)
  have hlen : ¬ (byteBits b ++ rest).length < 8 := by rw [List.length_append, byteBits_length]; omega
  simp only [Tree.serialize, List.cons_append, parseNode, hk, hlen, htake, hdrop, bitsByte_byteBits, if_true, if_false]

/-- An inner record and the parses of its two children; below the root, or with at least 9 bits left after the first
(R153, R154). -/
theorem parseNode_internal {fuel k : Nat} {top : Bool} {l r : Tree} {rest : List Bool} {c1 c2 : Cursor}
    (hk : k ≠ Config.nodeCap)
    (hl : parseNode fuel false { rest := rest, nodes := k + 1 } = .ok (l, c1))
    (htop : top = true → 9 ≤ c1.rest.length) (hr : parseNode fuel false c1 = .ok (r, c2)) :
    parseNode (fuel + 1) top { rest := false :: rest, nodes := k } = .ok (.internal l r, c2) := by
  have hwrap : (top && decide (c1.rest.length < 9)) = false := by
    cases top with
    | false => rfl
    | true => simpa using htop rfl
  simp only [parseNode, hk, hl, hwrap, hr, if_false, Bool.false_eq_true]

/-- The root's record and the parse of its first child, a leaf, with fewer than 9 bits left after it (R154). -/
theorem parseNode_wrap {fuel k : Nat} {b : Byte} {rest : List Bool} {c : Cursor} (hk : k ≠ Config.nodeCap)
    (hl : parseNode fuel false { rest := rest, nodes := k + 1 } = .ok (.leaf b, c)) (hshort : c.rest.length < 9) :
    parseNode (fuel + 1) true { rest := false :: rest, nodes := k } = .ok (.wrap (.leaf b), c) := by
  simp only [parseNode, hk, hl, hshort, decide_true, Bool.and_self, if_true, if_false, Bool.false_eq_true]

/-- A plain tree below the root parses back, with anything after it, while its nodes fit the memory of 511 (R153). -/
theorem parseNode_serialize_of_plain {t : Tree} (h : t.plain = true) (fuel k : Nat) (rest : List Bool)
    (hfuel : 2 * t.leaves.length ≤ fuel + 1) (hk : k + 2 * t.leaves.length ≤ Config.nodeCap + 1) :
    parseNode fuel false { rest := t.serialize ++ rest, nodes := k } =
      .ok (t, { rest := rest, nodes := k + 2 * t.leaves.length - 1 }) := by
  obtain ⟨fuel, rfl⟩ : ∃ n, fuel = n + 1 := ⟨fuel - 1, by have := t.leaves_length_pos; omega⟩
  induction t generalizing fuel k rest with
  | leaf b => exact parseNode_leaf fuel false b rest (by simp only [Tree.leaves, List.length_singleton] at hk; omega)
  | internal l r ihl ihr =>
    rw [Tree.plain, Bool.and_eq_true] at h
    have hlpos := l.leaves_length_pos
    have hrpos := r.leaves_length_pos
    simp only [Tree.leaves, List.length_append] at hfuel hk ⊢
    obtain ⟨fuel, rfl⟩ : ∃ n, fuel = n + 1 := ⟨fuel - 1, by omega⟩
    have hl := ihl h.1 (k + 1) (r.serialize ++ rest) (by omega) fuel (by omega)
    have hr := ihr h.2 (k + 1 + 2 * l.leaves.length - 1) rest (by omega) fuel (by omega)
    rw [show k + 1 + 2 * l.leaves.length - 1 + 2 * r.leaves.length - 1 =
      k + 2 * (l.leaves.length + r.leaves.length) - 1 by omega] at hr
    simpa only [Tree.serialize, List.cons_append, List.append_assoc] using
      parseNode_internal (top := false) (by omega) hl nofun hr
  | wrap l => cases h

/-- Every tree an encoder makes parses back from its bits and up to 7 bits of padding: fewer than 9 bits are left after the
first child of the root exactly where the root is a `WRAP` (R153, R154, R155). -/
theorem parseTree_serialize {t : Tree} (h : t.encoderMade = true) (hleaves : t.leaves.length ≤ 256)
    {padding : List Bool} (hpad : padding.length < 8) : parseTree (t.serialize ++ padding) = .ok t := by
  match t, h with
  | .internal l r, h =>
    rw [Tree.encoderMade, Bool.and_eq_true] at h
    have hlpos := l.leaves_length_pos
    have hrpos := r.leaves_length_pos
    have hrlen := Tree.serialize_length_of_plain h.2
    have hcap : Config.nodeCap = 511 := rfl
    rw [Tree.leaves, List.length_append] at hleaves
    have hl := parseNode_serialize_of_plain h.1 Config.nodeCap 1 (r.serialize ++ padding) (by omega) (by omega)
    have hr := parseNode_serialize_of_plain h.2 Config.nodeCap (1 + 2 * l.leaves.length - 1) padding (by omega)
      (by omega)
    have hnode := parseNode_internal (k := 0) (top := true) (by decide) hl
      (fun _ => by rw [List.length_append]; omega) hr
    simp only [parseTree, Tree.serialize, List.cons_append, List.append_assoc, hnode]
  | .wrap (.leaf b), _ =>
    have hleaf := parseNode_leaf 510 false b padding (k := 1) (by decide)
    have hnode := parseNode_wrap (k := 0) (by decide) hleaf (hpad.trans (by decide))
    rw [parseTree, Tree.serialize, List.cons_append, show Config.nodeCap = 510 + 1 from rfl, hnode]

/-- The tree field, padded to bytes, parses back to the tree (R76, R153). -/
theorem parseTree_unpackBits_pack {t : Tree} (h : t.encoderMade = true) (hleaves : t.leaves.length ≤ 256) :
    parseTree (unpackBits (pack t.serialize).1) = .ok t := by
  rw [unpackBits_pack]
  exact parseTree_serialize h hleaves (by rw [List.length_replicate]; exact padCount_lt _)

/-- The tree field of an encoder is at most 320 bytes long (R74, R76). -/
theorem pack_serialize_length_le {t : Tree} (h : t.encoderMade = true) (hleaves : t.leaves.length ≤ 256) :
    (pack t.serialize).1.length ≤ 320 := by
  rw [pack_length]
  match t, h with
  | .internal l r, h =>
    have hlen := Tree.serialize_length_of_plain (t := .internal l r) h
    omega
  | .wrap (.leaf b), _ =>
    have hlen : (Tree.wrap (.leaf b)).serialize.length = 10 := rfl
    omega

end Sys2Proof.Machine
end

section
/-! PROOFS. The codes and the walk: a code is the path to its leaf, and the walk along it emits the leaf's byte (R109,
R158). -/

namespace Sys2Proof.Machine

/-- Where one bit leads from a node (R158). -/
def Tree.child : Tree → Bool → Option Tree
  | .internal l _, false => some l
  | .internal _ r, true => some r
  | .wrap l, false => some l
  | .wrap _, true => none
  | .leaf _, _ => none

/-- Where a path of bits leads from a node. -/
def Tree.follow : Tree → List Bool → Option Tree
  | t, [] => some t
  | t, bit :: path => (t.child bit).bind fun c => c.follow path

theorem codeOf_set (code : Vector (List Bool) 256) (a b : Byte) (path : List Bool) :
    codeOf (code.set a.toNat path) b = if a = b then path else codeOf code b := by
  simp only [codeOf, Vector.getElem_set, BitVec.toNat_inj]

/-- `Walk` of R109 writes the codes of its own leaves only. -/
theorem codeOf_assignCodes_of_notMem {t : Tree} {b : Byte} (h : b ∉ t.leaves) (path : List Bool)
    (code : Vector (List Bool) 256) : codeOf (t.assignCodes path code) b = codeOf code b := by
  induction t generalizing path code with
  | leaf a => rw [Tree.assignCodes, codeOf_set, if_neg fun hab => h (List.mem_singleton.2 hab.symm)]
  | internal l r ihl ihr =>
    rw [Tree.leaves, List.mem_append, not_or] at h
    rw [Tree.assignCodes, ihr h.2, ihl h.1]
  | wrap l ih => exact ih h _ _

/-- The code of a byte is the path to its leaf (R109). -/
theorem exists_codeOf_assignCodes {t : Tree} (hnodup : t.leaves.Nodup) {b : Byte} (h : b ∈ t.leaves) (path : List Bool)
    (code : Vector (List Bool) 256) :
    ∃ down, codeOf (t.assignCodes path code) b = path ++ down ∧ t.follow down = some (.leaf b) := by
  induction t generalizing path code with
  | leaf a =>
    obtain rfl := List.mem_singleton.1 h
    exact ⟨[], by rw [Tree.assignCodes, codeOf_set, if_pos rfl, List.append_nil], rfl⟩
  | internal l r ihl ihr =>
    rw [Tree.leaves, List.nodup_append'] at hnodup
    obtain ⟨hl, hr, hdisj⟩ := hnodup
    rcases List.mem_append.1 h with h | h
    · obtain ⟨down, hcode, hdown⟩ := ihl hl h (path ++ [false]) code
      refine ⟨false :: down, ?_, hdown⟩
      rw [Tree.assignCodes, codeOf_assignCodes_of_notMem (hdisj h), hcode, List.append_assoc, List.singleton_append]
    · obtain ⟨down, hcode, hdown⟩ := ihr hr h (path ++ [true]) (l.assignCodes (path ++ [false]) code)
      exact ⟨true :: down, by rw [Tree.assignCodes, hcode, List.append_assoc, List.singleton_append], hdown⟩
  | wrap l ih =>
    obtain ⟨down, hcode, hdown⟩ := ih hnodup h (path ++ [false]) code
    exact ⟨false :: down, by rw [Tree.assignCodes, hcode, List.append_assoc, List.singleton_append], hdown⟩

theorem follow_codeOf_deriveCodes {t : Tree} (hnodup : t.leaves.Nodup) {b : Byte} (h : b ∈ t.leaves) :
    t.follow (codeOf (deriveCodes t) b) = some (.leaf b) := by
  obtain ⟨down, hcode, hdown⟩ := exists_codeOf_assignCodes hnodup h [] (Vector.replicate 256 [])
  rwa [deriveCodes, hcode]

/-- A bit that leads to a leaf emits its byte, and the walk is back at the root (R158). -/
theorem walkTree_child_leaf {root here : Tree} {bit : Bool} {b : Byte} (h : here.child bit = some (.leaf b)) (need : Nat)
    (bits : List Bool) :
    walkTree root here (need + 1) (bit :: bits) = (walkTree root root need bits).map (b :: ·) := by
  match here, bit, h with
  | .internal _ _, false, rfl | .internal _ _, true, rfl | .wrap _, false, rfl => rw [walkTree]

/-- A bit that leads to an inner node moves the walk there (R158). -/
theorem walkTree_child_inner {root here c : Tree} {bit : Bool} (h : here.child bit = some c) (hc : ∀ b, c ≠ .leaf b)
    (need : Nat) (bits : List Bool) :
    walkTree root here (need + 1) (bit :: bits) = walkTree root c (need + 1) bits := by
  cases c with
  | leaf b => exact absurd rfl (hc b)
  | internal l r | wrap l =>
    match here, bit, h with
    | .internal _ _, false, rfl | .internal _ _, true, rfl | .wrap _, false, rfl => rw [walkTree]

/-- The walk along a path that leads to a leaf emits its byte and is back at the root (R158). -/
theorem walkTree_follow (root : Tree) {here : Tree} {path : List Bool} {b : Byte} (hne : path ≠ [])
    (h : here.follow path = some (.leaf b)) (need : Nat) (bits : List Bool) :
    walkTree root here (need + 1) (path ++ bits) = (walkTree root root need bits).map (b :: ·) := by
  induction path generalizing here with
  | nil => exact absurd rfl hne
  | cons bit path ih =>
    obtain ⟨c, hc, hpath⟩ := Option.bind_eq_some_iff.1 h
    rw [List.cons_append]
    cases path with
    | nil =>
      cases hpath
      exact walkTree_child_leaf hc need bits
    | cons bit' path =>
      have hinner : ∀ a, c ≠ .leaf a := by
        rintro a rfl
        cases hpath
      rw [walkTree_child_inner hc hinner, ih (List.cons_ne_nil _ _) hpath]

/-- The walk over the code bits of an input gives the input back (R132, R158). -/
theorem walkTree_codeBits {t : Tree} (hnodup : t.leaves.Nodup) (hroot : ∀ b, t ≠ .leaf b) (input : List Byte)
    (hmem : ∀ b ∈ input, b ∈ t.leaves) : walkTree t t input.length (codeBits (deriveCodes t) input) = .ok input := by
  induction input with
  | nil => rw [List.length_nil, walkTree]
  | cons b input ih =>
    have hpath := follow_codeOf_deriveCodes hnodup (hmem b List.mem_cons_self)
    have hne : codeOf (deriveCodes t) b ≠ [] := fun hnil => by
      rw [hnil] at hpath
      exact hroot b (Option.some.inj hpath)
    rw [codeBits, List.flatMap_cons, List.length_cons, walkTree_follow t hne hpath, ← codeBits,
      ih fun a ha => hmem a (List.mem_cons_of_mem b ha)]
    rfl

end Sys2Proof.Machine
end

section
/-! PROOFS. The frequency counter and the queue: the counts are the input's (R100), and no queue operation loses or invents
an entry (R101, R102). -/

namespace Sys2Proof.Machine

theorem bump_getElem (freq : Vector Nat 256) (a b : Byte) :
    (bump freq a)[b.toNat] = freq[b.toNat] + if a = b then 1 else 0 := by
  simp only [bump, Vector.getElem_set, BitVec.toNat_inj]
  split
  · next h => rw [h]
  · rfl

/-- The counter counts (R100). -/
theorem countFrequencies_getElem (input : List Byte) (b : Byte) :
    (countFrequencies input)[b.toNat] = input.count b := by
  have hfold : ∀ freq : Vector Nat 256, (input.foldl bump freq)[b.toNat] = freq[b.toNat] + input.count b := by
    induction input with
    | nil => exact fun freq => rfl
    | cons a input ih =>
      intro freq
      rw [List.foldl_cons, ih, bump_getElem, List.count_cons, beq_eq_decide]
      simp only [decide_eq_true_eq]
      omega
  rw [countFrequencies, hfold, Vector.getElem_replicate, Nat.zero_add]

theorem swapAt_perm (h : List PQEntry) (j k : Nat) : (swapAt h j k).Perm h := by
  unfold swapAt
  split
  · next x y hx hy =>
    obtain ⟨hj, rfl⟩ := List.getElem?_eq_some_iff.1 hx
    obtain ⟨hk, rfl⟩ := List.getElem?_eq_some_iff.1 hy
    exact List.set_set_perm hj hk
  · exact .rfl

theorem siftUp_perm (fuel : Nat) (h : List PQEntry) (k : Nat) : (siftUp fuel h k).Perm h := by
  fun_induction siftUp fuel h k with
  | case3 fuel h k _ x y _ _ _ ih => exact ih.trans (swapAt_perm ..)
  | _ => exact .rfl

theorem siftDown_perm (fuel : Nat) (h : List PQEntry) (k : Nat) : (siftDown fuel h k).Perm h := by
  fun_induction siftDown fuel h k with
  | case2 fuel h k x y _ _ _ ih => exact ih.trans (swapAt_perm ..)
  | _ => exact .rfl

/-- `insert` adds its entry and keeps the others (R101). -/
theorem pqInsert_perm (h : List PQEntry) (e : PQEntry) : (pqInsert h e).Perm (e :: h) :=
  (siftUp_perm ..).trans (List.perm_append_singleton e h)

theorem pqExtractMin_eq_none {h : List PQEntry} : pqExtractMin h = none ↔ h = [] := by
  unfold pqExtractMin
  split <;> simp

/-- `extractMin` takes one entry out and keeps the others (R101). -/
theorem pqExtractMin_perm {h h' : List PQEntry} {m : PQEntry} (heq : pqExtractMin h = some (m, h')) :
    (m :: h').Perm h := by
  match h, heq with
  | [r], rfl => exact .rfl
  | r :: e :: rest, rfl =>
    refine ((siftDown_perm ..).trans ?_).cons r
    rw [List.dropLast_cons_cons, List.set_cons_zero]
    exact (List.perm_append_singleton _ _).symm.trans (.of_eq (List.dropLast_append_getLast _))

theorem exists_pqExtractMin {h : List PQEntry} (hne : h ≠ []) :
    ∃ m h', pqExtractMin h = some (m, h') ∧ (m :: h').Perm h := by
  obtain ⟨⟨m, h'⟩, heq⟩ := Option.ne_none_iff_exists'.1 (mt pqExtractMin_eq_none.1 hne)
  exact ⟨m, h', heq, pqExtractMin_perm heq⟩

end Sys2Proof.Machine
end

section
/-! PROOFS. The tree builder (R103, R105, R106): the trees of the queue's entries have, together, each present byte at one
leaf, and the last of them is the tree of the encoder. -/

namespace Sys2Proof.Machine

/-- A tree in `NODE` stays what it is when entries are added, and more fuel reads it too. -/
theorem readTree_append {node : List Node} {fuel i : Nat} {t : Tree} (h : readTree node fuel i = some t)
    (more : List Node) {fuel' : Nat} (hfuel : fuel ≤ fuel') : readTree (node ++ more) fuel' i = some t := by
  induction fuel generalizing fuel' i t with
  | zero => cases h
  | succ fuel ih =>
    obtain ⟨fuel', rfl⟩ : ∃ n, fuel' = n + 1 := ⟨fuel' - 1, by omega⟩
    have ih {i t} (h : readTree node fuel i = some t) := ih h (fuel' := fuel') (by omega)
    rw [readTree] at h ⊢
    cases hi : node[i]? with
    | none => rw [hi] at h; cases h
    | some nd =>
      rw [List.getElem?_append_left (List.getElem?_eq_some_iff.1 hi).1, hi]
      rw [hi] at h
      obtain ⟨shape, weight⟩ := nd
      cases shape with
      | leaf b => exact h
      | internal l r =>
        simp only at h ⊢
        split at h
        · next tl tr hl hr => rw [ih hl, ih hr]; exact h
        · cases h
      | wrap l =>
        obtain ⟨tl, hl, rfl⟩ := Option.map_eq_some_iff.1 h
        simp only [ih hl, Option.map_some]

/-- The leaves of the tree at an index; none where there is no tree. -/
def leavesAt (node : List Node) (i : Nat) : List Byte := ((readTree node node.length i).map Tree.leaves).getD []

theorem leavesAt_of_readTree {node : List Node} {i : Nat} {t : Tree} (h : readTree node node.length i = some t) :
    leavesAt node i = t.leaves := by
  rw [leavesAt, h, Option.map_some, Option.getD_some]

/-- Every entry of a queue stands for a plain tree. -/
def PlainTrees (node : List Node) (pq : List PQEntry) : Prop :=
  ∀ e ∈ pq, ∃ t, readTree node node.length e.idx = some t ∧ t.plain = true

/-- The invariant of the tree builder for the bytes it has made leaves of: the queue's entries stand for plain trees, which
have those bytes at their leaves, and a forest of `k` binary trees with `m` leaves has `2 m - k` nodes (R108). -/
structure Forest.Covers (f : Forest) (bytes : List Byte) : Prop where
  plain : PlainTrees f.node f.pq
  leaves : (f.pq.flatMap fun e => leavesAt f.node e.idx).Perm bytes
  size : f.node.length + f.pq.length = 2 * bytes.length

/-- No more trees than leaves. -/
theorem Forest.Covers.length_pq_le {f : Forest} {bytes : List Byte} (h : f.Covers bytes) :
    f.pq.length ≤ bytes.length := by
  rw [← h.leaves.length_eq, List.length_flatMap]
  refine le_of_eq_of_le (List.length_map _).symm (List.length_le_sum_of_one_le _ fun k hk => ?_)
  obtain ⟨e, he, rfl⟩ := List.mem_map.1 hk
  obtain ⟨t, ht, -⟩ := h.plain e he
  rw [leavesAt_of_readTree ht]
  exact t.leaves_length_pos

/-- A new node, the root of the tree `t`, and its entry join the forest: leaf creation and the merge (R103, R105). -/
theorem Forest.covers_push {node : List Node} {nd : Node} {pq : List PQEntry} {w : Nat} {t : Tree} {bytes : List Byte}
    (hpq : PlainTrees node pq) (ht : readTree (node ++ [nd]) (node.length + 1) node.length = some t)
    (hplain : t.plain = true) (hleaves : (t.leaves ++ pq.flatMap fun e => leavesAt node e.idx).Perm bytes)
    (hsize : node.length + pq.length + 2 = 2 * bytes.length) :
    Forest.Covers { node := node ++ [nd], pq := pqInsert pq { weight := w, idx := node.length } } bytes := by
  have hperm := pqInsert_perm pq { weight := w, idx := node.length }
  have hlen : (node ++ [nd]).length = node.length + 1 := List.length_append
  have hold {i t} (h : readTree node node.length i = some t) :
      readTree (node ++ [nd]) (node ++ [nd]).length i = some t := readTree_append h [nd] (by omega)
  rw [← hlen] at ht
  refine ⟨fun e he => ?_, ?_, ?_⟩
  · rcases List.mem_cons.1 (hperm.mem_iff.1 he) with rfl | he
    · exact ⟨t, ht, hplain⟩
    · obtain ⟨u, hu, huplain⟩ := hpq e he
      exact ⟨u, hold hu, huplain⟩
  · have hkeep : ∀ e ∈ pq, leavesAt (node ++ [nd]) e.idx = leavesAt node e.idx := fun e he => by
      obtain ⟨u, hu, -⟩ := hpq e he
      rw [leavesAt_of_readTree (hold hu), leavesAt_of_readTree hu]
    refine (hperm.flatMap_right _).trans ?_
    rwa [List.flatMap_cons, leavesAt_of_readTree ht, List.flatMap_congr hkeep]
  · rw [hlen, hperm.length_eq, List.length_cons]
    omega

/-- One more leaf (R103). -/
theorem Forest.Covers.addLeaf {f : Forest} {bytes : List Byte} (h : f.Covers bytes) (b w : Nat) :
    (f.addLeaf b w).Covers (bytes ++ [BitVec.ofNat 8 b]) := by
  refine covers_push (t := .leaf (BitVec.ofNat 8 b)) h.plain ?_ rfl ?_ ?_
  · simp [readTree]
  · exact (h.leaves.cons _).trans (List.perm_append_singleton _ _).symm
  · have := h.size
    rw [List.length_append, List.length_singleton]
    omega

/-- The byte values that occur, in ascending order (R103). -/
def presentBytes (freq : Vector Nat 256) : List Byte :=
  ((List.range 256).filter fun b => freq.toList.getD b 0 > 0).map (BitVec.ofNat 8)

theorem nodup_presentBytes (freq : Vector Nat 256) : (presentBytes freq).Nodup := by
  refine (List.nodup_range.filter _).map_on fun a ha b hb hab => ?_
  have ha := List.mem_range.1 (List.mem_of_mem_filter ha)
  have hb := List.mem_range.1 (List.mem_of_mem_filter hb)
  have := congrArg BitVec.toNat hab
  rwa [BitVec.toNat_ofNat, BitVec.toNat_ofNat, Nat.mod_eq_of_lt ha, Nat.mod_eq_of_lt hb] at this

theorem length_presentBytes_le (freq : Vector Nat 256) : (presentBytes freq).length ≤ 256 := by
  rw [presentBytes, List.length_map]
  exact (List.length_filter_le _ _).trans_eq List.length_range

theorem mem_presentBytes {freq : Vector Nat 256} {b : Byte} : b ∈ presentBytes freq ↔ 0 < freq[b.toNat] := by
  have hget (n : Nat) (hn : n < 256) : freq.toList.getD n 0 = freq[n] := by simp [List.getD_eq_getElem?_getD, hn]
  simp only [presentBytes, List.mem_map, List.mem_filter, List.mem_range, decide_eq_true_eq]
  constructor
  · rintro ⟨n, ⟨hn, hpos⟩, rfl⟩
    simpa only [BitVec.toNat_ofNat, Nat.mod_eq_of_lt hn, ← hget n hn] using hpos
  · exact fun h => ⟨b.toNat, ⟨b.isLt, by rwa [hget _ b.isLt]⟩, by simp⟩

theorem mem_presentBytes_countFrequencies {input : List Byte} {b : Byte} :
    b ∈ presentBytes (countFrequencies input) ↔ b ∈ input := by
  rw [mem_presentBytes, countFrequencies_getElem, List.count_pos_iff]

/-- Leaf creation makes a leaf of each present byte (R103). -/
theorem makeLeaves_covers (freq : Vector Nat 256) : (makeLeaves freq).Covers (presentBytes freq) := by
  have hfold : ∀ (values : List Nat) (f : Forest) (bytes : List Byte), f.Covers bytes →
      (values.foldl (fun f b => if freq.toList.getD b 0 > 0 then f.addLeaf b (freq.toList.getD b 0) else f) f).Covers
        (bytes ++ (values.filter fun b => freq.toList.getD b 0 > 0).map (BitVec.ofNat 8)) := by
    intro values
    induction values with
    | nil => exact fun f bytes h => by simpa using h
    | cons b values ih =>
      intro f bytes h
      rw [List.foldl_cons, List.filter_cons]
      by_cases hb : freq.toList.getD b 0 > 0
      · simpa only [hb, decide_true, if_true, List.map_cons, List.append_assoc, List.singleton_append] using
          ih _ _ (h.addLeaf b _)
      · simpa only [hb, decide_false, if_false, Bool.false_eq_true] using ih f bytes h
  exact hfold _ _ [] ⟨nofun, .nil, rfl⟩

/-- A merge keeps the invariant and leaves one tree less (R105). -/
theorem Forest.Covers.merge {f : Forest} {bytes : List Byte} (h : f.Covers bytes) (hpq : 1 < f.pq.length) :
    ∃ f', f.merge = some f' ∧ f'.Covers bytes ∧ f'.pq.length + 1 = f.pq.length := by
  obtain ⟨a, pq1, ha, hperm1⟩ := exists_pqExtractMin (List.ne_nil_of_length_pos (by omega : 0 < f.pq.length))
  have hlen1 := hperm1.length_eq
  rw [List.length_cons] at hlen1
  obtain ⟨b, pq2, hb, hperm2⟩ := exists_pqExtractMin (List.ne_nil_of_length_pos (by omega : 0 < pq1.length))
  have hlen2 := hperm2.length_eq
  rw [List.length_cons] at hlen2
  have hperm : (a :: b :: pq2).Perm f.pq := (hperm2.cons a).trans hperm1
  have hplain : PlainTrees f.node (a :: b :: pq2) := fun e he => h.plain e (hperm.mem_iff.1 he)
  obtain ⟨ta, hta, hpa⟩ := hplain a (by simp)
  obtain ⟨tb, htb, hpb⟩ := hplain b (by simp)
  have hleaves := (hperm.flatMap_right fun e => leavesAt f.node e.idx).trans h.leaves
  rw [List.flatMap_cons, List.flatMap_cons, leavesAt_of_readTree hta, leavesAt_of_readTree htb,
    ← List.append_assoc] at hleaves
  have hsize := h.size
  refine ⟨_, by rw [Forest.merge, ha]; simp only [hb]; rfl, ?_, ?_⟩
  · refine covers_push (t := .internal ta tb) (fun e he => hplain e (by simp [he])) ?_ (by simp [Tree.plain, hpa, hpb])
      hleaves (by omega)
    simp [readTree, readTree_append hta, readTree_append htb]
  · have := (pqInsert_perm pq2 { weight := a.weight + b.weight, idx := f.node.length }).length_eq
    simp only [List.length_cons] at this ⊢
    omega

/-- The last tree is the root's, under a `WRAP` node where it is the only leaf (R105, R106). -/
theorem Forest.Covers.finish {f : Forest} {bytes : List Byte} (h : f.Covers bytes) (hpq : f.pq.length = 1) :
    ∃ node root t, f.finish = some (node, root) ∧ readTree node node.length root = some t ∧ t.encoderMade = true ∧
      t.leaves.Perm bytes := by
  obtain ⟨node, pq⟩ := f
  obtain ⟨a, rfl⟩ := List.length_eq_one_iff.1 hpq
  obtain ⟨t, ht, hplain⟩ := h.plain a List.mem_cons_self
  have hleaves : t.leaves.Perm bytes := by
    have hleaves := h.leaves
    rwa [List.flatMap_singleton, leavesAt_of_readTree ht] at hleaves
  have hsize : node.length + 1 = 2 * bytes.length := h.size
  simp only at ht
  simp only [Forest.finish, pqExtractMin]
  cases t with
  | leaf b =>
    have hone : node.length = 1 := by
      have := hleaves.length_eq
      rw [Tree.leaves, List.length_singleton] at this
      omega
    rw [if_pos hone]
    refine ⟨_, _, .wrap (.leaf b), rfl, ?_, rfl, hleaves⟩
    rw [List.length_append, hone, List.length_singleton, readTree, List.getElem?_append_right hone.le, hone]
    simp only [Nat.sub_self, List.getElem?_cons_zero, readTree_append ht _ hone.le, Option.map_some]
  | internal l r =>
    have htwo : ¬ node.length = 1 := by
      have := hleaves.length_eq
      have := l.leaves_length_pos
      have := r.leaves_length_pos
      simp only [Tree.leaves, List.length_append] at *
      omega
    rw [if_neg htwo]
    exact ⟨_, _, _, rfl, ht, hplain, hleaves⟩
  | wrap l => cases hplain

/-- The loop of R105 ends with a tree of the encoder that has the bytes at its leaves. -/
theorem Forest.Covers.buildLoop {f : Forest} {bytes : List Byte} (h : f.Covers bytes) (fuel : Nat)
    (hpos : 1 ≤ f.pq.length) (hfuel : f.pq.length ≤ fuel) :
    ∃ node root t, buildLoop fuel f = some (node, root) ∧ readTree node node.length root = some t ∧
      t.encoderMade = true ∧ t.leaves.Perm bytes := by
  induction fuel generalizing f with
  | zero => omega
  | succ fuel ih =>
    rw [Machine.buildLoop]
    split
    · next hgt =>
      obtain ⟨f', hmerge, hcovers, hlen⟩ := h.merge hgt
      rw [hmerge, Option.bind_some]
      exact ih hcovers (by omega) (by omega)
    · exact h.finish (by omega)

/-- `BuildTree` on the counts of a non-empty input gives a tree of the encoder with each byte of the input at exactly one
leaf (R103, R105, R106). -/
theorem exists_buildTree {input : List Byte} (hne : input ≠ []) :
    ∃ t, buildTree (countFrequencies input) = some t ∧ t.encoderMade = true ∧ t.leaves.Nodup ∧
      (∀ b, b ∈ t.leaves ↔ b ∈ input) ∧ t.leaves.length ≤ 256 := by
  have hcovers := makeLeaves_covers (countFrequencies input)
  have hsize := length_presentBytes_le (countFrequencies input)
  have hpos : 1 ≤ (makeLeaves (countFrequencies input)).pq.length := by
    obtain ⟨b, hb⟩ := List.exists_mem_of_ne_nil input hne
    have hb := hcovers.leaves.mem_iff.2 (mem_presentBytes_countFrequencies.2 hb)
    obtain ⟨e, he, -⟩ := List.mem_flatMap.1 hb
    exact List.length_pos_of_mem he
  obtain ⟨node, root, t, hloop, hread, hmade, hperm⟩ := hcovers.buildLoop 256 hpos (hcovers.length_pq_le.trans hsize)
  refine ⟨t, by rw [buildTree, hloop, Option.bind_some, hread], hmade, hperm.nodup_iff.2 (nodup_presentBytes _),
    fun b => hperm.mem_iff.trans mem_presentBytes_countFrequencies, hperm.length_eq.trans_le hsize⟩

end Sys2Proof.Machine
end

section
/-! PROOFS. O51: the Huffman decoder undoes the Huffman encoder. The header gives back the lengths, the tree field the tree,
and the walk over the real payload bits the input (R136, R137, R159). -/

namespace Sys2Proof.Machine

/-- The header that the encoder writes is an `HB` (R73, R136). -/
theorem huffHeader_eq_encodeBytes (n : Word) (treeBytes : List Byte) (totalBits : Nat) :
    huffHeader n treeBytes totalBits = encodeBytes (.hb n treeBytes (BitVec.ofNat 8 (padCount totalBits))) := rfl

theorem Tree.ne_leaf_of_encoderMade {t : Tree} (h : t.encoderMade = true) (b : Byte) : t ≠ .leaf b := by
  rintro rfl
  cases h

/-- The padding count of a header (R78, R131). -/
theorem toNat_ofNat_padCount (n : Nat) : (BitVec.ofNat 8 (padCount n)).toNat = padCount n :=
  Nat.mod_eq_of_lt ((padCount_lt n).trans (by decide))

/-- A header passes the checks of R150 to R152 where a packed payload follows it and the original fits. -/
theorem huffHeaderError_eq_none {cap : Nat} {n : Word} (treeBytes : List Byte) (bits : List Bool) (hcap : n.toNat ≤ cap) :
    huffHeaderError (huffHeader n treeBytes bits.length ++ (pack bits).1).length cap n treeBytes.length
      (BitVec.ofNat 8 (padCount bits.length)) = none := by
  have hpad := padCount_lt bits.length
  have hdvd := padCount_spec bits.length
  have hlen : (huffHeader n treeBytes bits.length ++ (pack bits).1).length =
      9 + treeBytes.length + (bits.length + 7) / 8 := by
    simp only [huffHeader, List.length_append, be32_length, List.length_singleton, pack_length]
    omega
  rw [huffHeaderError, toNat_ofNat_padCount, hlen, if_neg (by omega), if_neg (by omega), if_neg (by omega),
    if_neg (by omega), if_neg (by omega)]

/-- Decoding what the encoder writes for a tree: the walk over the code bits is left. -/
theorem huffDecode_huffHeader_append {cap : Nat} {n : Word} {t : Tree} (hmade : t.encoderMade = true)
    (hleaves : t.leaves.length ≤ 256) (bits : List Bool) (hcap : n.toNat ≤ cap) :
    huffDecode cap (huffHeader n (pack t.serialize).1 bits.length ++ (pack bits).1) = walkTree t t n.toNat bits := by
  have hT : (pack t.serialize).1.length < 2 ^ 32 := (pack_serialize_length_le hmade hleaves).trans_lt (by decide)
  have hhead := decodeHb_encodeBytes n (pack t.serialize).1 (BitVec.ofNat 8 (padCount bits.length)) hT (pack bits).1
  rw [← huffHeader_eq_encodeBytes] at hhead
  simp only [huffDecode, hhead, huffHeaderError_eq_none _ bits hcap, parseTree_unpackBits_pack hmade hleaves,
    toNat_ofNat_padCount, take_unpackBits_pack]

/-- Settles O51: the tree of a non-empty input parses back, and the walk over its code bits gives the input. -/
theorem huffmanRoundTrip : Obligations.HuffmanRoundTrip := by
  intro x cap hne hmax hcap
  obtain ⟨t, hbuild, hmade, hnodup, hmem, hleaves⟩ := exists_buildTree hne
  have hn := toNat_ofNat_length hmax
  refine ⟨_, by rw [huffEncode, hbuild, Option.map_some], ?_⟩
  rw [huffDecode_huffHeader_append hmade hleaves _ (hn.trans_le hcap), hn]
  exact walkTree_codeBits hnodup (Tree.ne_leaf_of_encoderMade hmade) x fun b hb => (hmem b).2 hb

end Sys2Proof.Machine
end

section
/-! PROOFS. What one step can be: the host's action or the engine's transition (R8, R219), and all that each can do. -/

namespace Sys2Proof.Machine

/-! ## The step -/

/-- An action that is due, other than waiting, is what the step does. -/
theorem step_of_host {s : State} {e : HostEvent} {rest : List HostEvent} (hq : s.hostq = e :: rest)
    (hdue : s.status.busy = false ∨ e.delay = 0) (hwait : e.action ≠ .waitDone) :
    step s = (hostMove e.action { s with hostq := rest }).outcome := by
  have hnot : ¬(s.status.busy && decide (e.delay > 0)) = true := by
    rcases hdue with h | h <;> simp [h]
  rw [step, nextMove, hq]
  simp only [if_neg hnot]

/-- A step leaves the state alone, or it is the running engine's transition or an action of the host, from a state in
which only the queue of pending actions differs. -/
theorem step_cases {s t : State} (h : step s = .next t) :
    t = s ∨ (∃ q, s.status.busy = true ∧ (engineMove { s with hostq := q }).outcome = .next t) ∨
      ∃ q action, (hostMove action { s with hostq := q }).outcome = .next t := by
  rw [step, nextMove] at h
  split at h
  · split at h
    · exact .inr (.inl ⟨s.hostq, ‹_›, h⟩)
    · exact .inl (by simpa [Move.outcome] using h.symm)
  · next e rest hq =>
    split at h
    · next hbusy => exact .inr (.inl ⟨_, (Bool.and_eq_true_iff.1 hbusy).1, h⟩)
    · split at h
      · split at h
        · exact .inr (.inr ⟨rest, .waitDone, h⟩)
        · split at h
          · exact .inr (.inl ⟨s.hostq, ‹_›, h⟩)
          · exact .inl (by simpa [Move.outcome] using h.symm)
      · exact .inr (.inr ⟨rest, _, h⟩)

/-! ## The commands -/

/-- The phase an operation starts with (R24, R215). -/
def Operation.firstPhase : Operation → Phase
  | .huffEnc => .heFreq
  | .huffDec => .hdHeader
  | .lz77Enc => .leHeader
  | .lz77Dec => .ldHeader

theorem exec_command (op : Operation) (s : State) :
    exec op.command s = s.whenIdle (s.startOperation op.firstPhase) := by
  cases op <;> rfl

theorem selectRow_cmdwRows_format (x : Byte) : ((selectRow cmdwRows x).getD .nop).format = .cmdw := by
  revert x
  decide

/-- Every command word is a command (R71). -/
theorem decodeCmdw_format (w : Word) : (decodeCmdw w).format = .cmdw := selectRow_cmdwRows_format _

/-- A command is ignored by a busy block; an idle one completes it, rejects it or starts its operation (R215 to R218). -/
theorem exec_cmdw_cases {i : Instr} {s t : State} (hi : i.format = .cmdw) (h : exec i s = .next t) :
    t = s ∨ (s.status.busy = false ∧
      (t = s.accept.complete ∨ t = s.accept.fail .illegalCommand ∨
        ∃ op : Operation, t = s.startOperation op.firstPhase)) := by
  have start (op : Operation) (h : exec op.command s = .next t) :
      t = s ∨ (s.status.busy = false ∧ t = s.startOperation op.firstPhase) :=
    (whenIdle_cases (exec_command op s ▸ h)).imp And.right id
  cases i with
  | nop => exact (whenIdle_cases h).imp And.right (And.imp_right .inl)
  | illegal5 | illegal6 | illegal7 => exact (whenIdle_cases h).imp And.right (And.imp_right fun h => .inr (.inl h))
  | huffEnc => exact (start .huffEnc h).imp_right (And.imp_right fun h => .inr (.inr ⟨_, h⟩))
  | huffDec => exact (start .huffDec h).imp_right (And.imp_right fun h => .inr (.inr ⟨_, h⟩))
  | lz77Enc => exact (start .lz77Enc h).imp_right (And.imp_right fun h => .inr (.inr ⟨_, h⟩))
  | lz77Dec => exact (start .lz77Dec h).imp_right (And.imp_right fun h => .inr (.inr ⟨_, h⟩))
  | _ => cases hi

/-! ## The host's actions -/

/-- All that an action of the host can do to the block: `s` is the state in which it is no longer pending. -/
inductive HostStep (s t : State) : Prop
  /-- A read, and a write without effect. -/
  | reads (v : Word) (fresh : Nat) (ht : t = { s with rdata := v, fresh := fresh })
  | completes (hidle : s.status.busy = false) (ht : t = s.accept.complete)
  | rejects (hidle : s.status.busy = false) (ht : t = s.accept.fail .illegalCommand)
  | starts (op : Operation) (hidle : s.status.busy = false) (ht : t = s.startOperation op.firstPhase)
  | writesInLen (v : Word) (ht : t = State.markHazard { s with inLen := v })
  | writesIbuf (a : Nat) (b : Byte) (ha : a < s.cfg.ibufCap)
      (ht : t = if a < s.n then State.markHazard { s with ibuf := s.ibuf.write a b }
        else { s with ibuf := s.ibuf.write a b })
  | marksObuf (a : Nat) (hbusy : s.status.busy = true) (ht : t = { s with obufDirty := a :: s.obufDirty })
  | losesObufByte (a : Nat) (b : Byte) (ha : a < s.cfg.obufCap) (hidle : s.status.busy = false)
      (ht : t = { s with obuf := s.obuf.write a b, fresh := s.fresh + 1 })
  | resets (ht : t = s.resetBlock)

/-- No effect at all. -/
theorem HostStep.refl (s : State) : HostStep s s := .reads s.rdata s.fresh rfl

theorem readReg_hostStep (r : Reg) (s : State) : HostStep s (readReg r s) := by
  obtain ⟨v, h | ⟨-, h⟩⟩ := readReg_frame r s
  · exact .reads v s.fresh h
  · exact .reads v (s.fresh + 1) h

theorem writeReg_hostStep {r : Reg} {v : Word} {s t : State} (h : (writeReg r v s).outcome = .next t) :
    HostStep s t := by
  cases r with
  | cmd =>
    rcases exec_cmdw_cases (decodeCmdw_format v) h with rfl | ⟨hidle, ht | ht | ⟨op, ht⟩⟩
    · exact .refl _
    · exact .completes hidle ht
    · exact .rejects hidle ht
    · exact .starts op hidle ht
  | inLen => cases h; exact .writesInLen v rfl
  | status | outLen | unmapped => cases h; exact .refl _

theorem writeIbuf_hostStep {a : Nat} {b : Byte} {s t : State} (h : writeIbuf a b s = .next t) : HostStep s t := by
  rw [writeIbuf] at h
  split at h
  · cases h
  · next ha => exact .writesIbuf a b (Nat.lt_of_not_le ha) (Host.Outcome.next.inj h).symm

theorem readIbuf_hostStep {a : Nat} {s t : State} (h : readIbuf a s = .next t) : HostStep s t := by
  rw [readIbuf] at h
  split at h
  · cases h
  · exact .reads _ s.fresh (Host.Outcome.next.inj h).symm

theorem writeObuf_hostStep {a : Nat} {s t : State} (h : writeObuf a s = .next t) : HostStep s t := by
  rw [writeObuf] at h
  split at h
  · cases h
  · next ha =>
    split at h
    · next hbusy => exact .marksObuf a hbusy (Host.Outcome.next.inj h).symm
    · next hidle =>
      exact .losesObufByte a _ (Nat.lt_of_not_le ha) (Bool.eq_false_of_not_eq_true hidle) (Host.Outcome.next.inj h).symm

theorem readObuf_hostStep {a : Nat} {s t : State} (h : readObuf a s = .next t) : HostStep s t := by
  rw [readObuf] at h
  split at h
  · cases h
  · split at h
    · exact .reads _ (s.fresh + 1) (Host.Outcome.next.inj h).symm
    · exact .reads _ s.fresh (Host.Outcome.next.inj h).symm

theorem hostMove_hostStep {action : HostAction} {s t : State} (h : (hostMove action s).outcome = .next t) :
    HostStep s t := by
  cases action with
  | writeReg size offset value => exact writeReg_hostStep h
  | readReg size offset => cases h; exact readReg_hostStep _ s
  | writeIbuf a b => exact writeIbuf_hostStep h
  | readIbuf a => exact readIbuf_hostStep h
  | writeObuf a b => exact writeObuf_hostStep h
  | readObuf a => exact readObuf_hostStep h
  | waitDone => cases h; exact .refl _
  | reset => cases h; exact .resets rfl

end Sys2Proof.Machine
end

section
/-! PROOFS. `TOTAL_BITS`: the sum over the table is the length of the code bits (R109, R132). -/

namespace Sys2Proof.Machine

theorem getD_countFrequencies (input : List Byte) {n : Nat} (hn : n < 256) :
    (countFrequencies input).toList.getD n 0 = (input.map BitVec.toNat).count n := by
  have hget : (countFrequencies input).toList.getD n 0 = (countFrequencies input)[n] := by
    simp [List.getD_eq_getElem?_getD, hn]
  have hcount := countFrequencies_getElem input (BitVec.ofNat 8 n)
  have hinj : Function.Injective (BitVec.toNat : Byte → Nat) := fun _ _ => BitVec.eq_of_toNat_eq
  rw [← List.count_map_of_injective input _ hinj] at hcount
  simp only [BitVec.toNat_ofNat, Nat.mod_eq_of_lt hn] at hcount
  rw [hget, hcount]

theorem length_codeBits (code : Vector (List Bool) 256) (input : List Byte) :
    (codeBits code input).length = ((input.map BitVec.toNat).map fun n => (code.toList.getD n []).length).sum := by
  rw [codeBits, List.length_flatMap, List.map_map]
  congr 1
  refine List.map_congr_left fun b _ => ?_
  have hb : b.toNat < 256 := b.isLt
  simp [codeOf, List.getD_eq_getElem?_getD, hb]

/-- Counting the bits by the table of the counts gives the length of the code bits (R109, R132). -/
theorem totalBitsOf_countFrequencies (input : List Byte) (code : Vector (List Bool) 256) :
    totalBitsOf (countFrequencies input) code = (codeBits code input).length := by
  have hsub : (input.map BitVec.toNat).toFinset ⊆ Finset.range 256 := fun n hn => by
    obtain ⟨b, -, rfl⟩ := List.mem_map.1 (List.mem_toFinset.1 hn)
    exact Finset.mem_range.2 b.isLt
  rw [length_codeBits, Finset.sum_list_map_count, Finset.sum_subset hsub fun n _ hn => by
    rw [List.count_eq_zero.2 fun h => hn (List.mem_toFinset.2 h), zero_smul]]
  exact congrArg List.sum (List.map_congr_left fun n hn => by
    rw [getD_countFrequencies input (List.mem_range.1 hn), smul_eq_mul])

end Sys2Proof.Machine
end

section
/-! PROOFS. What one transition of the running engine can do, and that it keeps its output within `OBUF_CAP` (R24, R57,
R240). -/

namespace Sys2Proof.Machine

/-! ## The inputs, the packer, the copy -/

theorem State.take_input_succ {s : State} {i : Nat} (h : i < s.n) :
    s.input.take (i + 1) = s.input.take i ++ [s.ibufByte i] := by
  have hi : i < s.input.length := by rwa [State.input_length]
  rw [List.take_succ_eq_append_getElem hi, State.input_getElem]

theorem State.drop_input_eq_cons {s : State} {i : Nat} (h : i < s.n) :
    s.input.drop i = s.ibufByte i :: s.input.drop (i + 1) := by
  have hi : i < s.input.length := by rwa [State.input_length]
  rw [List.drop_eq_getElem_cons hi, State.input_getElem]

/-- The bits a packer has taken. -/
def Packer.bits (p : Packer) : Nat := 8 * p.out.length + p.accN

theorem Packer.push_bits {p : Packer} (h : p.accN < 8) (bit : Bool) :
    (p.push bit).bits = p.bits + 1 ∧ (p.push bit).accN < 8 := by
  rw [Packer.push]
  split
  · simp only [Packer.bits, List.length_append, List.length_singleton]
    omega
  · simp only [Packer.bits]
    omega

theorem Packer.foldl_push_bits {p : Packer} (h : p.accN < 8) (bits : List Bool) :
    (bits.foldl Packer.push p).bits = p.bits + bits.length ∧ (bits.foldl Packer.push p).accN < 8 := by
  induction bits generalizing p with
  | nil => exact ⟨rfl, h⟩
  | cons bit bits ih =>
    obtain ⟨hbits, hacc⟩ := Packer.push_bits h bit
    obtain ⟨hbits', hacc'⟩ := ih hacc
    rw [List.foldl_cons, List.length_cons]
    omega

/-- The final flush adds a byte only where bits are left (R131). -/
theorem Packer.length_flush_le {p : Packer} {cap : Nat} (h : p.bits ≤ 8 * cap) : p.flush.length ≤ cap := by
  rw [Packer.bits] at h
  rw [Packer.flush]
  split
  · rw [List.length_append, List.length_singleton]
    omega
  · omega

theorem length_copyBack_le {N : Nat} (d l : Nat) {out : List Byte} (h : out.length ≤ N) :
    (copyBack d N l out).length ≤ N := by
  fun_induction copyBack d N l out with
  | case1 | case2 | case4 => exact h
  | case3 l out hne b hb ih =>
    refine ih ?_
    rw [List.length_append, List.length_singleton]
    omega

/-- A match never passes the count (R63, R203). -/
theorem length_matchOutput_le {N : Nat} (d l : Nat) (hasNext : Bool) (nx : Byte) {out : List Byte}
    (h : out.length ≤ N) : (matchOutput N d l hasNext nx out).length ≤ N := by
  have hcopy := length_copyBack_le d l h
  simp only [matchOutput]
  split
  · next hlt =>
    have hlt : (copyBack d N l out).length < N := by simpa using (Bool.and_eq_true_iff.1 hlt).2
    rw [List.length_append, List.length_singleton]
    omega
  · exact hcopy

theorem huffHeaderError_eq_none_le {L cap t : Nat} {o : Word} {pad : Byte} (h : huffHeaderError L cap o t pad = none) :
    o.toNat ≤ cap := by
  simp only [huffHeaderError] at h
  split_ifs at h
  omega

theorem lz77HeaderError_eq_none_le {L cap : Nat} {o : Word} (h : lz77HeaderError L cap o = none) : o.toNat ≤ cap := by
  simp only [lz77HeaderError] at h
  split_ifs at h
  omega

/-! ## What the decoded units can do -/

/-- A token ends the operation or moves the cursor and appends to the output, never past the count (R203, R205, R206). -/
theorem exec_token_cases {i : Instr} (hi : i.format = .token) (s : State) :
    (∃ ipos kind, exec i s = .next (State.failOperation { s with eng := { s.eng with ipos := ipos } } kind)) ∨
    ∃ ipos out, (s.eng.out.length < s.origN → out.length ≤ s.origN) ∧
      exec i s = .next { s with eng := { s.eng with ipos := ipos, out := out } } := by
  have hone (b : Byte) (hlt : s.eng.out.length < s.origN) : (s.eng.out ++ [b]).length ≤ s.origN :=
    List.length_append.trans_le hlt
  cases i with
  | lit v => exact .inr ⟨_, _, hone v, execLit_next v s⟩
  | esc v =>
    rcases execEsc_cases v s with ⟨-, hexec⟩ | ⟨-, hexec⟩
    · exact .inl ⟨s.eng.ipos, _, hexec⟩
    · exact .inr ⟨_, _, hone v, hexec⟩
  | matchRef d hn l nx =>
    rcases execMatch_cases d hn l nx s with ⟨-, hexec⟩ | ⟨-, -, hexec⟩ | ⟨-, -, hexec⟩
    · exact .inl ⟨s.eng.ipos, _, hexec⟩
    · exact .inl ⟨_, _, hexec⟩
    · exact .inr ⟨_, _, fun hlt => length_matchOutput_le _ _ _ _ hlt.le, hexec⟩
  | _ => cases hi

/-- A record ends the operation or changes the parse only (R153 to R155). -/
theorem exec_st_cases {i : Instr} (hi : i.format = .st) (s : State) :
    (∃ kind, exec i s = .next (s.failOperation kind)) ∨
    ∃ tcur node pstk root,
      exec i s = .next { s with eng := { s.eng with tcur := tcur, node := node, pstk := pstk, root := root } } := by
  cases i with
  | stLeaf v =>
    rcases execStLeaf_cases v s with hexec | ⟨p, -, -, -, hexec⟩
    · exact .inl hexec
    · exact .inr ⟨_, _, _, _, hexec⟩
  | stNode =>
    rcases execStNode_cases s with ⟨-, hexec⟩ | ⟨-, hexec⟩
    · exact .inl ⟨_, hexec⟩
    · exact .inr ⟨_, _, _, s.eng.root, hexec⟩
  | _ => cases hi

/-! ## What the decoders can give -/

theorem decodeToken_format {bytes rest : List Byte} {i : Instr} (h : decodeToken bytes = .ok (i, rest)) :
    i.format = .token := by
  rw [decodeToken.eq_def] at h
  split at h
  · cases h
  · split at h <;> cases h <;> rfl

theorem decodeRecord_format {bits rest : List Bool} {i : Instr} (h : decodeRecord bits = .ok (i, rest)) :
    i.format = .st := by
  rw [decodeRecord.eq_def] at h
  split at h
  · cases h
  · cases h; rfl
  · split at h <;> cases h; rfl

theorem decodeHb_format {buf rest : List Byte} {i : Instr} (h : decodeHb buf = .ok (i, rest)) : i.format = .hb := by
  rw [decodeHb.eq_def] at h
  split at h
  · cases h
  · split at h
    · simp only at h
      split at h <;> cases h; rfl
    · cases h

theorem decodeLb_format {buf rest : List Byte} {i : Instr} (h : decodeLb buf = .ok (i, rest)) : i.format = .lb := by
  rw [decodeLb.eq_def] at h
  split at h <;> cases h; rfl

theorem fetched_cases {α : Type} {s t : State} {kind : ErrorKind} {r : Except Reject (Instr × α)}
    (h : (fetched s kind r).outcome = .next t) :
    t = s.failOperation kind ∨ ∃ i rest, r = .ok (i, rest) ∧ exec i s = .next t := by
  cases r with
  | error e => exact .inl (Host.Outcome.next.inj h).symm
  | ok r => exact .inr ⟨r.1, r.2, rfl, h⟩

/-! ## The transitions -/

/-- All that a transition of a running engine can do: the operation goes on and its output stays bounded, or it fails, or
it delivers an output that fits. -/
inductive EngineStep (s t : State) : Prop
  | goesOn (eng : Engine) (phase : Phase) (hrun : phase ≠ .idle)
      (ht : t = { s with eng := eng, phase := phase })
      (hkeep : s.outputBounded → State.outputBounded { s with eng := eng, phase := phase })
  | fails (eng : Engine) (kind : ErrorKind) (ht : t = State.failOperation { s with eng := eng } kind)
  | delivers (out : List Byte) (ht : t = s.deliver out false) (hfits : s.outputBounded → out.length ≤ s.cfg.obufCap)

/-- The operation goes on in the same phase. -/
theorem EngineStep.stays {s : State} {p : Phase} (hp : s.phase = p) (hrun : p ≠ .idle) {eng : Engine}
    (hkeep : s.outputBounded → State.outputBounded { s with eng := eng, phase := p }) :
    EngineStep s { s with eng := eng } :=
  .goesOn eng p hrun (by rw [← hp]) hkeep

/-- The operation fails with its memories as they are. -/
theorem EngineStep.failsAt (s : State) (kind : ErrorKind) : EngineStep s (s.failOperation kind) := .fails s.eng kind rfl

section
variable {s t : State}

theorem stepFreq_engineStep (hp : s.phase = .heFreq) (h : stepFreq s = .next t) : EngineStep s t := by
  rw [stepFreq] at h
  split at h
  · next hlt =>
    cases h
    refine .stays hp nofun fun hb => ?_
    simp only [State.outputBounded, hp] at hb
    refine ⟨hlt, ?_⟩
    change bump s.eng.freq (s.ibufByte s.eng.ipos) = countFrequencies (s.input.take (s.eng.ipos + 1))
    rw [State.take_input_succ hlt, countFrequencies, List.foldl_append, ← countFrequencies, ← hb.2]
    rfl
  · next hge =>
    cases h
    refine .goesOn s.eng .heBuild nofun rfl fun hb => ?_
    simp only [State.outputBounded, hp] at hb
    rw [List.take_of_length_le (by rw [State.input_length]; omega)] at hb
    exact hb.2

theorem stepBuild_engineStep (hp : s.phase = .heBuild) (h : stepBuild s = .next t) : EngineStep s t := by
  have hkeep {eng : Engine} {p : Phase} (hfreq : eng.freq = s.eng.freq) (hphase : p = .heBuild ∨ p = .heCodes)
      (hb : s.outputBounded) : State.outputBounded { s with eng := eng, phase := p } := by
    simp only [State.outputBounded, hp] at hb
    rcases hphase with rfl | rfl <;> exact hfreq.trans hb
  rw [stepBuild] at h
  split at h
  · split at h
    · cases h
    · cases h; exact .stays hp nofun (hkeep rfl (.inl rfl))
  · split at h
    · split at h
      · cases h
      · cases h; exact .stays hp nofun (hkeep rfl (.inl rfl))
    · split at h
      · cases h
      · cases h; exact .goesOn _ .heCodes nofun rfl (hkeep rfl (.inr rfl))

theorem stepCodes_engineStep (hp : s.phase = .heCodes) (h : stepCodes s = .next t) : EngineStep s t := by
  rw [stepCodes] at h
  split at h
  · cases h
  · next tree _ =>
    cases h
    refine .goesOn _ .heHeader nofun rfl fun hb => ?_
    simp only [State.outputBounded, hp] at hb
    change totalBitsOf s.eng.freq (deriveCodes tree) = (codeBits (deriveCodes tree) s.input).length
    rw [hb, totalBitsOf_countFrequencies]

theorem stepHeHeader_engineStep (hp : s.phase = .heHeader) (h : stepHeHeader s = .next t) : EngineStep s t := by
  rw [stepHeHeader] at h
  split at h
  · cases h
  · next tree _ =>
    simp only at h
    split at h
    · cases h; exact .failsAt s _
    · next hfits =>
      cases h
      refine .goesOn _ .hePack nofun rfl fun hb => ?_
      simp only [State.outputBounded, hp] at hb
      refine ⟨Nat.zero_le _, Nat.zero_lt_succ 7, ?_⟩
      change 8 * (huffHeader s.inLen (pack tree.serialize).1 s.eng.totalBits).length + 0 +
        (codeBits s.eng.code (s.input.drop 0)).length ≤ 8 * s.cfg.obufCap
      rw [List.drop_zero, ← hb]
      simp only [huffHeader, List.length_append, be32_length, List.length_singleton]
      rw [payloadBytes] at hfits
      omega

theorem stepPack_engineStep (hp : s.phase = .hePack) (h : stepPack s = .next t) : EngineStep s t := by
  simp only [stepPack] at h
  split at h
  · next hlt =>
    cases h
    refine .stays hp nofun fun hb => ?_
    simp only [State.outputBounded, hp] at hb
    obtain ⟨-, hacc, hbits⟩ := hb
    rw [State.drop_input_eq_cons hlt, codeBits, List.flatMap_cons, List.length_append, ← codeBits] at hbits
    obtain ⟨hpush, hacc'⟩ := Packer.foldl_push_bits (p := ⟨s.eng.acc, s.eng.accN, s.eng.out⟩) hacc
      (codeOf s.eng.code (s.ibufByte s.eng.ipos))
    refine ⟨hlt, hacc', ?_⟩
    simp only [Packer.bits] at hpush
    refine le_trans (Nat.add_le_add_right hpush.le _) (le_trans ?_ hbits)
    simp only [Nat.add_assoc]
    exact le_rfl
  · cases h
    refine .delivers _ rfl fun hb => Packer.length_flush_le ?_
    simp only [State.outputBounded, hp] at hb
    exact (Nat.le_add_right _ _).trans hb.2.2

theorem finishTree_engineStep (hp : s.phase = .hdTree) (h : finishTree s = .next t) : EngineStep s t := by
  rw [finishTree] at h
  split at h
  · cases h
  · cases h; exact .failsAt s _
  all_goals
    cases h
    refine .goesOn _ .hdWalk nofun rfl fun hb => ?_
    simp only [State.outputBounded, hp] at hb
    exact ⟨hb, Nat.zero_le _⟩

theorem arrive_engineStep {i bcur : Nat} (hp : s.phase = .hdWalk) (hlt : s.eng.out.length < s.origN)
    (h : arrive { s with eng := { s.eng with bcur := bcur } } i = .next t) : EngineStep s t := by
  rw [arrive] at h
  split at h
  · cases h
  · cases h
    refine .stays hp nofun fun hb => ?_
    simp only [State.outputBounded, hp] at hb
    exact ⟨hb.1, List.length_append.trans_le hlt⟩
  all_goals
    cases h
    refine .stays hp nofun fun hb => ?_
    simp only [State.outputBounded, hp] at hb
    exact hb

theorem stepWalk_engineStep (hp : s.phase = .hdWalk) (h : stepWalk s = .next t) : EngineStep s t := by
  rw [stepWalk] at h
  split at h
  · cases h
    refine .delivers _ rfl fun hb => ?_
    simp only [State.outputBounded, hp] at hb
    exact hb.2.trans hb.1
  · next hlt =>
    split at h
    · cases h; exact .failsAt s _
    · split at h
      · cases h
      · cases h; exact .failsAt s _
      · exact arrive_engineStep hp (Nat.lt_of_not_le hlt) h

theorem stepLeHeader_engineStep (h : stepLeHeader s = .next t) : EngineStep s t := by
  rw [stepLeHeader] at h
  split at h
  · next hfits =>
    cases h
    refine .goesOn _ .leScan nofun rfl fun _ => ?_
    change (s.eng.out ++ be32 s.inLen).length ≤ s.cfg.obufCap
    rw [List.length_append]
    exact of_decide_eq_true hfits
  · cases h; exact .failsAt s _

theorem stepLeScan_engineStep (hp : s.phase = .leScan) (h : stepLeScan s = .next t) : EngineStep s t := by
  rw [stepLeScan] at h
  split at h
  · cases h
    refine .delivers _ rfl fun hb => ?_
    simpa only [State.outputBounded, hp] using hb
  · next e _ =>
    split at h
    · next hfits =>
      cases h
      refine .stays hp nofun fun _ => ?_
      change (s.eng.out ++ encodeBytes e.token).length ≤ s.cfg.obufCap
      rw [List.length_append]
      exact of_decide_eq_true hfits
    · cases h; exact .failsAt s _

theorem exec_hb_engineStep {i : Instr} (hi : i.format = .hb) (h : exec i s = .next t) : EngineStep s t := by
  cases i with
  | hb o tree pad =>
    rcases execHb_cases o tree pad s with ⟨kind, -, hexec⟩ | ⟨herr, hexec⟩ <;> rw [hexec] at h
    · cases h; exact .failsAt s _
    · cases h; exact .goesOn _ .hdTree nofun rfl fun _ => huffHeaderError_eq_none_le herr
  | _ => cases hi

theorem exec_lb_engineStep {i : Instr} (hi : i.format = .lb) (h : exec i s = .next t) : EngineStep s t := by
  cases i with
  | lb o =>
    rcases execLb_cases o s with ⟨kind, -, hexec⟩ | ⟨herr, hexec⟩ <;> rw [hexec] at h
    · cases h; exact .failsAt s _
    · cases h; exact .goesOn _ .ldTokens nofun rfl fun _ => ⟨lz77HeaderError_eq_none_le herr, Nat.zero_le _⟩
  | _ => cases hi

theorem exec_st_engineStep {i : Instr} (hi : i.format = .st) (hp : s.phase = .hdTree) (h : exec i s = .next t) :
    EngineStep s t := by
  rcases exec_st_cases hi s with ⟨kind, hexec⟩ | ⟨tcur, node, pstk, root, hexec⟩ <;> rw [hexec] at h
  · cases h; exact .failsAt s _
  · cases h
    refine .stays hp nofun fun hb => ?_
    simp only [State.outputBounded, hp] at hb
    exact hb

theorem exec_token_engineStep {i : Instr} (hi : i.format = .token) (hp : s.phase = .ldTokens)
    (hlt : s.eng.out.length < s.origN) (h : exec i s = .next t) : EngineStep s t := by
  rcases exec_token_cases hi s with ⟨ipos, kind, hexec⟩ | ⟨ipos, out, hout, hexec⟩ <;> rw [hexec] at h
  · cases h; exact .fails _ _ rfl
  · cases h
    refine .stays hp nofun fun hb => ?_
    simp only [State.outputBounded, hp] at hb
    exact ⟨hb.1, hout hlt⟩

theorem fetchHb_engineStep (h : (fetchHb s).outcome = .next t) : EngineStep s t := by
  rcases fetched_cases h with ht | ⟨i, rest, hdecode, hexec⟩
  · exact .fails s.eng _ ht
  · exact exec_hb_engineStep (decodeHb_format hdecode) hexec

theorem fetchLb_engineStep (h : (fetchLb s).outcome = .next t) : EngineStep s t := by
  rcases fetched_cases h with ht | ⟨i, rest, hdecode, hexec⟩
  · exact .fails s.eng _ ht
  · exact exec_lb_engineStep (decodeLb_format hdecode) hexec

theorem fetchRecord_engineStep (hp : s.phase = .hdTree) (h : (fetchRecord s).outcome = .next t) : EngineStep s t := by
  rw [fetchRecord] at h
  split at h
  · exact finishTree_engineStep hp h
  · rcases fetched_cases h with ht | ⟨i, rest, hdecode, hexec⟩
    · exact .fails s.eng _ ht
    · exact exec_st_engineStep (decodeRecord_format hdecode) hp hexec

theorem fetchToken_engineStep (hp : s.phase = .ldTokens) (h : (fetchToken s).outcome = .next t) : EngineStep s t := by
  rw [fetchToken] at h
  split at h
  · cases h
    refine .delivers _ rfl fun hb => ?_
    simp only [State.outputBounded, hp] at hb
    exact hb.2.trans hb.1
  · next hlt =>
    rcases fetched_cases h with ht | ⟨i, rest, hdecode, hexec⟩
    · exact .fails s.eng _ ht
    · exact exec_token_engineStep (decodeToken_format hdecode) hp (Nat.lt_of_not_le hlt) hexec

/-- A running engine ends an operation whose input the host changed, and otherwise makes one transition of its phase. -/
theorem engineMove_cases (h : (engineMove s).outcome = .next t) (hrun : s.phase ≠ .idle) :
    (s.hazard = true ∧ t = s.endHazard) ∨ (s.hazard = false ∧ EngineStep s t) := by
  rw [engineMove] at h
  split at h
  · next hhazard => exact .inl ⟨hhazard, (Host.Outcome.next.inj h).symm⟩
  · next hhazard =>
    refine .inr ⟨Bool.eq_false_of_not_eq_true hhazard, ?_⟩
    cases hp : s.phase <;> rw [hp] at h
    case idle => exact absurd hp hrun
    case heFreq => exact stepFreq_engineStep hp h
    case heBuild => exact stepBuild_engineStep hp h
    case heCodes => exact stepCodes_engineStep hp h
    case heHeader => exact stepHeHeader_engineStep hp h
    case hePack => exact stepPack_engineStep hp h
    case hdHeader => exact fetchHb_engineStep h
    case hdTree => exact fetchRecord_engineStep hp h
    case hdWalk => exact stepWalk_engineStep hp h
    case leHeader => exact stepLeHeader_engineStep h
    case leScan => exact stepLeScan_engineStep hp h
    case ldHeader => exact fetchLb_engineStep h
    case ldTokens => exact fetchToken_engineStep hp h

end

end Sys2Proof.Machine
end

section
/-! PROOFS. O7, O8, O9: both invariants hold after reset and every step keeps them (R23, R24, R27, R29, R57, R240). -/

namespace Sys2Proof.Machine

/-! ## How an operation can end -/

/-- The block after an operation on a changed input that completes with `len` unspecified bytes (R267, U4). -/
def State.completeUnspecified (s : State) (len : Nat) (empty : Bool) : State :=
  let s' := { s with fresh := s.fresh + 3 }.loseObuf
  { s' with
    outLen := BitVec.ofNat 32 len
    status := { s'.status with empty := empty, err := none } }.complete.release

/-- The two ends of an operation whose input the host changed: an error, or any output that fits (R267, U4). -/
theorem endHazard_cases (s : State) :
    (∃ kind, s.endHazard = State.failOperation { s with fresh := s.fresh + 1 } kind) ∨
    ∃ len empty, len ≤ s.cfg.obufCap ∧ (empty = true → len = 0) ∧ s.endHazard = s.completeUnspecified len empty := by
  cases hkind : hazardKind (Config.freeNat s.fresh % 5) with
  | some kind => exact .inl ⟨kind, by rw [State.endHazard, hkind]⟩
  | none =>
    refine .inr ⟨_, _, Nat.lt_succ_iff.1 (Nat.mod_lt (Config.freeNat (s.fresh + 1)) (Nat.succ_pos _)), fun h => ?_,
      by rw [State.endHazard, hkind]; rfl⟩
    exact eq_of_beq (Bool.and_eq_true_iff.1 h).1

theorem toNat_ofNat_le (n : Nat) : (BitVec.ofNat 32 n).toNat ≤ n := by
  rw [BitVec.toNat_ofNat]
  exact Nat.mod_le _ _

/-! ## Status and canonical form -/

section
variable {s t : State}

theorem inv_failOperation (h : s.ibuf.wf = true) (kind : ErrorKind) : (s.failOperation kind).Inv := by
  simp [State.Inv, State.statusLegal, State.buffersCanonical, h]

theorem inv_deliver (h : s.ibuf.wf = true) {out : List Byte} {empty : Bool} (hempty : empty = true → out = []) :
    (s.deliver out empty).Inv := by
  have hlen (h : empty = true) : BitVec.ofNat 32 out.length = 0 := by rw [hempty h]; rfl
  have hobuf : ((Memory.ofBytes 0 out).forget s.obufDirty).wf = true := Memory.forget_wf (Memory.ofBytes_wf 0 out) _
  simpa [State.Inv, State.statusLegal, State.buffersCanonical, h, hobuf] using hlen

theorem inv_completeUnspecified (h : s.ibuf.wf = true) {len : Nat} {empty : Bool} (hempty : empty = true → len = 0) :
    (s.completeUnspecified len empty).Inv := by
  have hlen (h : empty = true) : BitVec.ofNat 32 len = 0 := by rw [hempty h]; rfl
  simpa [State.Inv, State.statusLegal, State.buffersCanonical, State.completeUnspecified, h] using hlen

theorem inv_endHazard (h : s.ibuf.wf = true) : s.endHazard.Inv := by
  rcases endHazard_cases s with ⟨kind, heq⟩ | ⟨len, empty, -, hempty, heq⟩ <;> rw [heq]
  · exact inv_failOperation h kind
  · exact inv_completeUnspecified h hempty

theorem inv_startOperation (h : s.buffersCanonical) (p : Phase) (hp : p ≠ .idle) : (s.startOperation p).Inv := by
  rcases startOperation_cases s p with ⟨-, heq⟩ | ⟨-, -, heq⟩ | ⟨-, -, heq⟩ <;> rw [heq]
  · exact inv_failOperation h.1 _
  · exact inv_deliver h.1 fun _ => rfl
  · exact ⟨by simp [State.statusLegal, State.accepted, hp], h⟩

theorem EngineStep.inv (h : EngineStep s t) (hbusy : s.status.busy = true) (hs : s.Inv) : t.Inv := by
  obtain ⟨⟨-, hlegal⟩, hibuf, hobuf⟩ := hs
  cases h with
  | goesOn eng phase hrun ht => subst ht; exact ⟨⟨iff_of_true hbusy hrun, hlegal⟩, hibuf, hobuf⟩
  | fails eng kind ht => subst ht; exact inv_failOperation hibuf kind
  | delivers out ht => subst ht; exact inv_deliver hibuf nofun

theorem statusLegal_markHazard (h : s.statusLegal) : s.markHazard.statusLegal := by
  obtain ⟨hphase, hbusy, herr, hempty, hdone, hmarks⟩ := h
  refine ⟨hphase, hbusy, herr, hempty, hdone, fun hidle => ?_⟩
  rw [State.markHazard_status] at hidle
  rw [State.markHazard_hazard, State.markHazard_obufDirty, hidle, Bool.or_false]
  exact hmarks hidle

theorem HostStep.inv (h : HostStep s t) (hs : s.Inv) : t.Inv := by
  have ⟨hlegal, hibuf, hobuf⟩ := hs
  have ⟨_, _, _, _, _, hmarks⟩ := hlegal
  cases h with
  | reads v fresh ht => subst ht; exact hs
  | completes hidle ht | rejects hidle ht =>
    subst ht
    obtain ⟨hhazard, hdirty⟩ := hmarks hidle
    simp [State.Inv, State.statusLegal, State.buffersCanonical, hhazard, hdirty, hibuf, hobuf]
  | starts op hidle ht => subst ht; exact inv_startOperation hs.2 _ (by cases op <;> nofun)
  | writesInLen v ht => subst ht; exact ⟨statusLegal_markHazard (s := { s with inLen := v }) hlegal, hibuf, hobuf⟩
  | writesIbuf a b ha ht =>
    have hwrite := Memory.write_wf hibuf a b
    subst ht
    split
    · exact ⟨statusLegal_markHazard (s := { s with ibuf := s.ibuf.write a b }) hlegal, hwrite, hobuf⟩
    · exact ⟨hlegal, hwrite, hobuf⟩
  | marksObuf a hbusy ht =>
    obtain ⟨hphase, hrunning, herr, hempty, hdone, -⟩ := hlegal
    subst ht
    exact ⟨⟨hphase, hrunning, herr, hempty, hdone, fun hidle => by simp [hbusy] at hidle⟩, hibuf, hobuf⟩
  | losesObufByte a b ha hidle ht => subst ht; exact ⟨hlegal, hibuf, Memory.write_wf hobuf a b⟩
  | resets ht => subst ht; simp [State.Inv, State.statusLegal, State.buffersCanonical]

/-! ## Capacities -/

theorem below_write {m : Memory} {cap a : Nat} (h : m.below cap) (ha : a < cap) (b : Byte) : (m.write a b).below cap :=
  fun c hc => by
    rcases Memory.mem_write hc with rfl | hc
    · exact ha
    · exact h c hc

theorem below_forget_ofBytes {out : List Byte} {cap : Nat} (h : out.length ≤ cap) (addresses : List Nat) :
    ((Memory.ofBytes 0 out).forget addresses).below cap := fun c hc => by
  have := (Memory.ofBytes_lower (List.mem_of_mem_filter hc)).2
  omega

theorem outputBounded_of_idle (h : s.phase = .idle) : s.outputBounded := by
  simp only [State.outputBounded, h]

theorem withinCapacity_failOperation (hcfg : s.cfg.wf = true) (hibuf : s.ibuf.below s.cfg.ibufCap) (kind : ErrorKind) :
    (s.failOperation kind).withinCapacity :=
  ⟨hcfg, hibuf, nofun, Nat.zero_le _, fun _ => trivial⟩

theorem withinCapacity_deliver (hcfg : s.cfg.wf = true) (hibuf : s.ibuf.below s.cfg.ibufCap) {out : List Byte}
    (hout : out.length ≤ s.cfg.obufCap) (empty : Bool) : (s.deliver out empty).withinCapacity :=
  ⟨hcfg, hibuf, below_forget_ofBytes hout _, (toNat_ofNat_le _).trans hout, fun _ => trivial⟩

theorem withinCapacity_endHazard (hcfg : s.cfg.wf = true) (hibuf : s.ibuf.below s.cfg.ibufCap) :
    s.endHazard.withinCapacity := by
  rcases endHazard_cases s with ⟨kind, heq⟩ | ⟨len, empty, hlen, -, heq⟩ <;> rw [heq]
  · exact withinCapacity_failOperation hcfg hibuf kind
  · exact ⟨hcfg, hibuf, nofun, (toNat_ofNat_le _).trans hlen, fun _ => trivial⟩

theorem withinCapacity_startOperation (hs : s.withinCapacity) (op : Operation) :
    (s.startOperation op.firstPhase).withinCapacity := by
  obtain ⟨hcfg, hibuf, hobuf, -, -⟩ := hs
  rcases startOperation_cases s op.firstPhase with ⟨-, heq⟩ | ⟨-, -, heq⟩ | ⟨-, -, heq⟩ <;> rw [heq]
  · exact withinCapacity_failOperation hcfg hibuf _
  · exact withinCapacity_deliver hcfg hibuf (Nat.zero_le _) true
  · refine ⟨hcfg, hibuf, hobuf, Nat.zero_le _, fun _ => ?_⟩
    cases op with
    | huffEnc => exact ⟨Nat.zero_le _, rfl⟩
    | huffDec | lz77Enc | lz77Dec => trivial

theorem EngineStep.withinCapacity (h : EngineStep s t) (hhazard : s.hazard = false) (hs : s.withinCapacity) :
    t.withinCapacity := by
  obtain ⟨hcfg, hibuf, hobuf, hlen, hout⟩ := hs
  cases h with
  | goesOn eng phase _ ht hkeep => subst ht; exact ⟨hcfg, hibuf, hobuf, hlen, fun _ => hkeep (hout hhazard)⟩
  | fails eng kind ht => subst ht; exact withinCapacity_failOperation hcfg hibuf kind
  | delivers out ht hfits => subst ht; exact withinCapacity_deliver hcfg hibuf (hfits (hout hhazard)) false

/-- A write beyond `IN_LEN` does not change the input. -/
theorem input_write_ibuf {a : Nat} (ha : s.n ≤ a) (b : Byte) :
    State.input { s with ibuf := s.ibuf.write a b } = s.input := by
  refine List.map_congr_left fun j hj => ?_
  have hja : 0 + j ≠ a := by
    have := List.mem_range.1 hj
    change j < s.n at this
    omega
  simp only [State.ibufByte, Memory.read?_write_of_ne b hja]

theorem outputBounded_write_ibuf {a : Nat} (ha : s.n ≤ a) (b : Byte) (h : s.outputBounded) :
    State.outputBounded { s with ibuf := s.ibuf.write a b } := by
  simp only [State.outputBounded, input_write_ibuf ha b]
  exact h

/-- A block whose input the host may change without a mark is idle, and nothing is under way (R267). -/
theorem outputBounded_markHazard (h : s.statusLegal) (hhazard : s.markHazard.hazard = false) :
    s.markHazard.outputBounded := by
  obtain ⟨hphase, -⟩ := h
  refine outputBounded_of_idle (by_contra fun hrun => ?_)
  rw [State.markHazard_hazard, hphase.2 hrun, Bool.or_true] at hhazard
  cases hhazard

theorem HostStep.withinCapacity (h : HostStep s t) (hlegal : s.statusLegal) (hs : s.withinCapacity) :
    t.withinCapacity := by
  have ⟨hcfg, hibuf, hobuf, hlen, hout⟩ := hs
  cases h with
  | reads v fresh ht => subst ht; exact hs
  | completes hidle ht | rejects hidle ht => subst ht; exact ⟨hcfg, hibuf, hobuf, Nat.zero_le _, fun _ => trivial⟩
  | starts op hidle ht => subst ht; exact withinCapacity_startOperation hs op
  | writesInLen v ht =>
    subst ht
    exact ⟨hcfg, hibuf, hobuf, hlen, outputBounded_markHazard (s := { s with inLen := v }) hlegal⟩
  | writesIbuf a b ha ht =>
    have hwrite := below_write hibuf ha b
    subst ht
    split
    · exact ⟨hcfg, hwrite, hobuf, hlen, outputBounded_markHazard (s := { s with ibuf := s.ibuf.write a b }) hlegal⟩
    · next hn => exact ⟨hcfg, hwrite, hobuf, hlen, fun h => outputBounded_write_ibuf (Nat.le_of_not_lt hn) b (hout h)⟩
  | marksObuf a hbusy ht => subst ht; exact hs
  | losesObufByte a b ha hidle ht => subst ht; exact ⟨hcfg, hibuf, below_write hobuf ha b, hlen, hout⟩
  | resets ht => subst ht; exact ⟨hcfg, nofun, nofun, Nat.zero_le _, fun _ => trivial⟩

end

/-! ## The statements -/

/-- Settles O7: after reset nothing runs and both buffers list nothing. -/
theorem resetSatisfiesInvariants : Obligations.ResetSatisfiesInvariants :=
  ⟨⟨by simp [State.statusLegal, State.reset], reset_buffers_wf⟩,
    by decide, nofun, nofun, Nat.zero_le _, fun _ => trivial⟩

/-- Settles O8: the engine's transitions and the host's actions each keep the invariant. -/
theorem stepKeepsInvariant : Obligations.StepKeepsInvariant := by
  intro s t hs h
  rcases step_cases h with rfl | ⟨q, hbusy, h⟩ | ⟨q, action, h⟩
  · exact hs
  · have ⟨⟨hphase, _⟩, hibuf, _⟩ := hs
    rcases engineMove_cases h (hphase.1 hbusy) with ⟨-, rfl⟩ | ⟨-, h⟩
    · exact inv_endHazard hibuf
    · exact h.inv hbusy hs
  · exact (hostMove_hostStep h).inv hs

/-- Settles O9: so they keep what is bounded by the capacities, the output of the running operation among it. -/
theorem stepKeepsWithinCapacity : Obligations.StepKeepsWithinCapacity := by
  intro s t hinv hs h
  refine ⟨stepKeepsInvariant s t hinv h, ?_⟩
  have ⟨hlegal, _⟩ := hinv
  rcases step_cases h with rfl | ⟨q, hbusy, h⟩ | ⟨q, action, h⟩
  · exact hs
  · have ⟨hphase, _⟩ := hlegal
    rcases engineMove_cases h (hphase.1 hbusy) with ⟨-, rfl⟩ | ⟨hhazard, h⟩
    · have ⟨hcfg, hibuf, _⟩ := hs
      exact withinCapacity_endHazard hcfg hibuf
    · exact h.withinCapacity hhazard hs
  · exact (hostMove_hostStep h).withinCapacity hlegal hs

end Sys2Proof.Machine
end

section
/-! PROOFS. O38: a code is the path to its leaf, so no code begins another, and it has fewer bits than the tree has leaves
(R34, R77, R109). -/

namespace Sys2Proof.Machine

/-- Below a node of a plain tree stands a plain tree with fewer leaves. -/
theorem Tree.child_of_plain {t c : Tree} {bit : Bool} (ht : t.plain = true) (h : t.child bit = some c) :
    c.plain = true ∧ c.leaves.length < t.leaves.length := by
  match t, bit, h with
  | .internal l r, false, rfl =>
    have := r.leaves_length_pos
    rw [Tree.plain, Bool.and_eq_true] at ht
    rw [Tree.leaves, List.length_append]
    exact ⟨ht.1, by omega⟩
  | .internal l r, true, rfl =>
    have := l.leaves_length_pos
    rw [Tree.plain, Bool.and_eq_true] at ht
    rw [Tree.leaves, List.length_append]
    exact ⟨ht.2, by omega⟩

/-- Every bit of a path into a plain tree leaves at least one leaf aside. -/
theorem Tree.length_path_of_plain {t c : Tree} {path : List Bool} (ht : t.plain = true) (h : t.follow path = some c) :
    path.length < t.leaves.length := by
  induction path generalizing t with
  | nil => exact t.leaves_length_pos
  | cons bit path ih =>
    obtain ⟨d, hd, hpath⟩ := Option.bind_eq_some_iff.1 h
    obtain ⟨hplain, hlt⟩ := Tree.child_of_plain ht hd
    have := ih hplain hpath
    rw [List.length_cons]
    omega

/-- The paths of the encoder's trees: one bit to the only leaf, or fewer bits than leaves (R77, R106). -/
theorem Tree.length_path_le {t : Tree} (hmade : t.encoderMade = true) (hleaves : t.leaves.length ≤ 256)
    {path : List Bool} {b : Byte} (h : t.follow path = some (.leaf b)) : path.length ≤ 255 := by
  cases t with
  | leaf a => cases hmade
  | internal l r =>
    have := Tree.length_path_of_plain (t := .internal l r) hmade h
    omega
  | wrap l =>
    match l, path, h with
    | .leaf a, [false], _ => decide
    | .leaf a, false :: bit :: path, h => cases h

/-- Following one path after another. -/
theorem Tree.follow_append (t : Tree) (path more : List Bool) :
    t.follow (path ++ more) = (t.follow path).bind fun c => c.follow more := by
  induction path generalizing t with
  | nil => rfl
  | cons bit path ih =>
    rw [List.cons_append, Tree.follow, Tree.follow, Option.bind_assoc]
    exact congrArg _ (funext ih)

theorem Tree.follow_leaf {a b : Byte} {path : List Bool} (h : (Tree.leaf a).follow path = some (.leaf b)) : a = b := by
  cases path with
  | nil => cases h; rfl
  | cons bit path => cases h

/-- Where the code of one byte begins that of another, the walk stands on the leaf of both. -/
theorem eq_of_codeOf_isPrefix {t : Tree} (hnodup : t.leaves.Nodup) {a b : Byte} (ha : a ∈ t.leaves) (hb : b ∈ t.leaves)
    (h : codeOf (deriveCodes t) a <+: codeOf (deriveCodes t) b) : a = b := by
  obtain ⟨more, hmore⟩ := h
  have hpath := follow_codeOf_deriveCodes hnodup hb
  rw [← hmore, Tree.follow_append, follow_codeOf_deriveCodes hnodup ha] at hpath
  exact Tree.follow_leaf hpath

/-- Without a byte there is no tree (R107). -/
theorem buildTree_countFrequencies_nil : buildTree (countFrequencies []) = none := by
  have hpq := (makeLeaves_covers (countFrequencies [])).length_pq_le
  have hnone : presentBytes (countFrequencies []) = [] :=
    List.eq_nil_iff_forall_not_mem.2 fun b hb => List.not_mem_nil (mem_presentBytes_countFrequencies.1 hb)
  rw [hnone, List.length_nil, Nat.le_zero, List.length_eq_zero_iff] at hpq
  rw [buildTree, buildLoop, Forest.finish, hpq]
  rfl

/-- Settles O38: the code of a byte is the path to its leaf in a tree of at most 256 leaves. -/
theorem codesArePrefixFree : Obligations.CodesArePrefixFree := by
  intro input t hbuild
  have hne : input ≠ [] := by
    rintro rfl
    rw [buildTree_countFrequencies_nil] at hbuild
    cases hbuild
  obtain ⟨t', hbuild', hmade, hnodup, hmem, hleaves⟩ := exists_buildTree hne
  obtain rfl : t = t' := Option.some.inj (hbuild.symm.trans hbuild')
  refine ⟨fun b hb => ?_, fun a ha b hb hab hcode => ?_, fun b hb => ?_⟩
  · have hpath := follow_codeOf_deriveCodes hnodup ((hmem b).2 hb)
    refine ⟨List.length_pos_of_ne_nil fun hnil => ?_, Tree.length_path_le hmade hleaves hpath⟩
    rw [hnil] at hpath
    exact Tree.ne_leaf_of_encoderMade hmade b (Option.some.inj hpath)
  · exact hab (eq_of_codeOf_isPrefix hnodup ((hmem a).2 ha) ((hmem b).2 hb) hcode)
  · rw [deriveCodes, codeOf_assignCodes_of_notMem (mt (hmem b).1 hb), codeOf, Vector.getElem_replicate]

end Sys2Proof.Machine
end

section
/-! PROOFS. O30, O31, O34: the records of the tree field and what a decoded unit leaves unchanged (R153 to R155, R203 to
R206). -/

namespace Sys2Proof.Machine

/-! ## Subtrees that are complete -/

section
variable {left c p : Nat} {node : List Node} {rest : List ParseFrame}

/-- With nothing waiting, a complete subtree is the tree. -/
theorem attach_nil : attach left node [] c = .ok { node := node, pstk := [], root := some c } := rfl

/-- A left child: its parent waits for the right one (R153). -/
theorem attach_left (h : rest ≠ [] ∨ 9 ≤ left) :
    attach left node ({ idx := p, stage := .left } :: rest) c =
      .ok
        { node := node.set p (decoderNode (.internal c 0))
          pstk := { idx := p, stage := .right } :: rest
          root := none } := by
  have hnot : ¬(rest = [] ∧ left < 9) := fun ⟨hnil, hlt⟩ => h.elim (· hnil) (by omega)
  rw [attach]
  exact if_neg hnot

/-- The left child of the root where no right one fits: a leaf makes it a `WRAP` node (R154). -/
theorem attach_left_wrap {b : Byte} (hleft : left < 9) (hc : shapeAt node c = some (.leaf b)) :
    attach left node [{ idx := p, stage := .left }] c =
      .ok { node := node.set p (decoderNode (.wrap c)), pstk := [], root := some p } := by
  rw [attach]
  simp only [hleft, and_self, if_true, hc, attach_nil]

/-- As `attach_left_wrap`, for a child that is an inner node (R154). -/
theorem attach_left_error {l r : Nat} (hleft : left < 9) (hc : shapeAt node c = some (.internal l r)) :
    attach left node [{ idx := p, stage := .left }] c = .error .corruptTree := by
  rw [attach]
  simp only [hleft, and_self, if_true, hc]

/-- A right child completes its parent (R153). -/
theorem attach_right {l r : Nat} (hp : shapeAt node p = some (.internal l r)) :
    attach left node ({ idx := p, stage := .right } :: rest) c =
      attach left (node.set p (decoderNode (.internal l c))) rest p := by
  rw [attach]
  simp only [hp]

end

theorem shapeAt_append_self (node : List Node) (nd : Node) : shapeAt (node ++ [nd]) node.length = some nd.shape := by
  simp [shapeAt]

theorem lt_length_of_shapeAt {node : List Node} {p : Nat} {shape : NodeShape} (h : shapeAt node p = some shape) :
    p < node.length := by
  obtain ⟨nd, hnd, -⟩ := Option.map_eq_some_iff.1 h
  exact (List.getElem?_eq_some_iff.1 hnd).1

theorem shapeAt_append_left {node : List Node} {p : Nat} {shape : NodeShape} (h : shapeAt node p = some shape)
    (more : List Node) : shapeAt (node ++ more) p = some shape := by
  rw [shapeAt, List.getElem?_append_left (lt_length_of_shapeAt h)]
  exact h

theorem shapeAt_set_self {node : List Node} {p : Nat} (h : p < node.length) (nd : Node) :
    shapeAt (node.set p nd) p = some nd.shape := by
  rw [shapeAt, List.getElem?_set_self h, Option.map_some]

/-! ## The records -/

theorem failed_failOperation (s : State) (kind : ErrorKind) : Failed s (s.failOperation kind) kind :=
  ⟨rfl, rfl, rfl, rfl, fun _ => rfl, rfl, rfl, rfl⟩

theorem noRoomForRecord_iff {s : State} : s.noRoomForRecord = true ↔ s.tb ≤ s.eng.tcur ∨ s.eng.node.length = 511 := by
  simp [State.noRoomForRecord, Config.nodeCap]

/-- Settles O30: the two cases of `ST.NODE`. -/
theorem nodeRecordAllocates : Obligations.NodeRecordAllocates := by
  intro s
  rcases execStNode_cases s with ⟨hroom, hexec⟩ | ⟨hroom, hexec⟩
  · exact ⟨fun hbit hnode => absurd (noRoomForRecord_iff.1 hroom) (by omega),
      fun _ => ⟨_, hexec, failed_failOperation s _⟩⟩
  · exact ⟨fun _ _ => hexec, fun h => by rw [noRoomForRecord_iff.2 h] at hroom; cases hroom⟩

/-- ST.LEAF without room: no nine bits, or 511 nodes in use (R153, R155). -/
theorem execStLeaf_of_noRoom {s : State} (h : s.tb < s.eng.tcur + 9 ∨ s.eng.node.length = 511) (v : Byte) :
    exec (.stLeaf v) s = .next (s.failOperation .corruptTree) := by
  refine if_pos (Bool.or_eq_true_iff.2 ?_)
  rw [noRoomForRecord_iff, decide_eq_true_eq]
  omega

section
variable {s : State} {v : Byte} (hbits : s.eng.tcur + 9 ≤ s.tb) (hnode : s.eng.node.length ≠ 511)
include hbits hnode

theorem room_for_leaf : ¬(s.noRoomForRecord || decide (s.tb < s.eng.tcur + 9)) = true := by
  rw [Bool.or_eq_true_iff, noRoomForRecord_iff, decide_eq_true_eq]
  omega

/-- ST.LEAF with room, where `attach` finds a place for the leaf (R153 to R155). -/
theorem execStLeaf_of_attach_ok {p : ParseState}
    (h : attach (s.tb - (s.eng.tcur + 9)) (s.eng.node ++ [decoderNode (.leaf v)]) s.eng.pstk s.eng.node.length = .ok p) :
    exec (.stLeaf v) s =
      .next
        { s with
          eng :=
            { s.eng with
              tcur := s.eng.tcur + 9, node := p.node, pstk := p.pstk, root := p.root.getD s.eng.root } } := by
  refine (if_neg (room_for_leaf hbits hnode)).trans ?_
  rw [h]

/-- ST.LEAF with room, where `attach` finds none (R153 to R155). -/
theorem execStLeaf_of_attach_error {kind : ErrorKind}
    (h : attach (s.tb - (s.eng.tcur + 9)) (s.eng.node ++ [decoderNode (.leaf v)]) s.eng.pstk s.eng.node.length =
      .error kind) : exec (.stLeaf v) s = .next (s.failOperation kind) := by
  refine (if_neg (room_for_leaf hbits hnode)).trans ?_
  rw [h]

end

/-- Settles O31: by what `attach` answers for each stack. -/
theorem leafRecordAttaches : Obligations.LeafRecordAttaches := by
  intro v s
  dsimp only
  refine ⟨fun h => ⟨_, execStLeaf_of_noRoom h v, failed_failOperation s _⟩, fun hbits hnode => ?_⟩
  have hleaf := shapeAt_append_self s.eng.node (decoderNode (.leaf v))
  have hold {p l r} (h : shapeAt s.eng.node p = some (.internal l r)) := shapeAt_append_left h [decoderNode (.leaf v)]
  have hleft (h : s.tb < s.eng.tcur + 18) : s.tb - (s.eng.tcur + 9) < 9 := by omega
  have hmore {rest : List ParseFrame} (h : rest ≠ [] ∨ s.eng.tcur + 18 ≤ s.tb) :
      rest ≠ [] ∨ 9 ≤ s.tb - (s.eng.tcur + 9) := h.imp_right fun _ => by omega
  refine ⟨fun hstk => ?_, fun p rest hstk hgap => ?_, fun p hstk hgap => ?_, fun p l r hstk hp => ?_,
    fun p q l r rest hstk hp hgap => ?_, fun p q l r hstk hp hgap => ?_, fun done hdone => ?_, fun kind hkind => ?_⟩
  · exact execStLeaf_of_attach_ok hbits hnode (by rw [hstk, attach_nil])
  · exact execStLeaf_of_attach_ok hbits hnode (by rw [hstk, attach_left (hmore hgap)])
  · exact execStLeaf_of_attach_ok hbits hnode (by rw [hstk, attach_left_wrap (hleft hgap) hleaf])
  · exact execStLeaf_of_attach_ok hbits hnode (by rw [hstk, attach_right (hold hp), attach_nil])
  · exact execStLeaf_of_attach_ok hbits hnode (by rw [hstk, attach_right (hold hp), attach_left (hmore hgap)])
  · have hset := shapeAt_set_self (lt_length_of_shapeAt (hold hp)) (decoderNode (.internal l s.eng.node.length))
    refine ⟨_, execStLeaf_of_attach_error hbits hnode ?_, failed_failOperation s _⟩
    rw [hstk, attach_right (hold hp), attach_left_error (hleft hgap) hset]
  · exact execStLeaf_of_attach_ok hbits hnode hdone
  · exact ⟨_, execStLeaf_of_attach_error hbits hnode hkind, failed_failOperation s _⟩

/-! ## Frames -/

/-- Settles O34: a unit that fails ends the operation, and any other writes its own fields of the engine only. -/
theorem decodedUnitFrame : Obligations.DecodedUnitFrame := by
  intro i s t hi hbusy h hrun
  have hfails {s' : State} {kind : ErrorKind} (hexec : exec i s = .next (s'.failOperation kind)) : False := by
    rw [h] at hexec
    cases hexec
    cases hrun
  have hframe {eng : Engine} {phase : Phase} (hexec : exec i s = .next { s with eng := eng, phase := phase }) :
      t = { s with eng := eng, phase := phase } := Host.Outcome.next.inj (h.symm.trans hexec)
  have htoken := fun hi => exec_token_cases (i := i) hi s
  have hrecord := fun hi => exec_st_cases (i := i) hi s
  cases i with
  | lit v | esc v | matchRef d hn l nx =>
    rcases htoken rfl with ⟨ipos, kind, hexec⟩ | ⟨ipos, out, -, hexec⟩
    · exact (hfails hexec).elim
    · obtain rfl := hframe hexec
      exact ⟨rfl, fun _ => rfl, fun _ => rfl, fun _ => ⟨rfl, rfl⟩, nofun, nofun, nofun⟩
  | stLeaf v | stNode =>
    rcases hrecord rfl with ⟨kind, hexec⟩ | ⟨tcur, node, pstk, root, hexec⟩
    · exact (hfails hexec).elim
    · obtain rfl := hframe hexec
      exact ⟨rfl, fun _ => rfl, fun _ => rfl, nofun, fun _ => ⟨rfl, rfl⟩, nofun, nofun⟩
  | hb o tree pad =>
    rcases execHb_cases o tree pad s with ⟨kind, -, hexec⟩ | ⟨-, hexec⟩
    · exact (hfails hexec).elim
    · obtain rfl := hframe hexec
      exact ⟨rfl, fun _ => rfl, fun _ => rfl, nofun, nofun, fun _ => rfl, nofun⟩
  | lb o =>
    rcases execLb_cases o s with ⟨kind, -, hexec⟩ | ⟨-, hexec⟩
    · exact (hfails hexec).elim
    · obtain rfl := hframe hexec
      exact ⟨rfl, fun _ => rfl, fun _ => rfl, nofun, nofun, nofun, fun _ => rfl⟩
  | _ => exact absurd rfl hi

end Sys2Proof.Machine
end

section
/-! PROOFS. O5, O13, O17: the registers after reset and the start of an operation (R39, R40, R215). -/

namespace Sys2Proof.Machine

/-- Settles O5: by the values of `State.reset`. -/
theorem resetRegisters : Obligations.ResetRegisters :=
  ⟨rfl, rfl, rfl, rfl, rfl, rfl, Memory.read?_nil, Memory.read?_nil⟩

section
variable {s : State}

/-- An idle block starts the operation of a command (R215). -/
theorem exec_command_idle (op : Operation) (hidle : s.status.busy = false) :
    exec op.command s = .next (s.startOperation op.firstPhase) := by
  rw [exec_command, whenIdle_idle hidle]

/-- A non-empty input that `IBUF` can hold: the first phase, from the start values (R39, R215). -/
theorem startOperation_of_fits (hpos : 0 < s.n) (hfits : s.n ≤ s.cfg.ibufCap) (p : Phase) :
    s.startOperation p = State.release { s.accepted with phase := p, eng := Engine.start } := by
  rcases startOperation_cases s p with ⟨hlt, -⟩ | ⟨-, hzero, -⟩ | ⟨-, -, heq⟩
  · omega
  · rw [State.n, hzero] at hpos
    exact absurd hpos (by decide)
  · exact heq

/-- An input beyond `IBUF` fails (R220). -/
theorem startOperation_of_beyond (hlt : s.cfg.ibufCap < s.n) (p : Phase) :
    s.startOperation p = s.accepted.failOperation .capacity := by
  rcases startOperation_cases s p with ⟨-, heq⟩ | ⟨hle, -⟩ | ⟨hle, -⟩
  · exact heq
  all_goals omega

end

theorem start_tables (b : Fin 256) : Engine.start.freq[b] = 0 ∧ Engine.start.code[b] = [] :=
  ⟨Vector.getElem_replicate b.isLt, Vector.getElem_replicate b.isLt⟩

/-- Settles O13: an operation on a non-empty input that `IBUF` can hold starts from `Engine.start`. -/
theorem operationsStart : Obligations.OperationsStart := by
  intro op s hidle hpos hfits
  refine ⟨_, exec_command_idle op hidle, ?_⟩
  rw [startOperation_of_fits hpos hfits]
  exact ⟨rfl, by cases op <;> rfl, start_tables, rfl, rfl, rfl, rfl, rfl, rfl, rfl, rfl, rfl, rfl⟩

/-- Settles O17: a start reads the input's length, the capacities and the buffers only. -/
theorem operationsForgetTheLast : Obligations.OperationsForgetTheLast := by
  intro op s eng done empty err len hidle hpos
  refine ⟨_, _, exec_command_idle op hidle, exec_command_idle op rfl, ?_⟩
  by_cases hfits : s.n ≤ s.cfg.ibufCap
  · rw [startOperation_of_fits hpos hfits, startOperation_of_fits]
    · exact ⟨rfl, rfl, rfl, fun _ => rfl, rfl, rfl, rfl⟩
    · exact hpos
    · exact hfits
  · rw [startOperation_of_beyond (Nat.lt_of_not_le hfits), startOperation_of_beyond]
    · exact ⟨rfl, rfl, rfl, fun h => absurd h hfits, rfl, rfl, rfl⟩
    · exact Nat.lt_of_not_le hfits

end Sys2Proof.Machine
end

section
/-! PROOFS. O53 to O56: the host's accesses to the registers and the buffers (R21 to R29, R41, R54, R263, R268). -/

namespace Sys2Proof.Machine

/-! ## The registers -/

theorem errCode_lt (st : Status) : st.errCode < 16 := by
  rw [Status.errCode]
  cases st.err with
  | none => decide
  | some kind => cases kind <;> decide

/-- Settles O53: the sum is of four fields that do not overlap. -/
theorem statusWordFields : Obligations.StatusWordFields := by
  intro st
  have hhigh (k : Nat) (hk : 8 ≤ k) : st.word.getLsbD k = false := by
    have hlt : st.busy.toNat + 2 * st.done.toNat + 4 * st.empty.toNat + 16 * st.errCode < 2 ^ 8 := by
      have := errCode_lt st
      have := st.busy.toNat_le
      have := st.done.toNat_le
      have := st.empty.toNat_le
      omega
    rw [Status.word, BitVec.getLsbD_ofNat, Nat.testBit_lt_two_pow (hlt.trans_le (Nat.pow_le_pow_right (by decide) hk)),
      Bool.and_false]
  obtain ⟨busy, done, empty, err⟩ := st
  refine ⟨?_, ?_, ?_, ?_, hhigh, ?_⟩
  all_goals
    clear hhigh
    revert busy done empty
    cases err with
    | none => decide
    | some kind => cases kind <;> decide

/-- The four registers are reached by whole words at their offsets; every other access is unmapped (R21, R41, R54). -/
theorem regAt_cases (size : AccessSize) (offset : Nat) :
    (size = .word ∧ offset = 0) ∨ (size = .word ∧ offset = 4) ∨ (size = .word ∧ offset = 8) ∨
    (size = .word ∧ offset = 12) ∨
    (regAt size offset = .unmapped ∧ ∀ n ∈ [0, 4, 8, 12], ¬(size = .word ∧ offset = n)) := by
  unfold regAt
  split
  · exact .inl ⟨rfl, rfl⟩
  · exact .inr (.inl ⟨rfl, rfl⟩)
  · exact .inr (.inr (.inl ⟨rfl, rfl⟩))
  · exact .inr (.inr (.inr (.inl ⟨rfl, rfl⟩)))
  · next h0 h4 h8 h12 =>
    refine .inr (.inr (.inr (.inr ⟨rfl, fun n hn => not_and.2 ?_⟩)))
    fin_cases hn
    · exact h0
    · exact h4
    · exact h8
    · exact h12

section
variable {s : State}

theorem readReg_outLen_idle (h : s.status.busy = false) : readReg .outLen s = { s with rdata := s.outLen } := by
  simp only [readReg, h]
  rfl

theorem readReg_outLen_busy (h : s.status.busy = true) :
    readReg .outLen s = { s with rdata := Config.freeWord s.fresh, fresh := s.fresh + 1 } := by
  simp only [readReg, h]
  rfl

/-- A running operation shows `BUSY` and nothing else (R23, R24). -/
theorem word_eq_one_of_busy (hlegal : s.statusLegal) (hbusy : s.status.busy = true) : s.status.word = 1 := by
  obtain ⟨-, hrunning, -⟩ := hlegal
  obtain ⟨hdone, hempty, herr, -⟩ := hrunning hbusy
  rw [Status.word, Status.errCode, hbusy, hdone, hempty, herr]
  rfl

/-- A write to `IN_LEN` of an idle block is no hazard (R26, R267). -/
theorem markHazard_idle (h : s.status.busy = false) : s.markHazard = s := by
  rw [State.markHazard, h, Bool.or_false]

end

/-- Settles O54: by the register that the offset reaches. -/
theorem registerReads : Obligations.RegisterReads := by
  intro s d size offset rest hq hdue
  have hstep : step s = .next (readReg (regAt size offset) { s with hostq := rest }) := step_of_host hq hdue nofun
  refine ⟨fun h => ?_, fun hbusy hsize hoffset => ?_, word_eq_one_of_busy⟩
  · rcases regAt_cases size offset with ⟨rfl, rfl⟩ | ⟨rfl, rfl⟩ | ⟨rfl, rfl⟩ | ⟨rfl, rfl⟩ | ⟨hreg, hne⟩
    · exact hstep
    · exact hstep
    · exact hstep
    · have hidle : s.status.busy = false := h.resolve_right fun hnot => hnot ⟨rfl, rfl⟩
      exact hstep.trans (congrArg _ (readReg_outLen_idle hidle))
    · rw [hstep, hreg, if_neg (hne 4 (by decide)), if_neg (hne 8 (by decide)), if_neg (hne 12 (by decide))]
      rfl
  · subst hsize hoffset
    exact ⟨_, hstep.trans (congrArg _ (readReg_outLen_busy hbusy))⟩

/-- Settles O55: by the register that the offset reaches. -/
theorem registerWrites : Obligations.RegisterWrites := by
  intro s d size offset v rest hq hdue
  have hstep : step s = (writeReg (regAt size offset) v { s with hostq := rest }).outcome := step_of_host hq hdue nofun
  refine ⟨fun h => ?_, fun hsize hoffset hidle => ?_⟩
  · rcases regAt_cases size offset with ⟨rfl, rfl⟩ | ⟨rfl, rfl⟩ | ⟨rfl, rfl⟩ | ⟨rfl, rfl⟩ | ⟨hreg, -⟩
    · exact absurd h (by decide)
    · exact hstep
    · exact absurd h (by decide)
    · exact hstep
    · rw [hstep, hreg]; rfl
  · subst hsize hoffset
    exact hstep.trans (congrArg _ (markHazard_idle (s := { s with hostq := rest, inLen := v }) hidle))

/-! ## The buffers -/

section
variable {s : State} {a : Nat}

/-- A write of an `IBUF` byte of an idle block stores it (R29). -/
theorem writeIbuf_idle (hidle : s.status.busy = false) (ha : a < s.cfg.ibufCap) (b : Byte) :
    writeIbuf a b s = .next { s with ibuf := s.ibuf.write a b } := by
  rw [writeIbuf, if_neg (Nat.not_le.2 ha)]
  simp only [markHazard_idle (s := { s with ibuf := s.ibuf.write a b }) hidle, ite_self]

theorem readIbuf_below (ha : a < s.cfg.ibufCap) :
    readIbuf a s = .next { s with rdata := (s.ibufByte a).setWidth 32 } := if_neg (Nat.not_le.2 ha)

theorem writeObuf_idle (hidle : s.status.busy = false) (ha : a < s.cfg.obufCap) :
    writeObuf a s = .next { s with obuf := s.obuf.write a (Config.freeByte s.fresh a), fresh := s.fresh + 1 } := by
  rw [writeObuf, if_neg (Nat.not_le.2 ha), hidle]
  rfl

theorem writeObuf_busy (hbusy : s.status.busy = true) (ha : a < s.cfg.obufCap) :
    writeObuf a s = .next { s with obufDirty := a :: s.obufDirty } := by
  rw [writeObuf, if_neg (Nat.not_le.2 ha), if_pos hbusy]

theorem readObuf_idle (hidle : s.status.busy = false) (ha : a < s.cfg.obufCap) :
    readObuf a s = .next { s with rdata := (s.obufByte a).setWidth 32 } := by
  rw [readObuf, if_neg (Nat.not_le.2 ha), hidle]
  rfl

theorem readObuf_busy (hbusy : s.status.busy = true) (ha : a < s.cfg.obufCap) :
    readObuf a s =
      .next { s with rdata := (Config.freeByte s.fresh a).setWidth 32, fresh := s.fresh + 1 } := by
  rw [readObuf, if_neg (Nat.not_le.2 ha), if_pos hbusy]
  rfl

theorem ibufByte_write_self (b : Byte) : State.ibufByte { s with ibuf := s.ibuf.write a b } a = b := by
  rw [State.ibufByte, Memory.read?_write_self, Option.getD_some]

theorem ibufByte_write_of_ne {a' : Nat} (h : a' ≠ a) (b : Byte) :
    State.ibufByte { s with ibuf := s.ibuf.write a b } a' = s.ibufByte a' := by
  rw [State.ibufByte, Memory.read?_write_of_ne b h, ← State.ibufByte]

theorem obufByte_write_self (b : Byte) : State.obufByte { s with obuf := s.obuf.write a b } a = b := by
  rw [State.obufByte, Memory.read?_write_self, Option.getD_some]

theorem obufByte_write_of_ne {a' : Nat} (h : a' ≠ a) (b : Byte) :
    State.obufByte { s with obuf := s.obuf.write a b } a' = s.obufByte a' := by
  rw [State.obufByte, Memory.read?_write_of_ne b h, ← State.obufByte]

end

/-- Settles O56: by the four accesses, of an idle block, of a busy one and beyond the capacity. -/
theorem inputBufferHoldsWhatIsWritten : Obligations.InputBufferHoldsWhatIsWritten := by
  intro s d a b rest
  dsimp only
  refine ⟨fun hidle => ⟨fun hq ha => ?_, fun hq ha => ?_, fun hq ha => ?_, fun hq ha => ?_⟩,
    fun hbusy hd ha => ⟨fun hq => ?_, fun hq => ?_⟩, fun hdue => ⟨fun hq ha => ?_, fun hq ha => ?_⟩⟩
  · have hwrite := writeIbuf_idle (s := { s with hostq := rest }) hidle ha b
    refine ⟨_, (step_of_host hq (.inl hidle) nofun).trans hwrite, ?_⟩
    exact ⟨ibufByte_write_self b, fun a' h => ibufByte_write_of_ne h b, fun _ => rfl, rfl⟩
  · exact (step_of_host hq (.inl hidle) nofun).trans (readIbuf_below ha)
  · exact (step_of_host hq (.inl hidle) nofun).trans (readObuf_idle hidle ha)
  · refine ⟨_, (step_of_host hq (.inl hidle) nofun).trans (writeObuf_idle hidle ha), ?_⟩
    exact ⟨obufByte_write_self _, fun a' h => obufByte_write_of_ne h _, rfl⟩
  · exact (step_of_host hq (.inr hd) nofun).trans (writeObuf_busy hbusy ha)
  · exact ⟨_, (step_of_host hq (.inr hd) nofun).trans (readObuf_busy hbusy ha)⟩
  · rcases hq with hq | hq <;> exact (step_of_host hq hdue nofun).trans (if_pos ha)
  · rcases hq with hq | hq <;> exact (step_of_host hq hdue nofun).trans (if_pos ha)

end Sys2Proof.Machine
end

section
/-! PROOFS. O25, O26: the overlapping copy and `MATCH` (R63, R203). -/

namespace Sys2Proof.Machine

/-! ## The copy, over its own recursion -/

theorem getElem?_eq_some_of_prefix {xs ys : List Byte} (h : xs <+: ys) {i : Nat} {b : Byte} (hx : xs[i]? = some b) :
    ys[i]? = some b := by
  obtain ⟨hi, rfl⟩ := List.getElem?_eq_some_iff.1 hx
  exact List.prefix_iff_getElem?.1 h i hi

/-- The copy keeps what it had, wherever it is called. -/
theorem prefix_copyBack (d N l : Nat) (out : List Byte) : out <+: copyBack d N l out := by
  fun_induction copyBack d N l out with
  | case1 | case2 | case4 => exact List.prefix_rfl
  | case3 l out hne b hb ih => exact (List.prefix_append out [b]).trans ih

theorem take_copyBack (d N l : Nat) (out : List Byte) : (copyBack d N l out).take out.length = out :=
  (List.prefix_iff_eq_take.1 (prefix_copyBack d N l out)).symm

/-- Where the copy may be called it stops at `N` only: the byte `d` places back is there at every turn. -/
theorem length_copyBack {d N : Nat} {out : List Byte} (hd : 1 ≤ d) (l : Nat) (hdout : d ≤ out.length)
    (hN : out.length ≤ N) : (copyBack d N l out).length = min (out.length + l) N := by
  fun_induction copyBack d N l out with
  | case1 out => omega
  | case2 l out hfull => omega
  | case3 l out hne b hb ih =>
    have hgrow : (out ++ [b]).length = out.length + 1 := List.length_append
    rw [ih (by omega) (by omega)]
    omega
  | case4 l out hne hnone =>
    have hout := List.getElem?_eq_none_iff.1 hnone
    omega

/-- A byte that the copy adds is the byte `d` places back. The first one is read from `out`, which the copy keeps; the
others the rest of the copy adds. -/
theorem getElem?_copyBack (d N l : Nat) (out : List Byte) {i : Nat} (hi : out.length ≤ i)
    (hlt : i < (copyBack d N l out).length) : (copyBack d N l out)[i]? = (copyBack d N l out)[i - d]? := by
  fun_induction copyBack d N l out with
  | case1 | case2 | case4 => omega
  | case3 l out hne b hb ih =>
    obtain rfl | hi := hi.eq_or_lt
    · have hprefix := prefix_copyBack d N l (out ++ [b])
      have hnew : (copyBack d N l (out ++ [b]))[out.length]? = some b :=
        getElem?_eq_some_of_prefix hprefix List.getElem?_concat_length
      have hold : (copyBack d N l (out ++ [b]))[out.length - d]? = some b :=
        getElem?_eq_some_of_prefix ((List.prefix_append out [b]).trans hprefix) hb
      rw [hnew, hold]
    · exact ih (by rwa [List.length_append]) hlt

/-- Settles O26: the length, what it had, and the period read from the byte's own index. -/
theorem copyBackRepeatsWithPeriod : Obligations.CopyBackRepeatsWithPeriod := by
  intro d l N out hd hdout hN
  refine ⟨length_copyBack hd l hdout hN, take_copyBack d N l out, fun k hk => ?_⟩
  rw [getElem?_copyBack d N l out (Nat.le_add_right _ k) hk, Nat.sub_add_comm hdout]

/-! ## MATCH -/

theorem badDistance_iff {d produced : Nat} : badDistance d produced = true ↔ d = 0 ∨ 4096 < d ∨ produced < d := by
  simp [badDistance, Config.windowSize, or_assoc]

theorem matchOutput_eq (N d l : Nat) (hasNext : Bool) (nx : Byte) (out : List Byte) :
    matchOutput N d l hasNext nx out =
      if hasNext = true ∧ (copyBack d N l out).length < N then copyBack d N l out ++ [nx] else copyBack d N l out := by
  simp only [matchOutput, Bool.and_eq_true, decide_eq_true_eq]

/-- Settles O25: the three cases of `MATCH`, and the three facts of the copy. -/
theorem matchCopiesFromTheOutput : Obligations.MatchCopiesFromTheOutput := by
  intro d hasNext l nx s
  rcases execMatch_cases d hasNext l nx s with ⟨hshort, hexec⟩ | ⟨hwhole, hbad, hexec⟩ | ⟨hwhole, hgood, hexec⟩
  · exact ⟨fun _ => ⟨_, hexec, failed_failOperation s _⟩, fun h => absurd hshort (by omega),
      fun h => absurd hshort (by omega)⟩
  · have hbad := badDistance_iff.1 hbad
    exact ⟨fun h => absurd hwhole (by omega), fun _ _ => ⟨_, hexec, failed_failOperation s _⟩,
      fun _ _ _ _ => absurd hbad (by omega)⟩
  · refine ⟨fun h => absurd hwhole (by omega), fun _ hbad => ?_, fun _ hd _ hdout hN => ?_⟩
    · rw [badDistance_iff.2 hbad] at hgood
      cases hgood
    · exact ⟨_, copyBack d.toNat s.origN l.toNat s.eng.out, hexec, length_copyBack hd _ hdout hN,
        take_copyBack .., fun _ => getElem?_copyBack _ _ _ _, matchOutput_eq ..⟩

end Sys2Proof.Machine
end

section
/-! PROOFS. O1 to O4: the decoders undo the encoder, and a token is decided by its first byte (R71, R75,
R80 to R84, R89). -/

namespace Sys2Proof

/-! ## Command words -/

/-- The `CMDW` rows look at bits 2:0 only (R71). -/
theorem selectRow_cmdwRows_and_seven (x : Byte) : selectRow cmdwRows (x &&& 7) = selectRow cmdwRows x := by
  revert x
  decide

theorem decodeCmdw_and_seven (w : Word) : decodeCmdw (w &&& 7) = decodeCmdw w := by
  rw [decodeCmdw, BitVec.setWidth_and, show (7 : Word).setWidth 8 = (7 : Byte) from rfl,
    selectRow_cmdwRows_and_seven, decodeCmdw]

theorem shiftLeft_three_and_seven (w : Word) : (w <<< 3) &&& 7 = 0 := by
  apply BitVec.eq_of_toNat_eq
  rw [BitVec.toNat_and, BitVec.toNat_shiftLeft, show (7 : Word).toNat = 2 ^ 3 - 1 from rfl,
    Nat.and_two_pow_sub_one_eq_mod, Nat.shiftLeft_eq, show (0 : Word).toNat = 0 from rfl]
  omega

theorem encodeCmdw_and_seven (i : Instr) (hf : i.format = .cmdw) : encodeCmdw i &&& 7 = encodeCmdw i := by
  cases i with
  | nop | huffEnc | huffDec | lz77Enc | lz77Dec | illegal5 | illegal6 | illegal7 => rfl
  | _ => cases hf

theorem decodeCmdw_encodeCmdw (i : Instr) (hf : i.format = .cmdw) : decodeCmdw (encodeCmdw i) = i := by
  cases i with
  | nop | huffEnc | huffDec | lz77Enc | lz77Dec | illegal5 | illegal6 | illegal7 => rfl
  | _ => cases hf

/-- A command is read back from its word whatever bits 31:3 hold (R71). -/
theorem decodeCmdw_encodeCmdw_or (i : Instr) (hf : i.format = .cmdw) (ignored : Word) :
    decodeCmdw (encodeCmdw i ||| (ignored <<< 3)) = i := by
  have hlow : (encodeCmdw i ||| (ignored <<< 3)) &&& 7 = encodeCmdw i := by
    rw [BitVec.and_comm, BitVec.and_or_distrib_left, BitVec.and_comm 7, BitVec.and_comm 7,
      encodeCmdw_and_seven i hf, shiftLeft_three_and_seven]
    exact BitVec.or_zero
  rw [← decodeCmdw_and_seven, hlow, decodeCmdw_encodeCmdw i hf]

/-! ## Tree records -/

/-- A record followed by anything is read back, and what followed is left (R75, R153). -/
theorem decodeRecord_encodeRecord (i : Instr) (hf : i.format = .st) (rest : List Bool) :
    decodeRecord (encodeRecord i ++ rest) = .ok (i, rest) := by
  cases i with
  | stLeaf v =>
    have hlen : ¬ (byteBits v ++ rest).length < 8 := by rw [List.length_append, byteBits_length]; omega
    rw [encodeRecord, List.cons_append, decodeRecord, if_neg hlen, List.take_left' (byteBits_length v),
      List.drop_left' (byteBits_length v), bitsByte_byteBits]
  | stNode => rfl
  | _ => cases hf

/-- Settles O2: the byte formats, the records and the command words, each by its own decoder. -/
theorem decodingInvertsEncoding : Obligations.DecodingInvertsEncoding := by
  intro i hwf
  refine ⟨fun hf rest => ?_, fun hf rest => ?_, decodeCmdw_encodeCmdw_or i⟩
  · rcases hf with hf | hf | hf
    · rw [hf, decode, decodeToken_encodeBytes i hf hwf rest]
      rfl
    · cases i with
      | hb o tree pad =>
        rw [Instr.format, decode, decodeHb_encodeBytes o tree pad (of_decide_eq_true hwf) rest]
        rfl
      | _ => cases hf
    · cases i with
      | lb o =>
        rw [Instr.format, decode, encodeBytes, decodeLb_encodeBytes o rest]
        rfl
      | _ => cases hf
  · rw [decode, decodeRecord_encodeRecord i hf rest]
    rfl

/-! ## Tokens -/

/-- The three ranges of the first byte (R81). -/
theorem firstByte_cases (t : Byte) : t = 0xFF ∨ t = 0xFE ∨ t.toNat ≤ 0xFD := by
  revert t
  decide

theorem decodeToken_lit {t : Byte} (h : t.toNat ≤ 0xFD) (rest : List Byte) :
    decodeToken (t :: rest) = .ok (.lit t, rest) :=
  decodeToken_encodeBytes (.lit t) rfl (decide_eq_true h) rest

theorem decodeToken_esc (b : Byte) (rest : List Byte) : decodeToken (0xFE :: b :: rest) = .ok (.esc b, rest) := rfl

theorem decodeToken_matchRef (dh dl lh nx : Byte) (rest : List Byte) :
    decodeToken (0xFF :: dh :: dl :: lh :: nx :: rest) = .ok (matchOfBytes dh dl lh nx, rest) := rfl

theorem decodeToken_truncatedMatch {rest : List Byte} (h : rest.length < 4) :
    decodeToken (0xFF :: rest) = .error .truncatedMatch := by
  match rest, h with
  | [], _ => rfl
  | [_], _ => rfl
  | [_, _], _ => rfl
  | [_, _, _], _ => rfl

/-- The distance of a `MATCH` as a number (R84). -/
theorem toNat_be16Dec (high low : Byte) : (be16Dec high low).toNat = high.toNat * 256 + low.toNat := by
  rw [be16Dec, BitVec.toNat_append, ← Nat.shiftLeft_add_eq_or_of_lt low.isLt, Nat.shiftLeft_eq]

/-- The flag and the length in the length byte of a `MATCH` (R84). -/
theorem toNat_lengthByte (b : Byte) : b.toNat = (if b.getLsbD 7 then 128 else 0) + (b.setWidth 7).toNat := by
  revert b
  decide

/-- The inputs that hold no whole token (R202). -/
theorem decodeToken_eq_none_iff (bytes : List Byte) :
    (decodeToken bytes).toOption = none ↔
      bytes = [] ∨ bytes = [0xFE] ∨ (bytes.head? = some 0xFF ∧ bytes.length < 5) := by
  match bytes with
  | [] => exact iff_of_true rfl (.inl rfl)
  | t :: rest =>
    rcases firstByte_cases t with rfl | rfl | hlit
    · by_cases hshort : rest.length < 4
      · rw [decodeToken_truncatedMatch hshort]
        exact iff_of_true rfl (.inr (.inr ⟨rfl, Nat.succ_lt_succ hshort⟩))
      · match rest, Nat.le_of_not_lt hshort with
        | dh :: dl :: lh :: nx :: rest', _ =>
          rw [decodeToken_matchRef]
          simp [Except.toOption]
    · match rest with
      | [] => exact iff_of_true rfl (.inr (.inl rfl))
      | b :: rest' =>
        rw [decodeToken_esc]
        simp [Except.toOption]
    · have hesc : t ≠ 0xFE := by rintro rfl; exact absurd hlit (by decide)
      have hmatch : t ≠ 0xFF := by rintro rfl; exact absurd hlit (by decide)
      rw [decodeToken_lit hlit]
      refine iff_of_false nofun ?_
      rintro (h | h | ⟨h, -⟩)
      · cases h
      · exact hesc (List.cons.inj h).1
      · exact hmatch (Option.some.inj h)

/-- Settles O3: each range of the first byte has its own format, and only its own length can be missing. -/
theorem tokenFormatFollowsFirstByte : Obligations.TokenFormatFollowsFirstByte :=
  ⟨fun _ rest h => decodeToken_lit h rest, decodeToken_esc,
    fun dh dl lh nx rest =>
      ⟨_, _, _, decodeToken_matchRef dh dl lh nx rest, toNat_be16Dec dh dl, toNat_lengthByte lh⟩,
    decodeToken_eq_none_iff⟩

/-! ## The table's rows, and words written out -/

theorem filter_tokenRows (x : Byte) :
    (tokenRows.filter fun r => r.1.selects x).map (·.2) =
      [if x = 0xFF then .matchRef else if x = 0xFE then .esc else .lit] := by
  revert x
  decide

theorem length_filter_cmdwRows (x : Byte) : (cmdwRows.filter fun r => r.1.selects x).length = 1 := by
  revert x
  decide

/-- Settles O4: the two tables, each for all 256 bytes. -/
theorem tableRowsDoNotOverlap : Obligations.TableRowsDoNotOverlap :=
  fun x => ⟨filter_tokenRows x, length_filter_cmdwRows x⟩

/-- Settles O1: the words are those the encoder writes, with bits 31:3 and what follows as given. -/
theorem writtenWordsDecode : Obligations.WrittenWordsDecode :=
  ⟨decodeCmdw_encodeCmdw_or .huffEnc rfl 0x1FFFFFFF, decodeCmdw_encodeCmdw_or .nop rfl 1,
    decodeCmdw_encodeCmdw .illegal7 rfl, decodeToken_lit (by decide) _, decodeToken_esc _ _,
    decodeToken_matchRef _ _ _ _ _, decodeRecord_encodeRecord (.stLeaf 0x41) rfl [false],
    decodeRecord_encodeRecord .stNode rfl [true], decodeHb_encodeBytes 10 [0x50, 0x40] 6 (by decide) [0, 0],
    decodeLb_encodeBytes 3 [0xFE, 0xFF]⟩

end Sys2Proof
end

section
/-! PROOFS. O18, O20: a step runs the command word and the tree record that the decoders read (R71, R153, R215). -/

namespace Sys2Proof.Machine

/-- Settles O18: the write is due, and what it does is run the decoded word. -/
theorem stepRunsTheCommandWord : Obligations.StepRunsTheCommandWord := by
  intro s e rest w hq haction hdue
  rw [step_of_host hq hdue (by rw [haction]; nofun), haction]
  rfl

/-- A running engine that the host leaves alone makes the next move. -/
theorem step_of_engineRuns {s : State} {p : Phase} (h : s.engineRuns p) : step s = (engineMove s).outcome := by
  obtain ⟨hbusy, -, hq, -⟩ := h
  rw [step_of_hostq_nil hq, if_pos hbusy]

theorem engineMove_hdTree {s : State} (h : s.engineRuns .hdTree) : engineMove s = fetchRecord s := by
  obtain ⟨-, hhazard, -, hphase⟩ := h
  rw [engineMove, if_neg (by rw [hhazard]; decide), hphase]

/-- A unit that a decoder reads is run. -/
theorem fetched_ok {α : Type} {s : State} {kind : ErrorKind} {r : Except Reject (Instr × α)} {i : Instr} {rest : α}
    (h : r = .ok (i, rest)) : (fetched s kind r).outcome = exec i s := by
  subst h
  rfl

theorem fetchRecord_of_incomplete {s : State} (h : s.treeComplete = false) :
    fetchRecord s = fetched s .corruptTree (decodeRecord (s.treeBits 9)) := by
  rw [fetchRecord, if_neg (by rw [h]; decide)]

/-- The bits at `tcur` that lie in the tree field begin what the decoder is given (R153). -/
theorem take_treeBits {s : State} {m k : Nat} (hm : m ≤ k) (hfield : s.eng.tcur + m ≤ s.tb) :
    (s.treeBits k).take m = (List.range m).map fun j => s.tbit (s.eng.tcur + j) := by
  rw [State.treeBits, ← List.map_take, List.take_range, Nat.min_eq_left (by omega)]

theorem encodeRecord_length_le (i : Instr) : (encodeRecord i).length ≤ 9 := by
  cases i with
  | stLeaf v => exact le_rfl
  | _ => exact Nat.le_of_ble_eq_true rfl

/-- Settles O20: the bits the engine looks at begin with the record, so the decoder reads it. -/
theorem stepRunsTheRecord : Obligations.StepRunsTheRecord := by
  intro i s hf hruns hcomplete hfield hbits
  have hprefix : encodeRecord i <+: s.treeBits 9 := by
    rw [← hbits, ← take_treeBits (encodeRecord_length_le i) hfield]
    exact List.take_prefix ..
  obtain ⟨rest, hrest⟩ := hprefix
  rw [step_of_engineRuns hruns, engineMove_hdTree hruns, fetchRecord_of_incomplete hcomplete, ← hrest]
  exact fetched_ok (decodeRecord_encodeRecord i hf rest)

end Sys2Proof.Machine
end

section
/-! PROOFS. O41: the tree field (R75, R76, R153, R154). -/

namespace Sys2Proof.Machine

/-- The bits an encoder writes for a tree: 10 for a `WRAP` and its leaf, `10 m - 1` for `m` leaves (R76). -/
theorem Tree.serialize_length_of_encoderMade {t : Tree} (h : t.encoderMade = true) :
    t.serialize.length = if t.leaves.length = 1 then 10 else 10 * t.leaves.length - 1 := by
  match t, h with
  | .wrap (.leaf b), _ => rfl
  | .internal l r, h =>
    have hlen := Tree.serialize_length_of_plain (t := .internal l r) h
    have hl := l.leaves_length_pos
    have hr := r.leaves_length_pos
    rw [if_neg (by rw [Tree.leaves, List.length_append]; omega)]
    omega

/-- Settles O41: the padded field parses back, and its bits are counted by the leaves. -/
theorem serializedTreeParsesBack : Obligations.SerializedTreeParsesBack :=
  fun _ hmade hleaves => ⟨parseTree_unpackBits_pack hmade hleaves, Tree.serialize_length_of_encoderMade hmade⟩

end Sys2Proof.Machine
end

section
/-! PROOFS. O45: every token of the LZ77 encoder is canonical and the tokens cover the input (R85, R186 to R190). -/

namespace Sys2Proof.Machine

/-! ## What a token covers -/

/-- The number of input bytes a token stands for: a match its length and its next byte, a literal one (R188). -/
def tokenSpan : Instr → Nat
  | .matchRef _ h l _ => l.toNat + (if h then 1 else 0)
  | _ => 1

/-- A canonical token takes at most two bytes for each byte it stands for (R189). -/
theorem length_encodeBytes_le_tokenSpan {i : Instr} (hf : i.format = .token) (hcanonical : i.canonical = true) :
    (encodeBytes i).length ≤ 2 * tokenSpan i := by
  cases i with
  | lit v => exact Nat.le_succ 1
  | esc v => exact le_rfl
  | matchRef d h l nx =>
    have hlen : 3 ≤ l.toNat := by
      simp only [Instr.canonical, Bool.and_eq_true, decide_eq_true_eq] at hcanonical
      omega
    have hspan : l.toNat ≤ tokenSpan (.matchRef d h l nx) := Nat.le_add_right ..
    simp only [encodeBytes, List.length_cons, List.length_nil]
    omega
  | _ => cases hf

theorem length_flatMap_encodeBytes_le {tokens : List Instr}
    (h : ∀ i ∈ tokens, i.canonical = true ∧ i.format = .token) :
    (tokens.flatMap encodeBytes).length ≤ 2 * (tokens.map tokenSpan).sum := by
  rw [List.length_flatMap, ← List.sum_map_mul_left]
  exact List.sum_le_sum fun i hi => length_encodeBytes_le_tokenSpan (h i hi).2 (h i hi).1

/-! ## One step -/

/-- What one token of the encoder must be: canonical, and standing for the input from `pos` to `next`. -/
def CanonicalStep (pos : Nat) (token : Instr) (next : Nat) : Prop :=
  token.canonical = true ∧ next = pos + tokenSpan token

/-- A literal is escaped exactly where its byte is a marker (R186). -/
theorem canonicalStep_literalToken (pos : Nat) (b : Byte) : CanonicalStep pos (literalToken b) (pos + 1) := by
  rw [literalToken]
  split
  · next h => exact ⟨by rcases h with rfl | rfl <;> rfl, rfl⟩
  · next h =>
    rcases firstByte_cases b with rfl | rfl | hb
    · exact absurd (.inl rfl) h
    · exact absurd (.inr rfl) h
    · exact ⟨decide_eq_true hb, rfl⟩

/-- A match of the finder is in the ranges of the format, and its fields hold it (R85, R187). -/
theorem canonicalStep_matchToken {input : List Byte} {pos : Nat} {m : Best} (hm : m.IsMatchAt input pos)
    (hlen : Config.minMatchLength ≤ m.len) (next : Option Byte) :
    CanonicalStep pos (matchToken m next) (pos + m.len + next.toList.length) := by
  have hdist : m.dist ≤ 4096 := hm.dist_le_window
  have hlen18 : m.len ≤ 18 := hm.len_le
  have hlen3 : 3 ≤ m.len := hlen
  have hd : (BitVec.ofNat 16 m.dist).toNat = m.dist := Nat.mod_eq_of_lt (by omega)
  have hl : (BitVec.ofNat 7 m.len).toNat = m.len := Nat.mod_eq_of_lt (by omega)
  have hone := hm.one_le_dist
  have hranges : (matchToken m next).canonical = true := by
    cases next with
    | none => simp [matchToken, Instr.canonical, hd, hl, hone, hdist, hlen3, hlen18]
    | some b => simp [matchToken, Instr.canonical, hd, hl, hone, hdist, hlen3, hlen18]
  have hspan : tokenSpan (matchToken m next) = m.len + next.toList.length := by
    cases next with
    | none => exact congrArg (· + 0) hl
    | some b => exact congrArg (· + 1) hl
  exact ⟨hranges, by rw [hspan, Nat.add_assoc]⟩

theorem encoderStep_of_length_le {input : List Byte} {pos : Nat} (h : input.length ≤ pos) :
    encoderStep input pos = none := by
  rw [encoderStep, List.getElem?_eq_none h]

theorem lt_length_of_encoderStep {input : List Byte} {pos : Nat} {e : EncoderStep}
    (h : encoderStep input pos = some e) : pos < input.length := by
  by_contra hge
  cases (encoderStep_of_length_le (Nat.le_of_not_lt hge)).symm.trans h

/-- Every step of the encoder writes a canonical token that stands for what the step passes (R188). -/
theorem encoderStep_canonical {input : List Byte} {pos : Nat} {e : EncoderStep} (h : encoderStep input pos = some e) :
    CanonicalStep pos e.token e.next := by
  have hpos := lt_length_of_encoderStep h
  simp only [encoderStep, List.getElem?_eq_getElem hpos] at h
  split at h
  · next hlen =>
    have hm := findLongestMatch_isMatchAt hpos.le hlen
    split at h
    · next hnext =>
      have hlt : pos + (findLongestMatch input pos).len < input.length := by simpa [hasNextFlag] using hnext
      rw [List.getElem?_eq_getElem hlt] at h
      cases h
      exact canonicalStep_matchToken hm hlen (some _)
    · cases h
      exact canonicalStep_matchToken hm hlen none
  · cases h
    exact canonicalStep_literalToken pos _

/-! ## The token stream -/

theorem mem_lz77Tokens {input : List Byte} {fuel pos : Nat} {i : Instr} (h : i ∈ lz77Tokens input fuel pos) :
    i.canonical = true ∧ i.format = .token := by
  induction fuel generalizing pos with
  | zero => cases h
  | succ fuel ih =>
    rw [lz77Tokens] at h
    split at h
    · cases h
    · next e he =>
      rcases List.mem_cons.1 h with rfl | h
      · obtain ⟨e', he', hf, -⟩ := encoderStep_covers (lt_length_of_encoderStep he)
        cases he.symm.trans he'
        exact ⟨(encoderStep_canonical he).1, hf⟩
      · exact ih h

/-- From a position on, the tokens stand for the rest of the input. -/
theorem sum_tokenSpan_lz77Tokens {input : List Byte} (fuel pos : Nat) (hpos : pos ≤ input.length)
    (hfuel : input.length ≤ pos + fuel) : pos + ((lz77Tokens input fuel pos).map tokenSpan).sum = input.length := by
  induction fuel generalizing pos with
  | zero => exact Nat.le_antisymm hpos hfuel
  | succ fuel ih =>
    rcases hpos.eq_or_lt with rfl | hlt
    · rw [lz77Tokens, encoderStep_of_length_le le_rfl]
      rfl
    · obtain ⟨e, he, -, -, hnext, hle, -⟩ := encoderStep_covers hlt
      have hrest := ih e.next hle (by omega)
      have hspan := (encoderStep_canonical he).2
      simp only [lz77Tokens, he, List.map_cons, List.sum_cons]
      omega

/-- Settles O45: the tokens step by step, and their size by what they stand for. -/
theorem encoderTokensAreCanonical : Obligations.EncoderTokensAreCanonical := by
  intro input
  have hsum := sum_tokenSpan_lz77Tokens (input := input) input.length 0 (Nat.zero_le _) (Nat.zero_add _).ge
  have hsize := length_flatMap_encodeBytes_le fun i (hi : i ∈ lz77Tokens input input.length 0) => mem_lz77Tokens hi
  rw [Nat.zero_add] at hsum
  refine ⟨fun i hi => mem_lz77Tokens hi, hsum, ?_⟩
  rw [lz77Encode, List.length_append, be32_length]
  omega

end Sys2Proof.Machine
end

section
/-! PROOFS. O35, O39: the counts of the input, their sum and their number, and `TOTAL_BITS` (R100, R109). -/

namespace Sys2Proof.Machine

theorem sum_toList_bump (freq : Vector Nat 256) (b : Byte) : (bump freq b).toList.sum = freq.toList.sum + 1 := by
  have hlen : b.toNat < freq.toList.length := by simpa using b.isLt
  have hsplit := List.sum_take_add_sum_drop freq.toList b.toNat
  rw [List.drop_eq_getElem_cons hlen, List.sum_cons, Vector.getElem_toList] at hsplit
  rw [bump, Vector.toList_set, List.sum_set, if_pos hlen]
  omega

/-- The counts add up to the length of the input (R100). -/
theorem sum_toList_countFrequencies (input : List Byte) : (countFrequencies input).toList.sum = input.length := by
  have hfold : ∀ freq : Vector Nat 256, (input.foldl bump freq).toList.sum = freq.toList.sum + input.length := by
    induction input with
    | nil => exact fun freq => rfl
    | cons b input ih =>
      intro freq
      rw [List.foldl_cons, ih, sum_toList_bump, List.length_cons]
      omega
  rw [countFrequencies, hfold, Vector.toList_replicate, List.sum_replicate, smul_zero, Nat.zero_add]

/-- No more entries of a table are positive than their sum. -/
theorem length_filter_pos_le_sum (counts : List Nat) : (counts.filter (0 < ·)).length ≤ counts.sum :=
  (List.length_le_sum_of_one_le _ fun _ hn => of_decide_eq_true (List.mem_filter.1 hn).2).trans
    (List.filter_sublist.sum_le_sum fun _ _ => Nat.zero_le _)

/-- Settles O35: each count is positive for a byte of the input, and the counts add up to its length. -/
theorem frequenciesCountTheInput : Obligations.FrequenciesCountTheInput := by
  intro input hne
  refine ⟨countFrequencies_getElem input, sum_toList_countFrequencies input, ?_, le_min ?_ ?_⟩
  · obtain ⟨b, hb⟩ := List.exists_mem_of_ne_nil input hne
    have hpos : 0 < (countFrequencies input)[b.toNat] := by rwa [countFrequencies_getElem, List.count_pos_iff]
    exact List.length_pos_of_mem
      (List.mem_filter.2 ⟨Vector.mem_toList_iff.2 (Vector.getElem_mem b.isLt), decide_eq_true hpos⟩)
  · exact (length_filter_pos_le_sum _).trans_eq (sum_toList_countFrequencies input)
  · exact (List.length_filter_le _ _).trans_eq (Vector.length_toList ..)

/-- Settles O39: the sum over the byte values is the sum over the input. -/
theorem totalBitsIsTheCodeLength : Obligations.TotalBitsIsTheCodeLength := totalBitsOf_countFrequencies

end Sys2Proof.Machine
end

section
/-! PROOFS. O36: the queue's order is linear, and sifting repairs a heap that is broken around one place only (R102,
R104). -/

namespace Sys2Proof.Machine

/-! ## The order -/

/-- The pair that the order of the queue compares (R104). -/
def orderKey (e : PQEntry) : ℕ ×ₗ ℕ := toLex (e.weight, e.idx)

theorem before_iff {x y : PQEntry} : before x y = true ↔ orderKey x < orderKey y := by
  simp [before, orderKey, Prod.Lex.toLex_lt_toLex]

theorem before_eq_false_iff {x y : PQEntry} : before x y = false ↔ orderKey y ≤ orderKey x := by
  rw [← Bool.not_eq_true, before_iff, not_lt]

/-- The entry at place `j`, if both places have one, is not before the entry at place `i`. -/
def InOrder (h : List PQEntry) (i j : Nat) : Prop :=
  ∀ x y, h[i]? = some x → h[j]? = some y → orderKey x ≤ orderKey y

theorem inOrder_iff {h : List PQEntry} {i j : Nat} {x y : PQEntry} (hi : h[i]? = some x) (hj : h[j]? = some y) :
    InOrder h i j ↔ orderKey x ≤ orderKey y := by
  simp [InOrder, hi, hj]

theorem inOrder_self (h : List PQEntry) (i : Nat) : InOrder h i i := fun _ _ hx hy =>
  (congrArg orderKey (Option.some.inj (hx.symm.trans hy))).le

/-- What a comparison says of the places of the two entries. -/
theorem inOrder_of_before {h : List PQEntry} {i j : Nat} {x y : PQEntry} (hi : h[i]? = some x) (hj : h[j]? = some y)
    (hbefore : before x y = true) : InOrder h i j :=
  (inOrder_iff hi hj).2 (before_iff.1 hbefore).le

theorem inOrder_of_not_before {h : List PQEntry} {i j : Nat} {x y : PQEntry} (hi : h[i]? = some x)
    (hj : h[j]? = some y) (hbefore : ¬ before y x = true) : InOrder h i j :=
  (inOrder_iff hi hj).2 (before_eq_false_iff.1 (Bool.eq_false_of_not_eq_true hbefore))

theorem inOrder_of_length_le {h : List PQEntry} {i j : Nat} (hj : h.length ≤ j) : InOrder h i j := fun x y _ hy => by
  rw [List.getElem?_eq_none hj] at hy
  cases hy

theorem InOrder.trans {h : List PQEntry} {i j k : Nat} (hj : j < h.length) (hij : InOrder h i j)
    (hjk : InOrder h j k) : InOrder h i k := fun x z hx hz =>
  have hy := List.getElem?_eq_getElem hj
  (hij x _ hx hy).trans (hjk _ z hy hz)

/-- Places that hold nothing new are in order as before. -/
theorem InOrder.of_getElem? {h h' : List PQEntry} {i j : Nat} (hij : InOrder h i j)
    (hi : ∀ x, h'[i]? = some x → h[i]? = some x) (hj : ∀ x, h'[j]? = some x → h[j]? = some x) : InOrder h' i j :=
  fun x y hx hy => hij x y (hi x hx) (hj y hy)

theorem getElem?_swapAt {h : List PQEntry} {j k : Nat} (hj : j < h.length) (hk : k < h.length) (i : Nat) :
    (swapAt h j k)[i]? = h[Equiv.swap j k i]? := by
  rw [swapAt, List.getElem?_eq_getElem hj, List.getElem?_eq_getElem hk]
  simp only [List.getElem?_set, List.length_set, hj, hk, if_true]
  by_cases hik : i = k
  · rw [hik, if_pos rfl, Equiv.swap_apply_right, List.getElem?_eq_getElem hj]
  · rw [if_neg (Ne.symm hik)]
    by_cases hij : i = j
    · rw [hij, if_pos rfl, Equiv.swap_apply_left, List.getElem?_eq_getElem hk]
    · rw [if_neg (Ne.symm hij), Equiv.swap_apply_of_ne_of_ne hij hik]

theorem inOrder_swapAt {h : List PQEntry} {j k : Nat} (hj : j < h.length) (hk : k < h.length) {a b : Nat} :
    InOrder (swapAt h j k) a b ↔ InOrder h (Equiv.swap j k a) (Equiv.swap j k b) := by
  simp only [InOrder, getElem?_swapAt hj hk]

/-! ## Heaps with one place aside -/

/-- Place `c` is a child of place `p` in the binary heap (R102). -/
def IsChild (p c : Nat) : Prop := c = 2 * p + 1 ∨ c = 2 * p + 2

theorem IsChild.lt {p c : Nat} (h : IsChild p c) : p < c := by
  rcases h with rfl | rfl <;> omega

theorem IsChild.parent_unique {p q c : Nat} (hp : IsChild p c) (hq : IsChild q c) : p = q := by
  unfold IsChild at hp hq
  omega

theorem isChild_parent {k : Nat} (hk : k ≠ 0) : IsChild ((k - 1) / 2) k := by
  unfold IsChild
  omega

theorem isHeap_iff {h : List PQEntry} : IsHeap h ↔ ∀ p c, IsChild p c → InOrder h p c := by
  constructor
  · intro hheap p c hpc x y hx hy
    have hparent : (c - 1) / 2 = p := by
      unfold IsChild at hpc
      omega
    exact before_eq_false_iff.1 (hheap c y x (Nat.one_le_of_lt hpc.lt) hy (hparent ▸ hx))
  · intro hord k x y hk hx hy
    have hchild := isChild_parent (Nat.ne_of_gt hk)
    exact before_eq_false_iff.2 (hord _ k hchild y x hy hx)

/-- A heap but for the entry at place `k`; the entry's parent and children are in order with each other too. -/
structure HeapExcept (h : List PQEntry) (k : Nat) : Prop where
  away : ∀ p c, IsChild p c → p ≠ k → c ≠ k → InOrder h p c
  around : ∀ p c, IsChild p k → IsChild k c → InOrder h p c

theorem HeapExcept.isHeap {h : List PQEntry} {k : Nat} (hk : HeapExcept h k)
    (habove : ∀ p, IsChild p k → InOrder h p k) (hbelow : ∀ c, IsChild k c → InOrder h k c) : IsHeap h := by
  refine isHeap_iff.2 fun p c hpc => ?_
  by_cases hp : p = k
  · exact hp ▸ hbelow c (hp ▸ hpc)
  · by_cases hc : c = k
    · exact hc ▸ habove p (hc ▸ hpc)
    · exact hk.away p c hpc hp hc

/-- In a heap no entry is before the one at place 0. -/
theorem IsHeap.inOrder_zero {h : List PQEntry} (hheap : IsHeap h) (i : Nat) : InOrder h 0 i := by
  induction i using Nat.strong_induction_on with
  | _ i ih =>
    by_cases hlen : h.length ≤ i
    · exact inOrder_of_length_le hlen
    · rcases Nat.eq_zero_or_pos i with rfl | hpos
      · exact inOrder_self _ _
      · have hchild := isChild_parent hpos.ne'
        exact (ih _ hchild.lt).trans (hchild.lt.trans (by omega)) (isHeap_iff.1 hheap _ _ hchild)

/-! ## Sifting up -/

/-- A swap with a parent that is not in order moves the broken place up. -/
theorem HeapExcept.swap_up {h : List PQEntry} {p k : Nat} (hk : HeapExcept h k)
    (hpk : IsChild p k) (hlen : k < h.length) (hkp : InOrder h k p) :
    HeapExcept (swapAt h k p) p ∧ ∀ c, IsChild p c → InOrder (swapAt h k p) p c := by
  have hplen := hpk.lt.trans hlen
  have hne := hpk.lt.ne
  simp only [inOrder_swapAt hlen hplen, Equiv.swap_apply_right]
  refine ⟨⟨fun q c hqc hqp hcp => ?_, fun q c hqp hpc => ?_⟩, fun c hpc => ?_⟩
  · rw [inOrder_swapAt hlen hplen]
    have hck : c ≠ k := fun h => hqp (hqc.parent_unique (h ▸ hpk))
    rw [Equiv.swap_apply_of_ne_of_ne hck hcp]
    by_cases hqk : q = k
    · rw [hqk, Equiv.swap_apply_left]
      exact hk.around p c hpk (hqk ▸ hqc)
    · rw [Equiv.swap_apply_of_ne_of_ne hqk hqp]
      exact hk.away q c hqc hqk hck
  · rw [inOrder_swapAt hlen hplen]
    have hqk : q ≠ k := (hqp.lt.trans hpk.lt).ne
    rw [Equiv.swap_apply_of_ne_of_ne hqk hqp.lt.ne]
    have hq := hk.away q p hqp hqk hne
    by_cases hck : c = k
    · rwa [hck, Equiv.swap_apply_left]
    · rw [Equiv.swap_apply_of_ne_of_ne hck hpc.lt.ne']
      exact hq.trans hplen (hk.away p c hpc hne hck)
  · by_cases hck : c = k
    · rwa [hck, Equiv.swap_apply_left]
    · rw [Equiv.swap_apply_of_ne_of_ne hck hpc.lt.ne']
      exact hkp.trans hplen (hk.away p c hpc hne hck)

/-- Sifting up from the place aside gives a heap, where the entries below it are in order (R102). -/
theorem isHeap_siftUp {fuel : Nat} {h : List PQEntry} {k : Nat} (hk : HeapExcept h k)
    (hbelow : ∀ c, IsChild k c → InOrder h k c) (hlen : k < h.length) (hfuel : k < fuel) :
    IsHeap (siftUp fuel h k) := by
  induction fuel generalizing h k with
  | zero => omega
  | succ fuel ih =>
    rw [siftUp]
    by_cases hzero : k = 0
    · rw [if_pos hzero]
      exact hk.isHeap (fun p hp => absurd hp.lt (by omega)) hbelow
    · have hchild := isChild_parent hzero
      have hx := List.getElem?_eq_getElem hlen
      have hy := List.getElem?_eq_getElem (hchild.lt.trans hlen)
      rw [if_neg hzero, hx, hy]
      simp only
      split
      · next hbefore =>
        obtain ⟨hexcept, hbelow'⟩ := hk.swap_up hchild hlen (inOrder_of_before hx hy hbefore)
        exact ih hexcept hbelow' ((swapAt_perm ..).length_eq.symm ▸ hchild.lt.trans hlen) (by omega)
      · next hbefore =>
        refine hk.isHeap (fun p hp => ?_) hbelow
        rw [hp.parent_unique hchild]
        exact inOrder_of_not_before hy hx hbefore

/-- `insert` keeps the heap (R102). -/
theorem isHeap_pqInsert {h : List PQEntry} (hheap : IsHeap h) (e : PQEntry) : IsHeap (pqInsert h e) := by
  have hend {c : Nat} (hc : IsChild h.length c) : (h ++ [e]).length ≤ c := by
    rw [List.length_append]
    exact hc.lt
  have hold {i : Nat} (hi : i ≠ h.length) (x : PQEntry) (hx : (h ++ [e])[i]? = some x) : h[i]? = some x := by
    have hlen := (List.getElem?_eq_some_iff.1 hx).1
    rw [List.length_append, List.length_singleton] at hlen
    rwa [List.getElem?_append_left (by omega)] at hx
  have hexcept : HeapExcept (h ++ [e]) h.length :=
    ⟨fun p c hpc hp hc => (isHeap_iff.1 hheap p c hpc).of_getElem? (hold hp) (hold hc),
      fun p c _ hc => inOrder_of_length_le (hend hc)⟩
  exact isHeap_siftUp hexcept (fun c hc => inOrder_of_length_le (hend hc)) (by simp) (Nat.lt_succ_self _)

/-! ## Sifting down -/

/-- The child that sifting down compares with (R102): it is there if a child is, and no child is before it. -/
theorem lesserChild_spec (h : List PQEntry) (k : Nat) :
    IsChild k (lesserChild h k) ∧
      ∀ c, IsChild k c → InOrder h (lesserChild h k) c ∧ (c < h.length → lesserChild h k < h.length) := by
  unfold lesserChild
  split
  · next x y hx hy =>
    have hlen := (List.getElem?_eq_some_iff.1 hy).1
    split
    · next hbefore =>
      refine ⟨.inr rfl, ?_⟩
      rintro c (rfl | rfl)
      · exact ⟨inOrder_of_before hy hx hbefore, fun _ => hlen⟩
      · exact ⟨inOrder_self _ _, id⟩
    · next hbefore =>
      refine ⟨.inl rfl, ?_⟩
      rintro c (rfl | rfl)
      · exact ⟨inOrder_self _ _, id⟩
      · exact ⟨inOrder_of_not_before hx hy hbefore, by omega⟩
  · next hnone =>
    have hright : h.length ≤ 2 * k + 2 := by
      by_contra hlt
      exact hnone _ _ (List.getElem?_eq_getElem (by omega)) (List.getElem?_eq_getElem (by omega))
    refine ⟨.inl rfl, ?_⟩
    rintro c (rfl | rfl)
    · exact ⟨inOrder_self _ _, id⟩
    · exact ⟨inOrder_of_length_le hright, by omega⟩

/-- A swap with a child that no other is before moves the broken place down. -/
theorem HeapExcept.swap_down {h : List PQEntry} {k m : Nat} (hk : HeapExcept h k) (hkm : IsChild k m)
    (hlen : m < h.length) (hmk : InOrder h m k) (hleast : ∀ c, IsChild k c → InOrder h m c) :
    HeapExcept (swapAt h m k) m ∧ ∀ p, IsChild p m → InOrder (swapAt h m k) p m := by
  have hklen := hkm.lt.trans hlen
  have hne := hkm.lt.ne'
  refine ⟨⟨fun q c hqc hqm hcm => ?_, fun q c hqm hmc => ?_⟩, fun q hqm => ?_⟩
  · rw [inOrder_swapAt hlen hklen]
    by_cases hck : c = k
    · have hqk : q ≠ k := (hck ▸ hqc.lt).ne
      rw [hck, Equiv.swap_apply_right, Equiv.swap_apply_of_ne_of_ne hqm hqk]
      exact hk.around q m (hck ▸ hqc) hkm
    · rw [Equiv.swap_apply_of_ne_of_ne hcm hck]
      by_cases hqk : q = k
      · rw [hqk, Equiv.swap_apply_right]
        exact hleast c (hqk ▸ hqc)
      · rw [Equiv.swap_apply_of_ne_of_ne hqm hqk]
        exact hk.away q c hqc hqk hck
  · have hck : c ≠ k := (hkm.lt.trans hmc.lt).ne'
    rw [hqm.parent_unique hkm, inOrder_swapAt hlen hklen, Equiv.swap_apply_right,
      Equiv.swap_apply_of_ne_of_ne hmc.lt.ne' hck]
    exact hk.away m c hmc hne hck
  · rwa [hqm.parent_unique hkm, inOrder_swapAt hlen hklen, Equiv.swap_apply_right, Equiv.swap_apply_left]

/-- Sifting down from the place aside gives a heap, where the entries above it are in order (R102). -/
theorem isHeap_siftDown {fuel : Nat} {h : List PQEntry} {k : Nat} (hk : HeapExcept h k)
    (habove : ∀ p, IsChild p k → InOrder h p k) (hfuel : h.length ≤ k + fuel) :
    IsHeap (siftDown fuel h k) := by
  induction fuel generalizing h k with
  | zero => exact hk.isHeap habove fun c hc => inOrder_of_length_le (by have := hc.lt; omega)
  | succ fuel ih =>
    obtain ⟨hchild, hleast⟩ := lesserChild_spec h k
    rw [siftDown]
    by_cases hlen : lesserChild h k < h.length
    · have hx := List.getElem?_eq_getElem (hchild.lt.trans hlen)
      have hc := List.getElem?_eq_getElem hlen
      rw [hx, hc]
      simp only
      split
      · next hbefore =>
        obtain ⟨hexcept, habove'⟩ := hk.swap_down hchild hlen (inOrder_of_before hc hx hbefore)
          fun c hc => (hleast c hc).1
        have := hchild.lt
        exact ih hexcept habove' (by rw [(swapAt_perm ..).length_eq]; omega)
      · next hbefore =>
        have hkm := inOrder_of_not_before hx hc hbefore
        exact hk.isHeap habove fun c hc => hkm.trans hlen (hleast c hc).1
    · rw [List.getElem?_eq_none (not_lt.1 hlen)]
      exact hk.isHeap habove fun c hc => inOrder_of_length_le (not_lt.1 (mt (hleast c hc).2 hlen))

/-- The entry that `extractMin` takes out stood at place 0 (R102). -/
theorem getElem?_zero_of_pqExtractMin {h h' : List PQEntry} {m : PQEntry} (heq : pqExtractMin h = some (m, h')) :
    h[0]? = some m := by
  match h, heq with
  | [r], rfl | r :: e :: rest, rfl => rfl

/-- `extractMin` keeps the heap (R102). -/
theorem isHeap_of_pqExtractMin {h h' : List PQEntry} {m : PQEntry} (hheap : IsHeap h)
    (heq : pqExtractMin h = some (m, h')) : IsHeap h' := by
  match h, heq with
  | [r], rfl => exact isHeap_iff.2 fun p c _ => inOrder_of_length_le (Nat.zero_le _)
  | r :: e :: rest, rfl =>
    have hnoParent {p : Nat} (hp : IsChild p 0) : False := absurd hp.lt (Nat.not_lt_zero p)
    refine isHeap_siftDown ⟨fun p c hpc hp hc => ?_, fun p _ hp => (hnoParent hp).elim⟩
      (fun p hp => (hnoParent hp).elim) (Nat.zero_add _).ge
    have hold {i : Nat} (hi : i ≠ 0) (x : PQEntry)
        (hx : ((r :: e :: rest).dropLast.set 0 ((e :: rest).getLast (by simp)))[i]? = some x) :
        (r :: e :: rest)[i]? = some x := by
      rw [List.getElem?_set_ne hi.symm, List.getElem?_dropLast] at hx
      split at hx
      · exact hx
      · cases hx
    exact (isHeap_iff.1 hheap p c hpc).of_getElem? (hold hp) (hold hc)

/-- Settles O36: place 0 holds the least entry, and each sift repairs what the operation has changed. -/
theorem queueExtractsTheLeast : Obligations.QueueExtractsTheLeast := by
  refine ⟨fun h m h' hheap heq => ⟨isHeap_of_pqExtractMin hheap heq, pqExtractMin_perm heq, fun e he => ?_⟩,
    fun h => pqExtractMin_eq_none, fun h e hheap => ⟨isHeap_pqInsert hheap e, pqInsert_perm h e⟩⟩
  obtain ⟨i, hi⟩ := List.mem_iff_getElem?.1 ((pqExtractMin_perm heq).mem_iff.1 (List.mem_cons_of_mem m he))
  exact before_eq_false_iff.2 (hheap.inOrder_zero i m e (getElem?_zero_of_pqExtractMin heq) hi)

end Sys2Proof.Machine
end

section
/-! PROOFS. O37: the tree builder keeps the total weight of its trees, and its last entry is its newest node (R103,
R105, R106, R108). -/

namespace Sys2Proof.Machine

/-- The weights of the queue's entries are those of their nodes and add up to `n`, and an entry that is the only one
stands for the newest node. -/
structure Forest.Weighs (f : Forest) (n : Nat) : Prop where
  total : (f.pq.map (·.weight)).sum = n
  recorded : ∀ e ∈ f.pq, (f.node[e.idx]?).map (·.weight) = some e.weight
  newest : ∀ e, f.pq = [e] → e.idx + 1 = f.node.length

/-- A new node and its entry join the forest: leaf creation and the merge (R103, R105). -/
theorem Forest.weighs_push {node : List Node} {pq : List PQEntry}
    (hrecorded : ∀ e ∈ pq, (node[e.idx]?).map (·.weight) = some e.weight) (nd : Node) :
    Forest.Weighs { node := node ++ [nd], pq := pqInsert pq { weight := nd.weight, idx := node.length } }
      (nd.weight + (pq.map (·.weight)).sum) := by
  have hperm := pqInsert_perm pq { weight := nd.weight, idx := node.length }
  refine ⟨(hperm.map _).sum_eq, fun e he => ?_, fun e he => ?_⟩
  · rcases List.mem_cons.1 (hperm.mem_iff.1 he) with rfl | he
    · rw [List.getElem?_concat_length, Option.map_some]
    · have hold := hrecorded e he
      obtain ⟨old, hget, -⟩ := Option.map_eq_some_iff.1 hold
      rwa [List.getElem?_append_left (List.getElem?_eq_some_iff.1 hget).1]
  · change pqInsert pq { weight := nd.weight, idx := node.length } = [e] at he
    obtain ⟨rfl, -⟩ := List.cons.inj (List.perm_singleton.1 (he ▸ hperm.symm))
    exact (List.length_append (as := node) (bs := [nd])).symm

/-- A merge takes two entries out of the queue and puts in one with both weights (R105). -/
theorem Forest.merge_cases {f f' : Forest} (h : f.merge = some f') :
    ∃ a b pq, (a :: b :: pq).Perm f.pq ∧
      f' = { node := f.node ++ [{ shape := .internal a.idx b.idx, weight := a.weight + b.weight }]
             pq := pqInsert pq { weight := a.weight + b.weight, idx := f.node.length } } := by
  rw [Forest.merge] at h
  split at h
  · cases h
  · next a pq1 ha =>
    split at h
    · cases h
    · next b pq2 hb =>
      exact ⟨a, b, pq2, ((pqExtractMin_perm hb).cons a).trans (pqExtractMin_perm ha), (Option.some.inj h).symm⟩

/-- A merge keeps the total weight (R105). -/
theorem Forest.Weighs.merge {f f' : Forest} {n : Nat} (h : f.Weighs n) (hmerge : f.merge = some f') : f'.Weighs n := by
  obtain ⟨a, b, pq, hperm, rfl⟩ := Forest.merge_cases hmerge
  have htotal : a.weight + b.weight + (pq.map (·.weight)).sum = n := by
    rw [← h.total, ← (hperm.map _).sum_eq, List.map_cons, List.map_cons, List.sum_cons, List.sum_cons, Nat.add_assoc]
  have hrest : ∀ e ∈ pq, (f.node[e.idx]?).map (·.weight) = some e.weight := fun e he =>
    h.recorded e (hperm.mem_iff.1 (by simp [he]))
  exact htotal ▸ Forest.weighs_push hrest { shape := .internal a.idx b.idx, weight := a.weight + b.weight }

/-- Leaf creation gives the forest the sum of the counts as its weight (R103). -/
theorem makeLeaves_weighs (freq : Vector Nat 256) : (makeLeaves freq).Weighs freq.toList.sum := by
  have hfold : ∀ (values : List Nat) (f : Forest) (n : Nat), f.Weighs n →
      (values.foldl (fun f b => if freq.toList.getD b 0 > 0 then f.addLeaf b (freq.toList.getD b 0) else f) f).Weighs
        (n + (values.map fun b => freq.toList.getD b 0).sum) := by
    intro values
    induction values with
    | nil => exact fun f n h => h
    | cons b values ih =>
      intro f n h
      rw [List.foldl_cons, List.map_cons, List.sum_cons, ← Nat.add_assoc]
      refine ih _ _ ?_
      split
      · rw [← h.total, Nat.add_comm]
        exact Forest.weighs_push h.recorded { shape := .leaf (BitVec.ofNat 8 b), weight := freq.toList.getD b 0 }
      · next hzero => rwa [Nat.eq_zero_of_not_pos hzero]
  have htable : (List.range 256).map (fun b => freq.toList.getD b 0) = freq.toList :=
    List.ext_getElem (by simp) fun b _ hb => by
      rw [List.getElem_map, List.getElem_range, List.getD_eq_getElem _ _ hb]
  have hall := hfold (List.range 256) { node := [], pq := [] } 0 ⟨rfl, nofun, nofun⟩
  rwa [htable, Nat.zero_add] at hall

/-- The loop of R105 ends with one tree, which has all the leaves and all the weight. -/
theorem Forest.buildLoop_eq_finish {f : Forest} {bytes : List Byte} {n : Nat} (hcovers : f.Covers bytes)
    (hweighs : f.Weighs n) (fuel : Nat) (hpos : 1 ≤ f.pq.length) (hfuel : f.pq.length ≤ fuel) :
    ∃ f' : Forest, buildLoop fuel f = f'.finish ∧ f'.Covers bytes ∧ f'.Weighs n ∧ f'.pq.length = 1 := by
  induction fuel generalizing f with
  | zero => omega
  | succ fuel ih =>
    rw [buildLoop]
    split
    · next hgt =>
      obtain ⟨f', hmerge, hcovers', hlen⟩ := hcovers.merge hgt
      rw [hmerge, Option.bind_some]
      exact ih hcovers' (hweighs.merge hmerge) (by omega) (by omega)
    · exact ⟨f, rfl, hcovers, hweighs, by omega⟩

/-- The root is the last node, with all the weight; a node is added where there is only one (R105, R106). -/
theorem Forest.Weighs.finish {f : Forest} {n root : Nat} {node : List Node} (h : f.Weighs n) (hpq : f.pq.length = 1)
    (hfinish : f.finish = some (node, root)) :
    root + 1 = node.length ∧ node.length = (if f.node.length = 1 then 2 else f.node.length) ∧
      (node[root]?).map (·.weight) = some n := by
  obtain ⟨fnode, pq⟩ := f
  obtain ⟨a, rfl⟩ := List.length_eq_one_iff.1 hpq
  have htotal : a.weight = n := by simpa using h.total
  simp only [Forest.finish, pqExtractMin] at hfinish
  split at hfinish
  · next hone =>
    obtain ⟨rfl, rfl⟩ := Prod.mk.inj (Option.some.inj hfinish)
    have hlen : fnode.length = 1 := hone
    refine ⟨by simp [hlen], by simp [hlen], ?_⟩
    rw [List.getElem?_append_right hlen.le, hlen, ← htotal]
    rfl
  · next hne =>
    obtain ⟨rfl, rfl⟩ := Prod.mk.inj (Option.some.inj hfinish)
    exact ⟨h.newest a rfl, (if_neg hne).symm, htotal ▸ h.recorded a List.mem_cons_self⟩

/-- The encoder's only tree with one leaf (R106). -/
theorem Tree.eq_wrap_leaf_of_leaves_eq_singleton {t : Tree} (hmade : t.encoderMade = true) {b : Byte}
    (h : t.leaves = [b]) : t = .wrap (.leaf b) := by
  match t, hmade with
  | .wrap (.leaf a), _ => rw [List.singleton_inj.1 h]
  | .internal l r, _ =>
    have hl := l.leaves_length_pos
    have hr := r.leaves_length_pos
    have hlen := congrArg List.length h
    rw [Tree.leaves, List.length_append, List.length_singleton] at hlen
    omega

/-- Settles O37: the leaves are the present bytes, `2 m - 1` nodes hold a tree of `m` of them, and the loop keeps the
weight that leaf creation gives, the sum of the counts. -/
theorem buildTreeHasEachByteOnce : Obligations.BuildTreeHasEachByteOnce := by
  intro input hne
  have hcovers := makeLeaves_covers (countFrequencies input)
  have hweighs := makeLeaves_weighs (countFrequencies input)
  rw [sum_toList_countFrequencies] at hweighs
  obtain ⟨t, hbuild, hmade, hnodup, hmem, -⟩ := exists_buildTree hne
  have hpos : 1 ≤ (makeLeaves (countFrequencies input)).pq.length := by
    by_contra hempty
    have htotal := hweighs.total
    rw [List.length_eq_zero_iff.1 (Nat.lt_one_iff.1 (not_le.1 hempty))] at htotal
    exact hne (List.length_eq_zero_iff.1 htotal.symm)
  obtain ⟨f, hloop, hcovers, hweighs, hone⟩ := Forest.buildLoop_eq_finish hcovers hweighs 256 hpos
    (hcovers.length_pq_le.trans (length_presentBytes_le _))
  obtain ⟨node, root, t', hfinish, hread, -, hleaves⟩ := hcovers.finish hone
  rw [hfinish] at hloop
  obtain rfl : t = t' := by
    rw [buildTree, hloop, Option.bind_some, hread] at hbuild
    exact (Option.some.inj hbuild).symm
  obtain ⟨hroot, hnode, hweight⟩ := hweighs.finish hone hfinish
  have hsize := hcovers.size
  rw [← hleaves.length_eq, hone] at hsize
  refine ⟨t, node, root, hloop, hbuild, hmade, hnodup, hmem, fun b hb => ?_, fun htwo => ?_, hweight⟩
  · rw [hb, List.length_singleton] at hsize
    rw [if_pos (by omega)] at hnode
    exact ⟨Tree.eq_wrap_leaf_of_leaves_eq_singleton hmade hb, hnode, by omega⟩
  · rw [if_neg (by omega)] at hnode
    exact ⟨by omega, by omega⟩

end Sys2Proof.Machine
end

section
/-! PROOFS. O14: an operation on the empty input (R185, R231). -/

namespace Sys2Proof.Machine

/-- The empty input is delivered at once (R185, R231). -/
theorem startOperation_of_empty {s : State} (hzero : s.inLen = 0) (p : Phase) :
    s.startOperation p = s.accepted.deliver [] true := by
  have hn : s.n = 0 := congrArg BitVec.toNat hzero
  rcases startOperation_cases s p with ⟨hlt, -⟩ | ⟨-, -, heq⟩ | ⟨-, hne, -⟩
  · omega
  · exact heq
  · exact absurd hzero hne

/-- Settles O14: the start of an operation delivers the empty result, flagged `EMPTY`. -/
theorem emptyInputIsIdentity : Obligations.EmptyInputIsIdentity := by
  intro op s hidle hzero
  refine ⟨_, exec_command_idle op hidle, ?_⟩
  rw [startOperation_of_empty hzero]
  exact ⟨rfl, rfl, rfl, rfl, rfl, rfl, rfl, rfl, rfl, fun _ => rfl⟩

end Sys2Proof.Machine
end

section
/-! PROOFS. O40: the accumulator of the packer streams the bytes of `Pack` (R131). -/

namespace Sys2Proof

theorem bitsByte_append_singleton (bs : List Bool) (bit : Bool) : bitsByte (bs ++ [bit]) = shiftIn (bitsByte bs) bit :=
  List.foldl_concat ..

/-- Padding with zeros is a shift to the left (R131). -/
theorem bitsByte_append_replicate (bs : List Bool) (k : Nat) :
    bitsByte (bs ++ List.replicate k false) = bitsByte bs <<< k := by
  induction k with
  | zero => simp
  | succ k ih =>
    rw [List.replicate_succ', ← List.append_assoc, bitsByte_append_singleton, ih, shiftIn, BitVec.shiftLeft_add]
    exact BitVec.or_zero

theorem unpackBits_append (xs ys : List Byte) : unpackBits (xs ++ ys) = unpackBits xs ++ unpackBits ys :=
  List.flatMap_append

theorem unpackBits_singleton (b : Byte) : unpackBits [b] = byteBits b := List.flatMap_singleton ..

/-- A byte sequence is determined by its bits (R52). -/
theorem unpackBits_injective : Function.Injective unpackBits := by
  intro xs ys h
  have hlen : xs.length = ys.length := by
    have := congrArg List.length h
    rw [unpackBits_length, unpackBits_length] at this
    omega
  induction xs generalizing ys with
  | nil => exact (List.length_eq_zero_iff.1 hlen.symm).symm
  | cons x xs ih =>
    obtain ⟨y, ys, rfl⟩ := List.exists_cons_of_length_eq_add_one hlen.symm
    obtain ⟨hbyte, hrest⟩ := List.append_inj h rfl
    rw [ih hrest (Nat.succ.inj hlen), ← bitsByte_byteBits x, hbyte, bitsByte_byteBits]

end Sys2Proof

namespace Sys2Proof.Machine

/-- The packer has taken these bits: those of the bytes emitted, and then fewer than eight that stand in `ACC`, counted by
`ACC_N` (R35, R131). -/
def Packer.Holds (p : Packer) (bits : List Bool) : Prop :=
  ∃ left : List Bool, left.length = p.accN ∧ p.accN < 8 ∧ p.acc = bitsByte left ∧ unpackBits p.out ++ left = bits

/-- With nothing in `ACC` the packer holds the bits of its bytes. -/
theorem Packer.holds_empty (out : List Byte) : Packer.Holds { acc := 0, accN := 0, out := out } (unpackBits out) :=
  ⟨[], rfl, Nat.zero_lt_succ 7, rfl, List.append_nil _⟩

theorem Packer.Holds.push {p : Packer} {bits : List Bool} (h : p.Holds bits) (bit : Bool) :
    (p.push bit).Holds (bits ++ [bit]) := by
  obtain ⟨left, hlen, hlt, hacc, rfl⟩ := h
  have hlen' : (left ++ [bit]).length = p.accN + 1 := by rw [List.length_append, hlen, List.length_singleton]
  rw [Packer.push, hacc, ← bitsByte_append_singleton, List.append_assoc]
  split
  · next hfull =>
    have hbyte : byteBits (bitsByte (left ++ [bit])) = left ++ [bit] := byteBits_bitsByte (hlen'.trans hfull)
    simpa only [unpackBits_append, unpackBits_singleton, hbyte] using
      Packer.holds_empty (p.out ++ [bitsByte (left ++ [bit])])
  · exact ⟨left ++ [bit], hlen', by simp only; omega, rfl, rfl⟩

theorem Packer.Holds.foldl_push {p : Packer} {bits : List Bool} (h : p.Holds bits) (more : List Bool) :
    (more.foldl Packer.push p).Holds (bits ++ more) := by
  induction more generalizing p bits with
  | nil => rwa [List.append_nil]
  | cons bit more ih =>
    rw [List.append_cons]
    exact ih (h.push bit)

/-- `ACC_N` counts the bits left over (R131). -/
theorem Packer.Holds.accN_eq {p : Packer} {bits : List Bool} (h : p.Holds bits) : p.accN = bits.length % 8 := by
  obtain ⟨left, hlen, hlt, -, rfl⟩ := h
  rw [List.length_append, unpackBits_length]
  omega

/-- The final flush fills the last byte with zeros (R131). -/
theorem Packer.Holds.unpackBits_flush {p : Packer} {bits : List Bool} (h : p.Holds bits) :
    unpackBits p.flush = bits ++ List.replicate (padCount bits.length) false := by
  have hcount := h.accN_eq
  obtain ⟨left, hlen, hlt, hacc, rfl⟩ := h
  rw [Packer.flush, padCount, ← hcount]
  split
  · next hpos =>
    rw [Nat.mod_eq_of_lt (by omega : 8 - p.accN < 8), unpackBits_append, unpackBits_singleton, hacc,
      ← bitsByte_append_replicate, byteBits_bitsByte, List.append_assoc]
    rw [List.length_append, List.length_replicate]
    omega
  · next hzero =>
    obtain rfl := List.length_eq_zero_iff.1 (hlen.trans (by omega))
    rw [show p.accN = 0 by omega, List.append_nil]
    exact (List.append_nil _).symm

/-- After the bytes already emitted, the packer streams the bytes of `Pack` (R131). -/
theorem Packer.flush_foldl_push (out : List Byte) (bits : List Bool) :
    (bits.foldl Packer.push { acc := 0, accN := 0, out := out }).flush = out ++ (pack bits).1 := by
  have hpad : padCount (unpackBits out ++ bits).length = padCount bits.length := by
    rw [List.length_append, unpackBits_length, padCount, padCount, Nat.mul_add_mod]
  apply unpackBits_injective
  rw [((Packer.holds_empty out).foldl_push bits).unpackBits_flush, hpad, unpackBits_append, unpackBits_pack,
    List.append_assoc]

/-- Settles O40: the accumulator holds the bits it has taken, and what it emits unpacks as `Pack` does. -/
theorem packerMatchesPack : Obligations.PackerMatchesPack := by
  intro bits
  have hholds := (Packer.holds_empty []).foldl_push bits
  have hpad : padCount bits.length = 0 ↔ bits.length % 8 = 0 := by
    rw [padCount]
    omega
  exact ⟨pack_length bits, Nat.le_of_lt_succ (padCount_lt _), hpad, unpackBits_pack bits, rfl, hholds.accN_eq,
    Packer.flush_foldl_push [] bits⟩

end Sys2Proof.Machine
end

section
/-! PROOFS. The run of an operation: the engine's moves one after another, and the two ways in which it finishes (R219,
R221, R222). -/

namespace Sys2Proof.Machine

/-- The steps that lead from one state to another without a fault. -/
abbrev Runs : State → State → Prop := Relation.ReflTransGen fun s t => step s = .next t

theorem Runs.exists_run {s t : State} (hrun : Runs s t) : ∃ k, Sys2Proof.core.run k s = .next t := by
  induction hrun using Relation.ReflTransGen.head_induction_on with
  | refl => exact ⟨0, rfl⟩
  | head hstep _ ih =>
    obtain ⟨k, hk⟩ := ih
    refine ⟨k + 1, ?_⟩
    have hstep : Sys2Proof.core.step _ = .next _ := hstep
    simp only [Host.Core.run, hstep, hk]

/-- The block while an operation that was started in `s` runs: its phase and its memories; all that the operation leaves
alone is as in `s` (R215, R219). -/
def State.inPhase (s : State) (p : Phase) (eng : Engine) : State :=
  { s with
    status := { busy := true, done := false, empty := false, err := none }
    outLen := 0, phase := p, eng := eng, hazard := false, obufDirty := [] }

section
variable {s : State}

/-- An idle block with a non-empty input that fits starts the operation (R215). -/
theorem exec_command_of_ready (hs : s.ready) (op : Operation) :
    exec op.command s = .next (s.inPhase op.firstPhase Engine.start) := by
  obtain ⟨hidle, -, -, hpos, hfits⟩ := hs
  rw [exec_command_idle op hidle, startOperation_of_fits hpos hfits]
  rfl

/-- The host waits, so the next move is the engine's (R219). -/
theorem step_inPhase (hs : s.ready) (p : Phase) (eng : Engine) :
    step (s.inPhase p eng) = (engineMove (s.inPhase p eng)).outcome := by
  obtain ⟨-, hq, -⟩ := hs
  exact step_of_engineRuns ⟨rfl, rfl, hq, rfl⟩

/-- A phase that takes one byte of the input in each move takes them all (R100, R132). -/
theorem runs_scan {p : Phase} {take : Engine → Byte → Engine} (hadvance : ∀ eng b, (take eng b).ipos = eng.ipos + 1)
    (hstep : ∀ eng, eng.ipos < s.n → step (s.inPhase p eng) = .next (s.inPhase p (take eng (s.ibufByte eng.ipos))))
    (eng : Engine) : Runs (s.inPhase p eng) (s.inPhase p ((s.input.drop eng.ipos).foldl take eng)) := by
  generalize hrest : s.input.drop eng.ipos = rest
  induction rest generalizing eng with
  | nil => exact .refl
  | cons b rest ih =>
    have hlt : eng.ipos < s.n := by
      by_contra hge
      rw [List.drop_eq_nil_of_le (by rw [State.input_length]; omega)] at hrest
      cases hrest
    rw [State.drop_input_eq_cons hlt] at hrest
    cases hrest
    exact .head (hstep eng hlt) (ih _ (by rw [hadvance]))

/-- An operation that fails has finished with its error (R234). -/
theorem finished_failOperation (s : State) (p : Phase) (eng : Engine) (kind : ErrorKind) :
    Finished s ((s.inPhase p eng).failOperation kind) (.error kind) :=
  ⟨rfl, rfl, rfl, rfl, rfl, rfl⟩

/-- `OBUF` holds what is delivered, where the host has not written to it (R50, R216, R268). -/
theorem obufByte_deliver (hdirty : s.obufDirty = []) {out : List Byte} (empty : Bool) {k : Nat} (hk : k < out.length) :
    (s.deliver out empty).obufByte k = out[k] := by
  have hread := Memory.read?_ofBytes 0 out k
  rw [Nat.zero_add] at hread
  rw [State.obufByte, State.deliver_obuf, hdirty, Memory.forget_nil, hread, List.getElem?_eq_getElem hk, Option.getD_some]

/-- A delivered output that fits has finished the operation: `OUT_LEN` counts it, and `OBUF` holds it (R216). -/
theorem finished_deliver (hs : s.ready) (p : Phase) (eng : Engine) {out : List Byte}
    (hfits : out.length ≤ s.cfg.obufCap) (empty : Bool) :
    Finished s ((s.inPhase p eng).deliver out empty) (.ok (out, empty)) := by
  obtain ⟨-, -, hcfg, -, -⟩ := hs
  have hcap : s.cfg.obufCap ≤ Config.maxLen := by
    simp only [Config.wf, Bool.and_eq_true, decide_eq_true_eq] at hcfg
    exact hcfg.2
  refine ⟨rfl, rfl, rfl, rfl, rfl, toNat_ofNat_length (hfits.trans hcap), List.ext_getElem (by simp) fun k _ hk => ?_⟩
  rw [List.getElem_map, List.getElem_range]
  exact obufByte_deliver rfl empty hk

/-- A run of the engine from the operation's start to a state that has finished with the result of `Exec` (R221, R222). -/
theorem runsToExec_of_runs (hs : s.ready) {op : Operation} {t : State} {r : Except ErrorKind (List Byte × Bool)}
    (hrun : Runs (s.inPhase op.firstPhase Engine.start) t) (hexec : Exec op s.cfg.obufCap s.input = some r)
    (hfinished : Finished s t r) : RunsToExec op s := by
  obtain ⟨k, hk⟩ := hrun.exists_run
  exact ⟨_, k, t, r, exec_command_of_ready hs op, rfl, hk, hexec, hfinished⟩

end

end Sys2Proof.Machine
end

section
/-! PROOFS. O47: `HUFF_ENC` runs phase by phase to the result of `Exec` (R136, R219, R221, R222). -/

namespace Sys2Proof.Machine

/-! ## The two passes over the input -/

/-- What a move of `HE_FREQ` makes of the memories (R100). -/
def Engine.countByte (eng : Engine) (b : Byte) : Engine := { eng with freq := bump eng.freq b, ipos := eng.ipos + 1 }

/-- The packer of the engine (R35). -/
def Engine.packer (eng : Engine) : Packer := { acc := eng.acc, accN := eng.accN, out := eng.out }

/-- What a move of `HE_PACK` makes of the memories (R132). -/
def Engine.packByte (eng : Engine) (b : Byte) : Engine :=
  let q := (codeOf eng.code b).foldl Packer.push eng.packer
  { eng with acc := q.acc, accN := q.accN, out := q.out, ipos := eng.ipos + 1 }

theorem foldl_countByte (input : List Byte) (eng : Engine) :
    input.foldl Engine.countByte eng =
      { eng with freq := input.foldl bump eng.freq, ipos := eng.ipos + input.length } := by
  induction input generalizing eng with
  | nil => rfl
  | cons b input ih =>
    rw [List.foldl_cons, ih, Engine.countByte, List.foldl_cons, List.length_cons, Nat.add_assoc, Nat.add_comm 1]

/-- The second pass goes over the input once and pushes its code bits (R132). -/
theorem foldl_packByte (input : List Byte) (eng : Engine) :
    (input.foldl Engine.packByte eng).packer = (codeBits eng.code input).foldl Packer.push eng.packer ∧
      (input.foldl Engine.packByte eng).ipos = eng.ipos + input.length := by
  induction input generalizing eng with
  | nil => exact ⟨rfl, rfl⟩
  | cons b input ih =>
    obtain ⟨hpacker, hipos⟩ := ih (eng.packByte b)
    have hnext : (eng.packByte b).ipos = eng.ipos + 1 := rfl
    rw [List.foldl_cons, hpacker, hipos, codeBits, codeBits, List.flatMap_cons, List.foldl_append, List.length_cons,
      hnext]
    exact ⟨rfl, by omega⟩

/-! ## The moves -/

section
variable {s : State}

theorem stepBuild_leaves (hnode : s.eng.node = []) (hleaves : (makeLeaves s.eng.freq).node ≠ []) :
    stepBuild s =
      .next { s with eng := { s.eng with node := (makeLeaves s.eng.freq).node, pq := (makeLeaves s.eng.freq).pq } } := by
  rw [stepBuild, if_pos hnode, if_neg hleaves]

theorem stepBuild_merge (hnode : s.eng.node ≠ []) (hgt : s.eng.pq.length > 1) {f : Forest}
    (hmerge : Forest.merge { node := s.eng.node, pq := s.eng.pq } = some f) :
    stepBuild s = .next { s with eng := { s.eng with node := f.node, pq := f.pq } } := by
  rw [stepBuild, if_neg hnode, if_pos hgt, hmerge]

theorem stepBuild_finish (hnode : s.eng.node ≠ []) (hle : ¬s.eng.pq.length > 1) {node : List Node} {root : Nat}
    (hfinish : Forest.finish { node := s.eng.node, pq := s.eng.pq } = some (node, root)) :
    stepBuild s =
      .next { s with eng := { s.eng with node := node, root := root, pq := [] }, phase := .heCodes } := by
  rw [stepBuild, if_neg hnode, if_neg hle, hfinish]

variable {t : Tree}

theorem stepCodes_tree (htree : s.tree = some t) :
    stepCodes s =
      .next
        { s with
          eng := { s.eng with code := deriveCodes t, totalBits := totalBitsOf s.eng.freq (deriveCodes t) }
          phase := .heHeader } := by
  rw [stepCodes, htree]

/-- The size that `HE_HEADER` holds against `OBUF_CAP` (R136, R240). -/
def huffSize (t : Tree) (totalBits : Nat) : Nat := 9 + (pack t.serialize).1.length + payloadBytes totalBits

theorem stepHeHeader_beyond (htree : s.tree = some t) (hbeyond : huffSize t s.eng.totalBits > s.cfg.obufCap) :
    stepHeHeader s = .next (s.failOperation .capacity) := by
  rw [stepHeHeader, htree]
  exact if_pos hbeyond

theorem stepHeHeader_fits (htree : s.tree = some t) (hfits : ¬huffSize t s.eng.totalBits > s.cfg.obufCap) :
    stepHeHeader s =
      .next
        { s with
          eng :=
            { s.eng with
              out := huffHeader s.inLen (pack t.serialize).1 s.eng.totalBits, ipos := 0, acc := 0, accN := 0 }
          phase := .hePack } := by
  rw [stepHeHeader, htree]
  exact if_neg hfits

end

/-! ## The phases -/

section
variable {s : State}

/-- `HE_FREQ` counts the whole input (R100). -/
theorem runs_heFreq (hs : s.ready) :
    Runs (s.inPhase .heFreq Engine.start)
      (s.inPhase .heBuild { Engine.start with freq := countFrequencies s.input, ipos := s.n }) := by
  have hstep (eng : Engine) : step (s.inPhase .heFreq eng) = stepFreq (s.inPhase .heFreq eng) := step_inPhase hs _ eng
  have hscan := runs_scan (take := Engine.countByte) (fun _ _ => rfl) (fun eng hlt => (hstep eng).trans (if_pos hlt))
    Engine.start
  have hcounted : (s.input.drop Engine.start.ipos).foldl Engine.countByte Engine.start =
      { Engine.start with freq := countFrequencies s.input, ipos := s.n } := by
    rw [foldl_countByte, List.length_drop, State.input_length]
    simp only [Engine.start, List.drop_zero, Nat.zero_add, Nat.sub_zero, countFrequencies]
  rw [hcounted] at hscan
  exact hscan.tail ((hstep _).trans (if_neg (lt_irrefl s.n)))

/-- The merges and the root: `HE_BUILD` runs the loop of R105. -/
theorem runs_buildLoop (hs : s.ready) (eng : Engine) {fuel root : Nat} {f : Forest} {node : List Node}
    (hnode : f.node ≠ []) (hloop : buildLoop fuel f = some (node, root)) :
    Runs (s.inPhase .heBuild { eng with node := f.node, pq := f.pq })
      (s.inPhase .heCodes { eng with node := node, root := root, pq := [] }) := by
  induction fuel generalizing f with
  | zero => cases hloop
  | succ fuel ih =>
    have hstep := step_inPhase hs .heBuild { eng with node := f.node, pq := f.pq }
    rw [buildLoop] at hloop
    split at hloop
    · next hgt =>
      obtain ⟨f', hmerge, hloop⟩ := Option.bind_eq_some_iff.1 hloop
      have hnode' : f'.node ≠ [] := by
        obtain ⟨a, b, pq, -, rfl⟩ := Forest.merge_cases hmerge
        exact List.concat_ne_nil _ _
      exact .head (hstep.trans (stepBuild_merge hnode hgt hmerge)) (ih hnode' hloop)
    · next hle => exact .single (hstep.trans (stepBuild_finish hnode hle hloop))

/-- An input with a byte has a leaf (R103, R107). -/
theorem makeLeaves_ne_nil {input : List Byte} (hne : input ≠ []) :
    (makeLeaves (countFrequencies input)).node ≠ [] := by
  intro hnode
  have hcovers := makeLeaves_covers (countFrequencies input)
  have hsize := hcovers.size
  have hle := hcovers.length_pq_le
  obtain ⟨b, hb⟩ := List.exists_mem_of_ne_nil input hne
  have hpos := List.length_pos_of_mem (mem_presentBytes_countFrequencies.2 hb)
  rw [hnode, List.length_nil] at hsize
  omega

theorem input_ne_nil_of_ready (hs : s.ready) : s.input ≠ [] := by
  obtain ⟨-, -, -, hpos, -⟩ := hs
  exact List.ne_nil_of_length_pos (by rwa [State.input_length])

/-- `HE_FREQ` to `HE_CODES`: the code table of the tree of `BuildTree`, and the number of code bits (R100 to R109). -/
theorem runs_to_heHeader (hs : s.ready) {t : Tree} (hbuild : buildTree (countFrequencies s.input) = some t) :
    ∃ eng : Engine, Runs (s.inPhase .heFreq Engine.start) (s.inPhase .heHeader eng) ∧
      (s.inPhase .heHeader eng).tree = some t ∧ eng.code = deriveCodes t ∧
      eng.totalBits = (codeBits (deriveCodes t) s.input).length := by
  obtain ⟨⟨node, root⟩, hloop, hread⟩ := Option.bind_eq_some_iff.1 hbuild
  have hleaves := makeLeaves_ne_nil (input_ne_nil_of_ready hs)
  have hmade := (runs_heFreq hs).tail ((step_inPhase hs .heBuild _).trans (stepBuild_leaves rfl hleaves))
  have hbuilt := hmade.trans (runs_buildLoop hs { Engine.start with freq := countFrequencies s.input, ipos := s.n }
    hleaves hloop)
  exact ⟨_, hbuilt.tail ((step_inPhase hs .heCodes _).trans (stepCodes_tree hread)), hread, rfl,
    totalBitsOf_countFrequencies s.input (deriveCodes t)⟩

/-- `HE_PACK` appends the packed code bits and delivers the result (R132, R136). -/
theorem runs_hePack (hs : s.ready) {eng : Engine} (hipos : eng.ipos = 0) (hacc : eng.acc = 0) (haccN : eng.accN = 0) :
    ∃ eng' : Engine, Runs (s.inPhase .hePack eng)
      ((s.inPhase .hePack eng').deliver (eng.out ++ (pack (codeBits eng.code s.input)).1) false) := by
  have hstep (eng : Engine) : step (s.inPhase .hePack eng) = stepPack (s.inPhase .hePack eng) := step_inPhase hs _ eng
  have hscan := runs_scan (take := Engine.packByte) (fun _ _ => rfl) (fun eng hlt => (hstep eng).trans (if_pos hlt)) eng
  obtain ⟨hpacker, hend⟩ := foldl_packByte s.input eng
  rw [hipos, List.drop_zero] at hscan
  rw [hipos, Nat.zero_add, State.input_length] at hend
  have hflush : (s.input.foldl Engine.packByte eng).packer.flush = eng.out ++ (pack (codeBits eng.code s.input)).1 := by
    rw [hpacker, Engine.packer, hacc, haccN, Packer.flush_foldl_push]
  rw [← hflush]
  exact ⟨_, hscan.tail ((hstep _).trans (if_neg hend.not_lt))⟩

end

/-! ## The result -/

/-- What `HUFF_ENC` gives for the tree of the input (R136). -/
def huffBuffer (input : List Byte) (t : Tree) : List Byte :=
  huffHeader (BitVec.ofNat 32 input.length) (pack t.serialize).1 (codeBits (deriveCodes t) input).length ++
    (pack (codeBits (deriveCodes t) input)).1

theorem huffBuffer_length (input : List Byte) (t : Tree) :
    (huffBuffer input t).length = huffSize t (codeBits (deriveCodes t) input).length := by
  simp only [huffBuffer, huffHeader, huffSize, payloadBytes, List.length_append, be32_length, List.length_singleton,
    pack_length]
  omega

theorem exec_huffEnc {input : List Byte} (hne : input ≠ []) {t : Tree}
    (hbuild : buildTree (countFrequencies input) = some t) (cap : Nat) :
    Exec .huffEnc cap input = some ((within cap (huffBuffer input t)).map (·, false)) := by
  rw [Exec, if_neg hne, huffEncode, hbuild]
  rfl

/-- Settles O47: the first three phases build the tree and the code table of `Exec`; the header phase fails exactly where
the result is beyond `OBUF_CAP`, and otherwise the packer appends the payload to the header. -/
theorem huffEncRunsToExec : Obligations.HuffEncRunsToExec := by
  intro s hs
  obtain ⟨t, hbuild, -⟩ := exists_buildTree (input_ne_nil_of_ready hs)
  obtain ⟨eng, hrun, htree, hcode, hbits⟩ := runs_to_heHeader hs hbuild
  have hexec := exec_huffEnc (input_ne_nil_of_ready hs) hbuild s.cfg.obufCap
  have hlength := huffBuffer_length s.input t
  rw [← hbits] at hlength
  have hstep := step_inPhase hs .heHeader eng
  rw [within, hlength] at hexec
  by_cases hbeyond : huffSize t eng.totalBits > s.cfg.obufCap
  · rw [if_pos hbeyond] at hexec
    exact runsToExec_of_runs hs (hrun.tail (hstep.trans (stepHeHeader_beyond htree hbeyond))) hexec
      (finished_failOperation ..)
  · rw [if_neg hbeyond] at hexec
    obtain ⟨eng', hpack⟩ := runs_hePack hs
      (eng := { eng with out := huffHeader s.inLen (pack t.serialize).1 eng.totalBits, ipos := 0, acc := 0, accN := 0 })
      rfl rfl rfl
    have hout : huffHeader s.inLen (pack t.serialize).1 eng.totalBits ++ (pack (codeBits eng.code s.input)).1 =
        huffBuffer s.input t := by
      rw [huffBuffer, State.input_length, State.n, BitVec.ofNat_toNat, BitVec.setWidth_eq, hbits, hcode]
    rw [hout] at hpack
    exact runsToExec_of_runs hs ((hrun.tail (hstep.trans (stepHeHeader_fits htree hbeyond))).trans hpack) hexec
      (finished_deliver hs _ _ (hlength.trans_le (not_lt.1 hbeyond)) _)

end Sys2Proof.Machine
end

section
/-! PROOFS. O21, O22: the decoding phases read the unit at the front of what is left, and a unit that is not wholly there ends
the operation (R150 to R153, R200, R202). -/

namespace Sys2Proof.Machine

/-! ## What is left of the input -/

section
variable {s : State}

theorem State.input_getElem? {i : Nat} (h : i < s.n) : s.input[i]? = some (s.ibufByte i) := by
  have hi : i < s.input.length := by rwa [State.input_length]
  rw [List.getElem?_eq_getElem hi, State.input_getElem]

/-- The bytes at an address, where they lie in the input. -/
theorem State.ibufBytes_eq_take_drop_input {a k : Nat} (h : a + k ≤ s.n) :
    s.ibufBytes a k = (s.input.drop a).take k := by
  refine List.ext_getElem? fun j => ?_
  rw [List.getElem?_take, List.getElem?_drop]
  split
  · next hj =>
    rw [State.input_getElem? (by omega), State.ibufBytes, List.getElem?_map, List.getElem?_range hj, Option.map_some]
  · next hj => exact List.getElem?_eq_none (by rw [State.ibufBytes_length]; omega)

/-- What a decoder of the input is given at the cursor (R57). -/
theorem State.inputAt_eq_take_drop_input (k : Nat) (h : s.eng.ipos ≤ s.n) :
    s.inputAt k = (s.input.drop s.eng.ipos).take k := by
  have hleft : (s.input.drop s.eng.ipos).length ≤ s.n - s.eng.ipos := by rw [List.length_drop, State.input_length]
  rw [State.inputAt, State.ibufBytes_eq_take_drop_input (by omega), ← List.take_take, List.take_of_length_le hleft]

/-- The tree field as a bit string, `tbit(0) .. tbit(TB - 1)` (R153). -/
def State.treeField (s : State) : List Bool := (List.range s.tb).map s.tbit

@[simp] theorem State.treeField_length : s.treeField.length = s.tb := by simp [State.treeField]

theorem State.drop_treeField_eq_cons {j : Nat} (h : j < s.tb) :
    s.treeField.drop j = s.tbit j :: s.treeField.drop (j + 1) := by
  have hj : j < s.treeField.length := by rwa [State.treeField_length]
  rw [List.drop_eq_getElem_cons hj]
  simp [State.treeField]

/-- What the decoder of records is given (R153). -/
theorem State.treeBits_eq_take_drop_treeField (k : Nat) : s.treeBits k = (s.treeField.drop s.eng.tcur).take k := by
  refine List.ext_getElem? fun j => ?_
  rw [List.getElem?_take, List.getElem?_drop, State.treeBits, State.treeField, List.getElem?_map, List.getElem?_map]
  split
  · by_cases hj : s.eng.tcur + j < s.tb
    · rw [List.getElem?_range hj, List.getElem?_range (by omega)]
      rfl
    · rw [List.getElem?_eq_none (by simp; omega), List.getElem?_eq_none (by simp; omega)]
      rfl
  · rw [List.getElem?_eq_none (by simp; omega)]
    rfl

end

/-! ## The decoders where a unit is not wholly there -/

theorem decodeHb_of_short {buf : List Byte} (h : buf.length < 9) : decodeHb buf = .error .shortHuffmanHeader := by
  rw [decodeHb.eq_def, if_pos h]

theorem decodeHb_of_treeBeyond {a b c d e f g h : Byte} {rest : List Byte} (hne : rest ≠ [])
    (hrest : rest.length ≤ (be32Dec e f g h).toNat) :
    decodeHb (a :: b :: c :: d :: e :: f :: g :: h :: rest) = .error .treeBeyondBuffer := by
  have hpos := List.length_pos_iff.2 hne
  rw [decodeHb, if_neg (by simp only [List.length_cons]; omega)]
  simp only [List.drop_eq_nil_of_le hrest]

theorem decodeLb_of_short {buf : List Byte} (h : buf.length < 4) : decodeLb buf = .error .shortLz77Header := by
  match buf, h with
  | [], _ | [_], _ | [_, _], _ | [_, _, _], _ => rfl

theorem decodeRecord_of_short {bits : List Bool} (h : bits.length < 8) :
    decodeRecord (true :: bits) = .error .truncatedLeaf := by
  rw [decodeRecord, if_pos h]

/-! ## The moves of the decoding phases -/

section
variable {s : State}

theorem step_hdHeader (h : s.engineRuns .hdHeader) : step s = (fetchHb s).outcome := by
  obtain ⟨-, hhazard, -, hphase⟩ := id h
  rw [step_of_engineRuns h, engineMove, if_neg (by rw [hhazard]; decide), hphase]

theorem step_hdWalk (h : s.engineRuns .hdWalk) : step s = stepWalk s := by
  obtain ⟨-, hhazard, -, hphase⟩ := id h
  rw [step_of_engineRuns h, engineMove, if_neg (by rw [hhazard]; decide), hphase]
  rfl

theorem step_ldHeader (h : s.engineRuns .ldHeader) : step s = (fetchLb s).outcome := by
  obtain ⟨-, hhazard, -, hphase⟩ := id h
  rw [step_of_engineRuns h, engineMove, if_neg (by rw [hhazard]; decide), hphase]

theorem step_ldTokens (h : s.engineRuns .ldTokens) (hneed : s.eng.out.length < s.origN) :
    step s = (fetched s .truncatedStream (decodeToken (s.inputAt 5))).outcome := by
  obtain ⟨-, hhazard, -, hphase⟩ := id h
  rw [step_of_engineRuns h, engineMove, if_neg (by rw [hhazard]; decide), hphase]
  exact congrArg Move.outcome (if_neg (Nat.not_le.2 hneed))

/-- `HD_TREE` decodes the next record of the tree field (R153). -/
theorem step_hdTree (h : s.engineRuns .hdTree) (hopen : s.treeComplete = false) :
    step s = (fetched s .corruptTree (decodeRecord ((s.treeField.drop s.eng.tcur).take 9))).outcome := by
  rw [step_of_engineRuns h, engineMove_hdTree h, fetchRecord_of_incomplete hopen, State.treeBits_eq_take_drop_treeField]

theorem exec_record_of_noRoom {i : Instr} (hi : i.format = .st) (hroom : s.noRoomForRecord = true) :
    exec i s = .next (s.failOperation .corruptTree) := by
  cases i with
  | stLeaf v => exact execStLeaf_of_noRoom ((noRoomForRecord_iff.1 hroom).imp_left fun h => by omega) v
  | stNode => exact if_pos hroom
  | _ => cases hi

/-- Without a marker bit, or with 511 nodes in use, the tree is corrupt whatever follows (R153, R155). -/
theorem step_hdTree_of_noRoom (h : s.engineRuns .hdTree) (hopen : s.treeComplete = false)
    (hroom : s.noRoomForRecord = true) : step s = .next (s.failOperation .corruptTree) := by
  rw [step_hdTree h hopen]
  cases hdecode : decodeRecord ((s.treeField.drop s.eng.tcur).take 9) with
  | error e => exact fetched_error rfl
  | ok r => exact (fetched_ok rfl).trans (exec_record_of_noRoom (decodeRecord_format hdecode) hroom)

/-- A leaf whose byte value is not wholly in the tree field (R153). -/
theorem step_hdTree_of_truncatedLeaf (h : s.engineRuns .hdTree) (hopen : s.treeComplete = false) {bits : List Bool}
    (hbits : s.treeField.drop s.eng.tcur = true :: bits) (hshort : bits.length < 8) :
    step s = .next (s.failOperation .corruptTree) := by
  rw [step_hdTree h hopen, hbits, List.take_succ_cons]
  exact fetched_error (decodeRecord_of_short (by rw [List.length_take]; omega))

/-- A buffer whose tree field and padding count are not wholly there is rejected (R150). -/
theorem decodeHb_input_of_treeBeyond (hhead : 9 ≤ s.n)
    (hbeyond : s.n < 9 + (be32Dec (s.ibufByte 4) (s.ibufByte 5) (s.ibufByte 6) (s.ibufByte 7)).toNat) :
    decodeHb s.input = .error .treeBeyondBuffer := by
  have hinput : s.input = s.ibufByte 0 :: s.ibufByte 1 :: s.ibufByte 2 :: s.ibufByte 3 :: s.ibufByte 4 ::
      s.ibufByte 5 :: s.ibufByte 6 :: s.ibufByte 7 :: s.input.drop 8 := by
    conv_lhs => rw [← List.drop_zero (l := s.input)]
    iterate 8 rw [State.drop_input_eq_cons (by omega)]
  have hlen : (s.input.drop 8).length = s.n - 8 := by rw [List.length_drop, State.input_length]
  rw [hinput]
  exact decodeHb_of_treeBeyond (List.ne_nil_of_length_pos (by omega)) (by omega)

/-- What the token decoder is given begins with the byte at the cursor (R81). -/
theorem inputAt_succ_eq_cons (k : Nat) (h : s.eng.ipos < s.n) :
    s.inputAt (k + 1) = s.ibufByte s.eng.ipos :: (s.input.drop (s.eng.ipos + 1)).take k := by
  rw [State.inputAt_eq_take_drop_input _ h.le, State.drop_input_eq_cons h, List.take_succ_cons]

end

/-- Settles O21: the decoder of each header reads what the encoder of the header writes. -/
theorem stepRunsTheHeader : Obligations.StepRunsTheHeader := by
  refine ⟨fun o tree pad payload s htree hruns hinput => ?_, fun o rest s hruns hipos hinput => ?_⟩
  · rw [step_hdHeader hruns, fetchHb, hinput]
    exact fetched_ok (decodeHb_encodeBytes o tree pad htree payload)
  · have hbytes : s.inputAt 4 = be32 o ++ [] := by
      rw [State.inputAt_eq_take_drop_input 4 (by omega), hipos, List.drop_zero, hinput, List.append_nil]
      exact List.take_left' (be32_length o)
    rw [step_ldHeader hruns, fetchLb, hbytes]
    exact fetched_ok (decodeLb_encodeBytes o [])

/-- Settles O22: the decoder of the phase rejects what is there, and a record in a field without room for it fails. -/
theorem missingUnitsFail : Obligations.MissingUnitsFail := by
  intro s fails
  have hfails {kind : ErrorKind} (h : step s = .next (s.failOperation kind)) : fails kind :=
    ⟨_, h, failed_failOperation s kind, rfl⟩
  refine ⟨fun hruns hshort => hfails ?_, fun hruns hhead hbeyond => hfails ?_, fun hruns hopen hend => hfails ?_,
    fun hruns hopen hmarker hleaf hshort => hfails ?_, fun hruns hipos hshort => hfails ?_,
    fun hruns hneed hend => hfails ?_, fun hruns hneed hlast hesc => hfails ?_,
    fun hruns hneed hhere hshort hmatch => hfails ?_⟩
  · rw [step_hdHeader hruns]
    exact fetched_error (decodeHb_of_short (by rwa [State.input_length]))
  · rw [step_hdHeader hruns]
    exact fetched_error (decodeHb_input_of_treeBeyond hhead hbeyond)
  · exact step_hdTree_of_noRoom hruns hopen (noRoomForRecord_iff.2 (.inl hend))
  · refine step_hdTree_of_truncatedLeaf hruns hopen (hleaf ▸ State.drop_treeField_eq_cons hmarker) ?_
    rw [List.length_drop, State.treeField_length]
    omega
  · rw [step_ldHeader hruns]
    refine fetched_error (decodeLb_of_short ?_)
    rw [State.inputAt, State.ibufBytes_length]
    omega
  · have hbytes : s.inputAt 5 = [] := by
      rw [← List.length_eq_zero_iff, State.inputAt, State.ibufBytes_length]
      omega
    rw [step_ldTokens hruns hneed, hbytes]
    rfl
  · have hbytes : s.inputAt 5 = [0xFE] := by
      have hend : s.input.drop (s.eng.ipos + 1) = [] := List.drop_eq_nil_of_le (by rw [State.input_length]; omega)
      rw [inputAt_succ_eq_cons 4 (by omega), hesc, hend, List.take_nil]
    rw [step_ldTokens hruns hneed, hbytes]
    rfl
  · rw [step_ldTokens hruns hneed, inputAt_succ_eq_cons 4 hhere, hmatch]
    refine fetched_error (decodeToken_truncatedMatch ?_)
    rw [List.length_take, List.length_drop, State.input_length]
    omega

end Sys2Proof.Machine
end

section
/-! PROOFS. O29, O32, O33: the Huffman decoder's header checks, the end of the tree, and the walk (R150 to R152, R155, R158). -/

namespace Sys2Proof.Machine

section
variable {L cap t : Nat} {o : Word} {pad : Byte}

/-- The header where the tree field, the padding count or the padding is beyond its bounds (R150, R151). -/
theorem huffHeaderError_malformed (h : L < 9 + t ∨ 7 < pad.toNat ∨ 8 * (L - 9 - t) < pad.toNat) :
    huffHeaderError L cap o t pad = some .malformedHeader := by
  rw [huffHeaderError]
  split_ifs
  iterate 4 · rfl
  · omega
  · omega

variable (hfield : 9 + t ≤ L) (hpad : pad.toNat ≤ 7) (hbits : pad.toNat ≤ 8 * (L - 9 - t))
include hfield hpad hbits

/-- Where those are in bounds, the check of R152 is left. -/
theorem huffHeaderError_wellFormed :
    huffHeaderError L cap o t pad = if o.toNat > cap then some .capacity else none := by
  rw [huffHeaderError, if_neg (by omega), if_neg (by omega), if_neg (by omega), if_neg (by omega)]

end

/-- HB where a check fails (R150 to R152). -/
theorem execHb_of_error {o : Word} {tree : List Byte} {pad : Byte} {s : State} {kind : ErrorKind}
    (h : huffHeaderError s.n s.cfg.obufCap o tree.length pad = some kind) :
    exec (.hb o tree pad) s = .next (s.failOperation kind) := by
  rcases execHb_cases o tree pad s with ⟨kind', hkind, hexec⟩ | ⟨hnone, -⟩
  · rwa [Option.some.inj (h.symm.trans hkind)]
  · rw [h] at hnone; cases hnone

/-- HB where the checks pass: the header values and an empty tree memory (R150 to R153). -/
theorem execHb_of_ok {o : Word} {tree : List Byte} {pad : Byte} {s : State}
    (h : huffHeaderError s.n s.cfg.obufCap o tree.length pad = none) :
    exec (.hb o tree pad) s =
      .next
        { s with
          eng :=
            { s.eng with
              origLen := o, treeLen := BitVec.ofNat 32 tree.length, pad := pad, tcur := 0, node := [], pstk := [],
              out := [] }
          phase := .hdTree } := by
  rcases execHb_cases o tree pad s with ⟨kind, hkind, -⟩ | ⟨-, hexec⟩
  · rw [h] at hkind; cases hkind
  · exact hexec

/-- Settles O29: by the first check that fails. -/
theorem huffmanHeaderIsChecked : Obligations.HuffmanHeaderIsChecked := by
  intro o tree pad s
  have hfails {kind : ErrorKind} (h : huffHeaderError s.n s.cfg.obufCap o tree.length pad = some kind) :
      ∃ t, exec (.hb o tree pad) s = .next t ∧ Failed s t kind := ⟨_, execHb_of_error h, failed_failOperation s kind⟩
  refine ⟨fun hshort => hfails (huffHeaderError_malformed (.inl (by omega))),
    fun hbeyond => hfails (huffHeaderError_malformed (.inl hbeyond)),
    fun _ hpad => hfails (huffHeaderError_malformed (.inr hpad)), fun hfield hpad hbits hcap => hfails ?_,
    fun hfield hpad hbits hcap => ⟨_, execHb_of_ok ?_, rfl, ?_⟩⟩
  · rw [huffHeaderError_wellFormed hfield hpad hbits, if_pos hcap]
  · rw [huffHeaderError_wellFormed hfield hpad hbits, if_neg (Nat.not_lt.2 hcap)]
  · have hn : s.n < 2 ^ 32 := s.inLen.isLt
    exact Nat.mod_eq_of_lt (by omega)

section
variable {s : State}

/-- A complete tree is looked at once more, at its root (R155). -/
theorem step_hdTree_of_complete (h : s.engineRuns .hdTree) (hcomplete : s.treeComplete = true) :
    step s = finishTree s := by
  rw [step_of_engineRuns h, engineMove_hdTree h, fetchRecord, if_pos hcomplete]
  rfl

theorem finishTree_leaf {b : Byte} (hroot : shapeAt s.eng.node s.eng.root = some (.leaf b)) :
    finishTree s = .next (s.failOperation .corruptTree) := by
  rw [finishTree, hroot]

theorem finishTree_inner {l r : Nat}
    (hroot : shapeAt s.eng.node s.eng.root = some (.internal l r) ∨ shapeAt s.eng.node s.eng.root = some (.wrap l)) :
    finishTree s =
      .next { s with eng := { s.eng with walk := s.eng.root, bcur := 0, out := [] }, phase := .hdWalk } := by
  rcases hroot with hroot | hroot <;> rw [finishTree, hroot]

end

/-- Settles O32: by the kind of the root. -/
theorem rootMustNotBeALeaf : Obligations.RootMustNotBeALeaf := by
  intro s hruns hcomplete
  have hstep := step_hdTree_of_complete hruns hcomplete
  exact ⟨fun b hroot => ⟨_, hstep.trans (finishTree_leaf hroot), failed_failOperation s _⟩,
    fun l r hroot => hstep.trans (finishTree_inner hroot)⟩

section
variable {s : State} (hruns : s.engineRuns .hdWalk)
include hruns

/-- With enough bytes the walk ends by count (R158, R159). -/
theorem step_hdWalk_of_done (hdone : s.origN ≤ s.eng.out.length) : step s = .next (s.deliver s.eng.out false) := by
  rw [step_hdWalk hruns, stepWalk, if_pos hdone]

variable (hneed : s.eng.out.length < s.origN)
include hneed

/-- Without a real bit left the stream is truncated (R158). -/
theorem step_hdWalk_of_noBit (hend : s.nb ≤ s.eng.bcur) : step s = .next (s.failOperation .truncatedStream) := by
  rw [step_hdWalk hruns, stepWalk, if_neg (Nat.not_le.2 hneed), if_pos hend]

variable (hbit : s.eng.bcur < s.nb)
include hbit

/-- A bit that leads nowhere ends the operation (R158). -/
theorem step_hdWalk_of_error {kind : ErrorKind}
    (hchild : childOf (shapeAt s.eng.node s.eng.walk) (s.pbit s.eng.bcur) = some (.error kind)) :
    step s = .next (s.failOperation kind) := by
  rw [step_hdWalk hruns, stepWalk, if_neg (Nat.not_le.2 hneed), if_neg (Nat.not_le.2 hbit), hchild]

variable {c : Nat} (hchild : childOf (shapeAt s.eng.node s.eng.walk) (s.pbit s.eng.bcur) = some (.ok c))
include hchild

/-- A bit that leads to a leaf emits its byte (R158). -/
theorem step_hdWalk_of_leaf {b : Byte} (hleaf : shapeAt s.eng.node c = some (.leaf b)) :
    step s =
      .next
        { s with eng := { s.eng with bcur := s.eng.bcur + 1, out := s.eng.out ++ [b], walk := s.eng.root } } := by
  rw [step_hdWalk hruns, stepWalk, if_neg (Nat.not_le.2 hneed), if_neg (Nat.not_le.2 hbit), hchild]
  simp only [arrive, hleaf]

/-- A bit that leads to an inner node moves the walk there (R158). -/
theorem step_hdWalk_of_inner {l r : Nat}
    (hinner : shapeAt s.eng.node c = some (.internal l r) ∨ shapeAt s.eng.node c = some (.wrap l)) :
    step s = .next { s with eng := { s.eng with bcur := s.eng.bcur + 1, walk := c } } := by
  rw [step_hdWalk hruns, stepWalk, if_neg (Nat.not_le.2 hneed), if_neg (Nat.not_le.2 hbit), hchild]
  rcases hinner with hinner | hinner <;> simp only [arrive, hinner]

end

/-- Where a bit leads from an inner node, or a `0` from a `WRAP` root (R158). -/
theorem childOf_eq_ok {shape : Option NodeShape} {bit : Bool} {c : Nat}
    (h : (∃ l r, shape = some (.internal l r) ∧ c = if bit then r else l) ∨ (shape = some (.wrap c) ∧ bit = false)) :
    childOf shape bit = some (.ok c) := by
  rcases h with ⟨l, r, rfl, rfl⟩ | ⟨rfl, rfl⟩
  · cases bit <;> rfl
  · rfl

/-- Settles O33: the count, then the bits, then where the bit leads. -/
theorem walkFollowsOneBit : Obligations.WalkFollowsOneBit := by
  intro s hruns
  refine ⟨step_hdWalk_of_done hruns,
    fun hneed hend => ⟨_, step_hdWalk_of_noBit hruns hneed hend, failed_failOperation s _⟩, fun hneed hbit => ⟨?_, ?_⟩⟩
  · intro l hwrap hone
    exact ⟨_, step_hdWalk_of_error hruns hneed hbit (by rw [hwrap, hone]; rfl), failed_failOperation s _⟩
  · intro c hc
    have hchild := childOf_eq_ok hc
    exact ⟨fun b => step_hdWalk_of_leaf hruns hneed hbit hchild,
      fun l r hinner => step_hdWalk_of_inner hruns hneed hbit hchild (.inl hinner)⟩

end Sys2Proof.Machine
end

section
/-! PROOFS. The tree that `NODE` holds while the records of a tree field are parsed: a subtree that is complete stays what
it is (R31, R153). -/

namespace Sys2Proof.Machine

/-- `NODE` holds the tree at an index, every child behind its parent, as allocation in preorder leaves it (R153). -/
def Tree.StoredAt (node : List Node) : Tree → Nat → Prop
  | .leaf b, i => shapeAt node i = some (.leaf b)
  | .internal l r, i =>
    ∃ a c, i < a ∧ i < c ∧ shapeAt node i = some (.internal a c) ∧ l.StoredAt node a ∧ r.StoredAt node c
  | .wrap l, i => ∃ a, i < a ∧ shapeAt node i = some (.wrap a) ∧ l.StoredAt node a

section
variable {node node' pre more : List Node} {t : Tree} {i : Nat}

/-- A stored tree depends on the entries from its root on. -/
theorem Tree.StoredAt.congr (h : t.StoredAt node i)
    (hkeep : ∀ j shape, i ≤ j → shapeAt node j = some shape → shapeAt node' j = some shape) : t.StoredAt node' i := by
  induction t generalizing i with
  | leaf b => exact hkeep i _ le_rfl h
  | internal l r ihl ihr =>
    obtain ⟨a, c, ha, hc, hi, hl, hr⟩ := h
    exact ⟨a, c, ha, hc, hkeep i _ le_rfl hi, ihl hl fun j shape hj => hkeep j shape (by omega),
      ihr hr fun j shape hj => hkeep j shape (by omega)⟩
  | wrap l ih =>
    obtain ⟨a, ha, hi, hl⟩ := h
    exact ⟨a, ha, hkeep i _ le_rfl hi, ih hl fun j shape hj => hkeep j shape (by omega)⟩

theorem Tree.StoredAt.append (h : t.StoredAt node i) (more : List Node) : t.StoredAt (node ++ more) i :=
  h.congr fun _ _ _ hshape => shapeAt_append_left hshape more

/-- A stored subtree stays when an entry before its root is written. -/
theorem Tree.StoredAt.replace {nd : Node} (h : t.StoredAt (pre ++ nd :: more) i) (hi : pre.length < i) (nd' : Node) :
    t.StoredAt (pre ++ nd' :: more) i := by
  refine h.congr fun j shape hj hshape => ?_
  obtain ⟨k, rfl⟩ : ∃ k, j = pre.length + (k + 1) := ⟨j - pre.length - 1, by omega⟩
  rw [shapeAt, List.getElem?_append_right (by omega), Nat.add_sub_cancel_left, List.getElem?_cons_succ] at hshape ⊢
  exact hshape

/-- The entry at the root is a leaf exactly where the tree is one. -/
theorem Tree.StoredAt.shapeAt_eq_leaf_iff (h : t.StoredAt node i) {b : Byte} :
    shapeAt node i = some (.leaf b) ↔ t = .leaf b := by
  cases t with
  | leaf a => rw [show shapeAt node i = some (.leaf a) from h]; simp
  | internal l r => obtain ⟨a, c, -, -, hi, -⟩ := h; rw [hi]; simp
  | wrap l => obtain ⟨a, -, hi, -⟩ := h; rw [hi]; simp

theorem Tree.StoredAt.lt_length (h : t.StoredAt node i) : i < node.length := by
  cases t with
  | leaf b => exact lt_length_of_shapeAt h
  | internal l r => obtain ⟨a, c, -, -, hi, -⟩ := h; exact lt_length_of_shapeAt hi
  | wrap l => obtain ⟨a, -, hi, -⟩ := h; exact lt_length_of_shapeAt hi

theorem shapeAt_append_cons (pre more : List Node) (nd : Node) :
    shapeAt (pre ++ nd :: more) pre.length = some nd.shape := by
  simp [shapeAt]

theorem set_append_cons (pre more : List Node) (nd nd' : Node) :
    (pre ++ nd :: more).set pre.length nd' = pre ++ nd' :: more := by
  simp

/-- The left child of the root where no right one fits, and it is no leaf (R154). -/
theorem attach_left_inner {left c p : Nat} (hleft : left < 9) (hc : ∀ b, shapeAt node c ≠ some (.leaf b)) :
    attach left node [{ idx := p, stage := .left }] c = .error .corruptTree := by
  rw [attach]
  simp only [hleft, and_self, if_true]

end

/-! ## The cases of `ParseNode` (R153 to R155) -/

theorem parseNode_of_noRoom (fuel : Nat) (top : Bool) {c : Cursor} (h : c.rest = [] ∨ c.nodes = Config.nodeCap) :
    parseNode (fuel + 1) top c = .error .corruptTree := by
  rw [parseNode]
  split
  · rfl
  · next hrest => rw [if_pos (h.resolve_left (by rw [hrest]; exact List.cons_ne_nil _ _))]

section
variable {fuel nodes : Nat} {top : Bool} {rest : List Bool} {l : Tree} {c : Cursor} (hfull : nodes ≠ Config.nodeCap)
include hfull

/-- A leaf whose byte value is not wholly there. -/
theorem parseNode_short (hshort : rest.length < 8) :
    parseNode (fuel + 1) top { rest := true :: rest, nodes := nodes } = .error .corruptTree := by
  simp only [parseNode, hfull, hshort, if_true, if_false]

/-- A leaf, by the bits that stand there. -/
theorem parseNode_leafBits (hbits : ¬rest.length < 8) :
    parseNode (fuel + 1) top { rest := true :: rest, nodes := nodes } =
      .ok (.leaf (bitsByte (rest.take 8)), { rest := rest.drop 8, nodes := nodes + 1 }) := by
  simp only [parseNode, hfull, hbits, if_true, if_false]

theorem parseNode_left_error {kind : ErrorKind}
    (hl : parseNode fuel false { rest := rest, nodes := nodes + 1 } = .error kind) :
    parseNode (fuel + 1) top { rest := false :: rest, nodes := nodes } = .error kind := by
  simp only [parseNode, hfull, hl, if_false, Bool.false_eq_true]

variable (hl : parseNode fuel false { rest := rest, nodes := nodes + 1 } = .ok (l, c))
include hl

/-- The left subtree of the root is no leaf, and no right one fits. -/
theorem parseNode_left_inner (hshort : c.rest.length < 9) (hinner : ∀ b, l ≠ .leaf b) :
    parseNode (fuel + 1) true { rest := false :: rest, nodes := nodes } = .error .corruptTree := by
  simp only [parseNode, hfull, hl, hshort, decide_true, Bool.and_self, if_true, if_false, Bool.false_eq_true]
  cases l with
  | leaf b => exact absurd rfl (hinner b)
  | internal | wrap => rfl

/-- Otherwise the right subtree decides. -/
theorem parseNode_right (hmore : ¬(top = true ∧ c.rest.length < 9)) :
    parseNode (fuel + 1) top { rest := false :: rest, nodes := nodes } =
      (parseNode fuel false c).map fun r => (.internal l r.1, r.2) := by
  have hwrap : (top && decide (c.rest.length < 9)) = false := by
    rw [← Bool.not_eq_true, Bool.and_eq_true, decide_eq_true_eq]
    exact hmore
  simp only [parseNode, hfull, hl, hwrap, if_false, Bool.false_eq_true]
  cases parseNode fuel false c <;> rfl

end

end Sys2Proof.Machine
end

section
/-! PROOFS. The tree phase of `HUFF_DEC` against `ParseNode` (R153 to R155): the engine's stack is the recursion's, and a
subtree that is complete goes to `attach`. -/

namespace Sys2Proof.Machine

/-- The host waits, so the running engine moves (R219). -/
theorem engineRuns_inPhase {s : State} (hs : s.ready) (p : Phase) (eng : Engine) : (s.inPhase p eng).engineRuns p := by
  obtain ⟨-, hq, -⟩ := hs
  exact ⟨rfl, rfl, hq, rfl⟩

/-- The engine runs from `start` to where the operation that began in `s` ends with an error. -/
def FailsFrom (s start : State) (kind : ErrorKind) : Prop :=
  ∃ p eng, Runs start ((s.inPhase p eng).failOperation kind)

/-- The block with `tcur`, `NODE` and `PSTK` as the parse has left them. -/
def State.parsing (s : State) (eng : Engine) (tcur : Nat) (node : List Node) (pstk : List ParseFrame) : State :=
  s.inPhase .hdTree { eng with tcur := tcur, node := node, pstk := pstk }

/-- What `ParseNode` is given in that state (R153). -/
def State.cursor (s : State) (eng : Engine) (tcur : Nat) (node : List Node) : Cursor :=
  { rest := (s.inPhase .hdTree eng).treeField.drop tcur, nodes := node.length }

/-- The engine runs from `start` to where it has given a complete subtree to its parent, with the outcome of `attach`. -/
def AttachesFrom (s start : State) (eng : Engine) (tcur : Nat) : Except ErrorKind ParseState → Prop
  | .error kind => FailsFrom s start kind
  | .ok p => Runs start (s.parsing { eng with root := p.root.getD eng.root } tcur p.node p.pstk)

/-- The engine does what `ParseNode` does from where it stands: it fails with its error, or it comes to where the same tree
stands in `NODE` from the next index on and is given to its parent. -/
def ParsesAs (s : State) (eng : Engine) (tcur : Nat) (node : List Node) (pstk : List ParseFrame) :
    Except ErrorKind (Tree × Cursor) → Prop
  | .error kind => FailsFrom s (s.parsing eng tcur node pstk) kind
  | .ok (t, c) =>
    ∃ tcur' more, c = s.cursor eng tcur' (node ++ more) ∧ (node ++ more).length ≤ Config.nodeCap ∧
      t.StoredAt (node ++ more) node.length ∧
      AttachesFrom s (s.parsing eng tcur node pstk) eng tcur' (attach c.rest.length (node ++ more) pstk node.length)

/-- The cursor moves on by a record, which allocates its nodes. -/
theorem State.cursor_add {s : State} {eng : Engine} {tcur : Nat} {node : List Node} {bits : List Bool}
    (hrest : (s.cursor eng tcur node).rest = bits) (k : Nat) (more : List Node) :
    s.cursor eng (tcur + k) (node ++ more) = { rest := bits.drop k, nodes := node.length + more.length } := by
  rw [← hrest, State.cursor, State.cursor, List.drop_drop, List.length_append]

section
variable {s start mid : State} {eng : Engine}

theorem FailsFrom.of_runs (hrun : Runs start mid) {kind : ErrorKind} (h : FailsFrom s mid kind) :
    FailsFrom s start kind := by
  obtain ⟨p, eng, h⟩ := h
  exact ⟨p, eng, hrun.trans h⟩

theorem AttachesFrom.of_runs (hrun : Runs start mid) {tcur : Nat} {r : Except ErrorKind ParseState}
    (h : AttachesFrom s mid eng tcur r) : AttachesFrom s start eng tcur r := by
  cases r with
  | error kind => exact FailsFrom.of_runs hrun h
  | ok p => exact hrun.trans h

end

/-! ## The records -/

section
variable {s : State} (hs : s.ready) {eng : Engine} {tcur : Nat} {node : List Node} {pstk : List ParseFrame}
  (hopen : node = [] ∨ pstk ≠ [])
include hs hopen

/-- While the tree is not complete the next record is decoded. -/
theorem engineRuns_parsing :
    (s.parsing eng tcur node pstk).engineRuns .hdTree ∧ (s.parsing eng tcur node pstk).treeComplete = false := by
  refine ⟨engineRuns_inPhase hs _ _, ?_⟩
  rcases hopen with rfl | hne
  · rfl
  · simpa [State.treeComplete, State.parsing, State.inPhase] using fun _ => hne

/-- No marker bit is left, or no node is free (R153, R155). -/
theorem failsFrom_of_noRoom (hroom : (s.cursor eng tcur node).rest = [] ∨ node.length = Config.nodeCap) :
    FailsFrom s (s.parsing eng tcur node pstk) .corruptTree := by
  obtain ⟨hruns, hincomplete⟩ := engineRuns_parsing hs hopen (eng := eng) (tcur := tcur)
  have hend (h : (s.cursor eng tcur node).rest = []) : (s.inPhase .hdTree eng).tb ≤ tcur := by
    rwa [State.cursor, List.drop_eq_nil_iff, State.treeField_length] at h
  exact ⟨_, _, .single (step_hdTree_of_noRoom hruns hincomplete (noRoomForRecord_iff.2 (hroom.imp_left hend)))⟩

/-- A leaf whose byte value is not wholly there (R153). -/
theorem failsFrom_of_short {rest : List Bool} (hrest : (s.cursor eng tcur node).rest = true :: rest)
    (hshort : rest.length < 8) : FailsFrom s (s.parsing eng tcur node pstk) .corruptTree := by
  obtain ⟨hruns, hincomplete⟩ := engineRuns_parsing hs hopen (eng := eng) (tcur := tcur)
  exact ⟨_, _, .single (step_hdTree_of_truncatedLeaf hruns hincomplete hrest hshort)⟩

/-- The next record is run. -/
theorem step_parsing {i : Instr} {rest : List Bool}
    (hdecode : decodeRecord ((s.cursor eng tcur node).rest.take 9) = .ok (i, rest)) :
    step (s.parsing eng tcur node pstk) = exec i (s.parsing eng tcur node pstk) := by
  obtain ⟨hruns, hincomplete⟩ := engineRuns_parsing hs hopen (eng := eng) (tcur := tcur)
  exact (step_hdTree hruns hincomplete).trans (fetched_ok hdecode)

variable (hfull : node.length ≠ Config.nodeCap)
include hfull

/-- A leaf record: the leaf is the next node and is complete (R153). -/
theorem attachesFrom_leaf {rest : List Bool} (hrest : (s.cursor eng tcur node).rest = true :: rest)
    (hbits : ¬rest.length < 8) :
    AttachesFrom s (s.parsing eng tcur node pstk) eng (tcur + 9)
      (attach (rest.drop 8).length (node ++ [decoderNode (.leaf (bitsByte (rest.take 8)))]) pstk node.length) := by
  have hlen := congrArg List.length hrest
  rw [State.cursor, List.length_drop, State.treeField_length, List.length_cons] at hlen
  have htcur : tcur + 9 ≤ (s.inPhase .hdTree eng).tb := by omega
  have hleft : (rest.drop 8).length = (s.inPhase .hdTree eng).tb - (tcur + 9) := by rw [List.length_drop]; omega
  have hstep : step (s.parsing eng tcur node pstk) =
      exec (.stLeaf (bitsByte (rest.take 8))) (s.parsing eng tcur node pstk) := by
    refine step_parsing hs hopen (rest := (rest.take 8).drop 8) ?_
    have hthere : ¬(rest.take 8).length < 8 := by rw [List.length_take]; omega
    rw [hrest, List.take_succ_cons, decodeRecord, if_neg hthere, List.take_take, Nat.min_self]
  rw [hleft]
  cases hattach : attach ((s.inPhase .hdTree eng).tb - (tcur + 9))
      (node ++ [decoderNode (.leaf (bitsByte (rest.take 8)))]) pstk node.length with
  | error kind => exact ⟨_, _, .single (hstep.trans (execStLeaf_of_attach_error htcur hfull hattach))⟩
  | ok p => exact .single (hstep.trans (execStLeaf_of_attach_ok htcur hfull hattach))

/-- A node record: the next node waits for its left child (R153). -/
theorem runs_node {rest : List Bool} (hrest : (s.cursor eng tcur node).rest = false :: rest) :
    Runs (s.parsing eng tcur node pstk)
      (s.parsing eng (tcur + 1) (node ++ [decoderNode (.internal 0 0)])
        ({ idx := node.length, stage := .left } :: pstk)) := by
  have hlen := congrArg List.length hrest
  rw [State.cursor, List.length_drop, State.treeField_length, List.length_cons] at hlen
  have htcur : tcur < (s.inPhase .hdTree eng).tb := by omega
  have hstep : step (s.parsing eng tcur node pstk) = exec .stNode (s.parsing eng tcur node pstk) :=
    step_parsing hs hopen (by rw [hrest]; rfl)
  exact .single (hstep.trans ((nodeRecordAllocates _).1 htcur hfull))

end

/-! ## The subtrees -/

section
variable {s : State} {eng : Engine} {tcur tcur' : Nat} {node more : List Node} {pstk : List ParseFrame} {l : Tree}

/-- The left subtree is complete and its parent is given the right one: the two make an inner node (R153). -/
theorem ParsesAs.internal {nd : Node} (hnd : nd = decoderNode (.internal (node.length + 1) 0))
    (hwait : Runs (s.parsing eng tcur node pstk)
      (s.parsing eng tcur' (node ++ nd :: more) ({ idx := node.length, stage := .right } :: pstk)))
    (hl : l.StoredAt (node ++ nd :: more) (node.length + 1)) {r : Except ErrorKind (Tree × Cursor)}
    (hr : ParsesAs s eng tcur' (node ++ nd :: more) ({ idx := node.length, stage := .right } :: pstk) r) :
    ParsesAs s eng tcur node pstk (r.map fun r => (.internal l r.1, r.2)) := by
  cases r with
  | error kind => exact FailsFrom.of_runs hwait hr
  | ok r =>
    obtain ⟨r, c⟩ := r
    obtain ⟨tcur'', more', rfl, hcap, hstored, hattach⟩ := hr
    have hroot : node.length < (node ++ nd :: more).length := by simp
    have hshape : shapeAt (node ++ nd :: (more ++ more')) node.length = some (.internal (node.length + 1) 0) := by
      rw [shapeAt_append_cons, hnd]
      rfl
    generalize (node ++ nd :: more).length = c at *
    replace hl := hl.append more'
    replace hattach := AttachesFrom.of_runs hwait hattach
    rw [List.append_assoc, List.cons_append] at hcap hstored hattach hl
    rw [attach_right hshape, set_append_cons] at hattach
    refine ⟨tcur'', decoderNode (.internal (node.length + 1) c) :: (more ++ more'), ?_, ?_, ?_, hattach⟩
    · simp [State.cursor]
    · simpa using hcap
    · exact ⟨_, c, Nat.lt_succ_self _, hroot, shapeAt_append_cons .., hl.replace (Nat.lt_succ_self _) _,
        hstored.replace hroot _⟩

/-- The left child of the root is complete and no right one fits: a leaf makes the root a `WRAP` node (R154). -/
theorem ParsesAs.wrap {nd : Node} {b : Byte} {c : Cursor} (hc : c = s.cursor eng tcur' (node ++ nd :: more))
    (hshort : c.rest.length < 9) (hcap : (node ++ nd :: more).length ≤ Config.nodeCap)
    (hl : (Tree.leaf b).StoredAt (node ++ nd :: more) (node.length + 1))
    (hattach : AttachesFrom s (s.parsing eng tcur node []) eng tcur'
      (attach c.rest.length (node ++ nd :: more) [{ idx := node.length, stage := .left }] (node.length + 1))) :
    ParsesAs s eng tcur node [] (.ok (.wrap (.leaf b), c)) := by
  rw [attach_left_wrap hshort hl, set_append_cons] at hattach
  refine ⟨tcur', decoderNode (.wrap (node.length + 1)) :: more, ?_, ?_, ?_, hattach⟩
  · simpa [State.cursor] using hc
  · simpa using hcap
  · exact ⟨_, Nat.lt_succ_self _, shapeAt_append_cons .., hl.replace (Nat.lt_succ_self _) _⟩

end

section
variable {s : State} (hs : s.ready) {eng : Engine} {fuel tcur : Nat} {node : List Node} {pstk : List ParseFrame}
include hs

/-- A node record, where the engine does what `ParseNode` does for the children: the left one comes first, and unless it is
the root's and no right one fits, the right one after it (R153, R154). -/
theorem parsesAs_node (hopen : node = [] ∨ pstk ≠ []) (hlt : node.length < Config.nodeCap) {rest : List Bool}
    (hrest : (s.cursor eng tcur node).rest = false :: rest)
    (hchild : ∀ (tcur : Nat) (nd : Node) (more : List Node) (f : ParseFrame),
      (node ++ nd :: more).length ≤ Config.nodeCap →
      ParsesAs s eng tcur (node ++ nd :: more) (f :: pstk)
        (parseNode fuel false (s.cursor eng tcur (node ++ nd :: more)))) :
    ParsesAs s eng tcur node pstk
      (parseNode (fuel + 1) pstk.isEmpty { rest := false :: rest, nodes := node.length }) := by
  have hstart := runs_node hs hopen hlt.ne hrest
  have hnext : s.cursor eng (tcur + 1) (node ++ [decoderNode (.internal 0 0)]) =
      { rest := rest, nodes := node.length + 1 } := State.cursor_add hrest 1 _
  have hleft := hchild (tcur + 1) (decoderNode (.internal 0 0)) [] { idx := node.length, stage := .left } (by simpa)
  rw [hnext] at hleft
  cases hl : parseNode fuel false { rest := rest, nodes := node.length + 1 } with
  | error kind =>
    rw [hl] at hleft
    rw [parseNode_left_error hlt.ne hl]
    exact FailsFrom.of_runs hstart hleft
  | ok lc =>
    obtain ⟨l, c⟩ := lc
    rw [hl] at hleft
    obtain ⟨tcur', more, hc, hcap, hstored, hattach⟩ := hleft
    replace hattach := AttachesFrom.of_runs hstart hattach
    rw [List.length_append, List.length_singleton] at hstored hattach
    rw [List.append_assoc, List.singleton_append] at hc hcap hstored hattach
    by_cases hwrap : pstk = [] ∧ c.rest.length < 9
    · obtain ⟨rfl, hshort⟩ := hwrap
      cases l with
      | leaf b =>
        exact (parseNode_wrap hlt.ne hl hshort).symm ▸ ParsesAs.wrap hc hshort hcap hstored hattach
      | internal | wrap =>
        rw [attach_left_inner hshort fun b hb => nomatch hstored.shapeAt_eq_leaf_iff.1 hb] at hattach
        exact (parseNode_left_inner hlt.ne hl hshort nofun).symm ▸ hattach
    · rw [attach_left ((not_and_or.1 hwrap).imp_right Nat.le_of_not_lt), set_append_cons] at hattach
      rw [parseNode_right hlt.ne hl (by rwa [List.isEmpty_iff])]
      have hsame : c = s.cursor eng tcur' (node ++ decoderNode (.internal (node.length + 1) 0) :: more) := by
        simpa [State.cursor] using hc
      have hright := hchild tcur' (decoderNode (.internal (node.length + 1) 0)) more
        { idx := node.length, stage := .right } (by simpa using hcap)
      rw [← hsame] at hright
      exact .internal rfl hattach (hstored.replace (Nat.lt_succ_self _) _) hright

/-- The engine parses a subtree as `ParseNode` does, whatever waits on its stack (R36, R153). -/
theorem parsesAs_parseNode (hopen : node = [] ∨ pstk ≠ []) (hle : node.length ≤ Config.nodeCap)
    (hfuel : Config.nodeCap < fuel + node.length) :
    ParsesAs s eng tcur node pstk (parseNode fuel pstk.isEmpty (s.cursor eng tcur node)) := by
  induction fuel generalizing tcur node pstk with
  | zero => omega
  | succ fuel ih =>
    by_cases hroom : (s.cursor eng tcur node).rest = [] ∨ node.length = Config.nodeCap
    · rw [parseNode_of_noRoom fuel _ hroom]
      exact failsFrom_of_noRoom hs hopen hroom
    · obtain ⟨hne, hfull⟩ := not_or.1 hroom
      obtain ⟨marker, rest, hrest⟩ := List.exists_cons_of_ne_nil hne
      rw [show s.cursor eng tcur node = { rest := marker :: rest, nodes := node.length } by rw [← hrest]; rfl]
      cases marker with
      | true =>
        by_cases hshort : rest.length < 8
        · rw [parseNode_short hfull hshort]
          exact failsFrom_of_short hs hopen hrest hshort
        · rw [parseNode_leafBits hfull hshort]
          exact ⟨tcur + 9, [decoderNode (.leaf _)], (State.cursor_add hrest 9 [_]).symm, by simp; omega,
            shapeAt_append_self .., attachesFrom_leaf hs hopen hfull hrest hshort⟩
      | false =>
        refine parsesAs_node hs hopen (by omega) hrest fun tcur nd more f hcap => ?_
        exact ih (.inr (List.cons_ne_nil _ _)) hcap (by simp; omega)

end

end Sys2Proof.Machine
end

section
/-! PROOFS. O48: `HUFF_DEC` runs phase by phase to the result of `Exec` (R159, R219, R221, R222). -/

namespace Sys2Proof.Machine

/-! ## The fields of the input -/

section
variable (s : State)

/-- A packed field read bit by bit is its bytes unpacked (R52). -/
theorem map_fieldBit_range (a k : Nat) : (List.range (8 * k)).map (s.fieldBit a) = unpackBits (s.ibufBytes a k) := by
  induction k with
  | zero => rfl
  | succ k ih =>
    have hbytes : s.ibufBytes a (k + 1) = s.ibufBytes a k ++ [s.ibufByte (a + k)] := by
      simp [State.ibufBytes, List.range_succ]
    rw [hbytes, unpackBits_append, unpackBits_singleton, ← ih, Nat.mul_succ, List.range_add, List.map_append,
      List.map_map]
    refine congrArg _ (List.map_congr_left fun j hj => ?_)
    have hj := List.mem_range.1 hj
    rw [Function.comp_apply, State.fieldBit, show a + (8 * k + j) / 8 = a + k by omega,
      show (8 * k + j) % 8 = j by omega]

/-- The real payload bits, `pbit(0) .. pbit(NB - 1)` (R151, R157). -/
def State.payloadBits : List Bool := (List.range s.nb).map s.pbit

theorem State.treeField_eq_unpackBits : s.treeField = unpackBits (s.ibufBytes 8 s.t) := map_fieldBit_range s 8 s.t

theorem State.payloadBits_eq_take_unpackBits :
    s.payloadBits = (unpackBits (s.ibufBytes (9 + s.t) s.p)).take s.nb := by
  have hle : s.nb ≤ 8 * s.p := Nat.sub_le ..
  rw [← map_fieldBit_range, ← List.map_take, List.take_range, Nat.min_eq_left hle]
  rfl

variable {s}

@[simp] theorem State.payloadBits_length : s.payloadBits.length = s.nb := by simp [State.payloadBits]

theorem State.drop_payloadBits_eq_cons {j : Nat} (h : j < s.nb) :
    s.payloadBits.drop j = s.pbit j :: s.payloadBits.drop (j + 1) := by
  have hj : j < s.payloadBits.length := by rwa [State.payloadBits_length]
  rw [List.drop_eq_getElem_cons hj]
  simp [State.payloadBits]

end

/-- A header that is decoded: the tree field and the payload, with the padding count between them (R73, R150). -/
theorem decodeHb_eq_ok {buf payload : List Byte} {i : Instr} (h : decodeHb buf = .ok (i, payload)) :
    ∃ o tree pad, i = .hb o tree pad ∧ tree.length < 2 ^ 32 ∧ buf.drop 8 = tree ++ pad :: payload := by
  rw [decodeHb.eq_def] at h
  split at h
  · cases h
  · split at h
    · next a b c d e f g h' rest _ =>
      simp only at h
      split at h
      · next pad payload hrest =>
        cases h
        refine ⟨_, _, pad, rfl, (List.length_take_le ..).trans_lt (be32Dec e f g h').isLt, ?_⟩
        rw [← hrest]
        exact (List.take_append_drop _ rest).symm
      · cases h
    · cases h

/-! ## The walk -/

/-- The engine does what `Walk` does from `start` on, with `out` emitted before: it fails with its error, or it delivers its
bytes after those. -/
def WalksAs (s start : State) (out : List Byte) : Except ErrorKind (List Byte) → Prop
  | .error kind => FailsFrom s start kind
  | .ok bytes => ∃ eng, Runs start ((s.inPhase .hdWalk eng).deliver (out ++ bytes) false)

theorem WalksAs.of_runs {s start mid : State} {out : List Byte} {r : Except ErrorKind (List Byte)}
    (hrun : Runs start mid) (h : WalksAs s mid out r) : WalksAs s start out r := by
  cases r with
  | error kind => exact FailsFrom.of_runs hrun h
  | ok bytes =>
    obtain ⟨eng, h⟩ := h
    exact ⟨eng, hrun.trans h⟩

theorem WalksAs.map_cons {s start : State} {out : List Byte} {b : Byte} {r : Except ErrorKind (List Byte)}
    (h : WalksAs s start (out ++ [b]) r) : WalksAs s start out (r.map (b :: ·)) := by
  cases r with
  | error kind => exact h
  | ok bytes =>
    obtain ⟨eng, h⟩ := h
    rw [List.append_assoc] at h
    exact ⟨eng, h⟩

/-- A bit that leads nowhere is an error (R158). -/
theorem walkTree_of_child_none {root here : Tree} {bit : Bool} (h : here.child bit = none) (need : Nat)
    (bits : List Bool) : walkTree root here (need + 1) (bit :: bits) = .error .corruptTree := by
  match here, bit, h with
  | .leaf _, _, _ | .wrap _, true, _ => rw [walkTree]

/-- `Walk` gives as many bytes as are wanted (R158). -/
theorem length_of_walkTree {root here : Tree} {need : Nat} {bits : List Bool} {bytes : List Byte}
    (h : walkTree root here need bits = .ok bytes) : bytes.length = need := by
  induction bits generalizing here need bytes with
  | nil =>
    cases need with
    | zero => rw [walkTree] at h; cases h; rfl
    | succ need => rw [walkTree] at h; cases h
  | cons bit bits ih =>
    cases need with
    | zero => rw [walkTree] at h; cases h; rfl
    | succ need =>
      cases hc : here.child bit with
      | none => rw [walkTree_of_child_none hc] at h; cases h
      | some c =>
        by_cases hleaf : ∃ b, c = .leaf b
        · obtain ⟨b, rfl⟩ := hleaf
          rw [walkTree_child_leaf hc] at h
          cases hrest : walkTree root root need bits with
          | error kind => rw [hrest] at h; cases h
          | ok rest => rw [hrest] at h; cases h; rw [List.length_cons, ih hrest]
        · rw [walkTree_child_inner hc (not_exists.1 hleaf)] at h
          exact ih h

/-- Where a bit leads in a stored tree (R158). -/
theorem Tree.StoredAt.child {node : List Node} {here c : Tree} {i : Nat} {bit : Bool} (h : here.StoredAt node i)
    (hc : here.child bit = some c) : ∃ j, childOf (shapeAt node i) bit = some (.ok j) ∧ c.StoredAt node j := by
  cases here with
  | leaf b => cases hc
  | internal l r =>
    obtain ⟨a, b, -, -, hi, hl, hr⟩ := h
    rw [hi]
    cases bit with
    | false => cases hc; exact ⟨a, rfl, hl⟩
    | true => cases hc; exact ⟨b, rfl, hr⟩
  | wrap l =>
    obtain ⟨a, -, hi, hl⟩ := h
    rw [hi]
    cases bit with
    | false => cases hc; exact ⟨a, rfl, hl⟩
    | true => cases hc

/-- A bit that leads nowhere from an inner node of a stored tree: a `1` at a `WRAP` root (R158). -/
theorem Tree.StoredAt.child_none {node : List Node} {here : Tree} {i : Nat} {bit : Bool} (h : here.StoredAt node i)
    (hinner : ∀ b, here ≠ .leaf b) (hc : here.child bit = none) :
    childOf (shapeAt node i) bit = some (.error .corruptTree) := by
  match here, bit, hc with
  | .leaf b, _, _ => exact absurd rfl (hinner b)
  | .wrap l, true, _ =>
    obtain ⟨a, -, hi, -⟩ := h
    rw [hi]
    rfl

/-- The shape of a stored tree that is no leaf. -/
theorem Tree.StoredAt.shapeAt_inner {node : List Node} {t : Tree} {i : Nat} (h : t.StoredAt node i)
    (hinner : ∀ b, t ≠ .leaf b) :
    ∃ l r, shapeAt node i = some (.internal l r) ∨ shapeAt node i = some (.wrap l) := by
  cases t with
  | leaf b => exact absurd rfl (hinner b)
  | internal l r => obtain ⟨a, c, -, -, hi, -⟩ := h; exact ⟨a, c, .inl hi⟩
  | wrap l => obtain ⟨a, -, hi, -⟩ := h; exact ⟨a, 0, .inr hi⟩

section
variable {s : State} (hs : s.ready)
include hs

/-- With no more bytes wanted, `Walk` and the engine both end (R158, R159). -/
theorem walksAs_walkTree_zero (root here : Tree) {eng : Engine} (hneed : eng.origLen.toNat = eng.out.length)
    (bits : List Bool) : WalksAs s (s.inPhase .hdWalk eng) eng.out (walkTree root here 0 bits) := by
  have hstep := step_hdWalk_of_done (engineRuns_inPhase hs .hdWalk eng) hneed.le
  rw [walkTree]
  exact ⟨eng, .single (by rw [hstep, List.append_nil]; rfl)⟩

/-- From every node it can stand on, the engine walks as `Walk` does (R158, R159). -/
theorem walksAs_walkTree {root here : Tree} (hroot : ∀ b, root ≠ .leaf b) (hhere : ∀ b, here ≠ .leaf b) {eng : Engine}
    (hstored : root.StoredAt eng.node eng.root) (hwalk : here.StoredAt eng.node eng.walk) {need : Nat}
    (hneed : eng.origLen.toNat = eng.out.length + need) {bits : List Bool}
    (hbits : (s.inPhase .hdWalk eng).payloadBits.drop eng.bcur = bits) :
    WalksAs s (s.inPhase .hdWalk eng) eng.out (walkTree root here need bits) := by
  induction bits generalizing here need eng with
  | nil =>
    cases need with
    | zero => exact walksAs_walkTree_zero hs root here hneed []
    | succ need =>
      have hwant : eng.out.length < (s.inPhase .hdWalk eng).origN := (by omega : _ < eng.origLen.toNat)
      have hend : (s.inPhase .hdWalk eng).nb ≤ eng.bcur := by
        rwa [List.drop_eq_nil_iff, State.payloadBits_length] at hbits
      rw [walkTree]
      exact ⟨_, _, .single (step_hdWalk_of_noBit (engineRuns_inPhase hs .hdWalk eng) hwant hend)⟩
  | cons bit bits ih =>
    cases need with
    | zero => exact walksAs_walkTree_zero hs root here hneed _
    | succ need =>
      have hruns := engineRuns_inPhase hs .hdWalk eng
      have hwant : eng.out.length < (s.inPhase .hdWalk eng).origN := (by omega : _ < eng.origLen.toNat)
      have hlt : eng.bcur < (s.inPhase .hdWalk eng).nb := by
        rw [← State.payloadBits_length, ← not_le, ← List.drop_eq_nil_iff, hbits]
        exact List.cons_ne_nil _ _
      rw [State.drop_payloadBits_eq_cons hlt] at hbits
      obtain ⟨rfl, hrest⟩ := List.cons.inj hbits
      cases hc : here.child ((s.inPhase .hdWalk eng).pbit eng.bcur) with
      | none =>
        rw [walkTree_of_child_none hc]
        exact ⟨_, _, .single (step_hdWalk_of_error hruns hwant hlt (hwalk.child_none hhere hc))⟩
      | some c =>
        obtain ⟨j, hchild, hat⟩ := hwalk.child hc
        by_cases hleaf : ∃ b, c = .leaf b
        · obtain ⟨b, rfl⟩ := hleaf
          have hemitted : eng.origLen.toNat = (eng.out ++ [b]).length + need := by
            rw [List.length_append, List.length_singleton]
            omega
          rw [walkTree_child_leaf hc]
          exact .of_runs (.single (step_hdWalk_of_leaf hruns hwant hlt hchild hat))
            (.map_cons (ih (eng := { eng with bcur := eng.bcur + 1, out := eng.out ++ [b], walk := eng.root })
              hroot hstored hstored hemitted hrest))
        · obtain ⟨l, r, hinner⟩ := hat.shapeAt_inner (not_exists.1 hleaf)
          rw [walkTree_child_inner hc (not_exists.1 hleaf)]
          exact .of_runs (.single (step_hdWalk_of_inner hruns hwant hlt hchild hinner))
            (ih (eng := { eng with bcur := eng.bcur + 1, walk := j }) (not_exists.1 hleaf) hstored hat hneed hrest)

end

/-! ## The tree phase -/

section
variable {s : State} (hs : s.ready)
include hs

/-- `HD_TREE` fails as `ParseTree` does, or comes to the walk with its tree at node 0 (R153, R155). -/
theorem hdTree_cases (eng : Engine) :
    (∃ kind, parseTree (s.inPhase .hdTree eng).treeField = .error kind ∧ FailsFrom s (s.parsing eng 0 [] []) kind) ∨
    ∃ t node tcur, parseTree (s.inPhase .hdTree eng).treeField = .ok t ∧ (∀ b, t ≠ .leaf b) ∧ t.StoredAt node 0 ∧
      Runs (s.parsing eng 0 [] [])
        (s.inPhase .hdWalk
          { eng with tcur := tcur, node := node, pstk := [], root := 0, walk := 0, bcur := 0, out := [] }) := by
  have hparse : ParsesAs s eng 0 [] []
      (parseNode (Config.nodeCap + 1) true { rest := (s.inPhase .hdTree eng).treeField, nodes := 0 }) :=
    parsesAs_parseNode hs (node := []) (pstk := []) (.inl rfl) (Nat.zero_le _) (Nat.lt_succ_self _)
  rw [parseTree]
  cases hresult : parseNode (Config.nodeCap + 1) true { rest := (s.inPhase .hdTree eng).treeField, nodes := 0 } with
  | error kind =>
    rw [hresult] at hparse
    exact .inl ⟨kind, rfl, hparse⟩
  | ok tc =>
    obtain ⟨t, c⟩ := tc
    rw [hresult] at hparse
    obtain ⟨tcur, node, -, -, hstored, hparsed⟩ := hparse
    rw [attach_nil, List.nil_append] at hparsed
    have hcomplete : (s.parsing { eng with root := 0 } tcur node []).treeComplete = true := by
      simpa [State.treeComplete, State.parsing, State.inPhase] using List.ne_nil_of_length_pos hstored.lt_length
    have hstep := step_hdTree_of_complete (engineRuns_inPhase hs _ _) hcomplete
    by_cases hleaf : ∃ b, t = .leaf b
    · obtain ⟨b, rfl⟩ := hleaf
      exact .inl ⟨.corruptTree, rfl, _, _, hparsed.tail (hstep.trans (finishTree_leaf hstored))⟩
    · obtain ⟨l, r, hinner⟩ := hstored.shapeAt_inner (not_exists.1 hleaf)
      refine .inr ⟨t, node, tcur, ?_, not_exists.1 hleaf, hstored, hparsed.tail (hstep.trans (finishTree_inner hinner))⟩
      cases t with
      | leaf b => exact absurd ⟨b, rfl⟩ hleaf
      | internal | wrap => rfl

end

/-! ## The result -/

/-- What the header leaves to decode: the bits of the tree field and of the payload (R150, R151). -/
theorem fields_of_drop_input {s : State} {tree payload : List Byte} {pad : Byte}
    (hdrop : s.input.drop 8 = tree ++ pad :: payload) (ht : s.t = tree.length) (hpad : s.eng.pad = pad) :
    s.treeField = unpackBits tree ∧
      s.payloadBits = (unpackBits payload).take (8 * payload.length - pad.toNat) := by
  have hlen := congrArg List.length hdrop
  rw [List.length_drop, State.input_length, List.length_append, List.length_cons] at hlen
  have hp : s.p = payload.length := by rw [State.p, ht]; omega
  have hafter : s.input.drop (9 + tree.length) = payload := by
    rw [show 9 + tree.length = 8 + (tree.length + 1) by omega, ← List.drop_drop, hdrop,
      List.drop_length_add_append, List.drop_one, List.tail_cons]
  rw [State.treeField_eq_unpackBits, State.payloadBits_eq_take_unpackBits, State.nb, hp, hpad, ht,
    State.ibufBytes_eq_take_drop_input (by omega), State.ibufBytes_eq_take_drop_input (by omega), hafter, hdrop]
  simp

/-- `HUFF_DEC` of a buffer whose header passes: the tree, then the walk (R153, R158). -/
theorem huffDecode_of_header {cap : Nat} {buf tree payload : List Byte} {o : Word} {pad : Byte}
    (hdecode : decodeHb buf = .ok (.hb o tree pad, payload))
    (herror : huffHeaderError buf.length cap o tree.length pad = none) :
    huffDecode cap buf =
      (parseTree (unpackBits tree)).bind fun t =>
        walkTree t t o.toNat ((unpackBits payload).take (8 * payload.length - pad.toNat)) := by
  simp only [huffDecode, hdecode, herror]
  cases parseTree (unpackBits tree) <;> rfl

theorem huffDecode_of_headerError {cap : Nat} {buf tree payload : List Byte} {o : Word} {pad : Byte} {kind : ErrorKind}
    (hdecode : decodeHb buf = .ok (.hb o tree pad, payload))
    (herror : huffHeaderError buf.length cap o tree.length pad = some kind) : huffDecode cap buf = .error kind := by
  simp only [huffDecode, hdecode, herror]

theorem huffDecode_of_reject {cap : Nat} {buf : List Byte} {e : Reject} (hdecode : decodeHb buf = .error e) :
    huffDecode cap buf = .error .malformedHeader := by
  simp only [huffDecode, hdecode]

/-- What `HUFF_DEC` gives fits `OBUF`: it is as long as the header says, which R152 checks (R159). -/
theorem length_huffDecode_le {cap : Nat} {buf bytes : List Byte} (h : huffDecode cap buf = .ok bytes) :
    bytes.length ≤ cap := by
  cases hdecode : decodeHb buf with
  | error e => rw [huffDecode_of_reject hdecode] at h; cases h
  | ok r =>
    obtain ⟨i, payload⟩ := r
    obtain ⟨o, tree, pad, rfl, -⟩ := decodeHb_eq_ok hdecode
    cases herror : huffHeaderError buf.length cap o tree.length pad with
    | some kind => rw [huffDecode_of_headerError hdecode herror] at h; cases h
    | none =>
      rw [huffDecode_of_header hdecode herror] at h
      cases hparse : parseTree (unpackBits tree) with
      | error kind => rw [hparse] at h; cases h
      | ok t =>
        rw [hparse] at h
        exact (length_of_walkTree h).trans_le (huffHeaderError_eq_none_le herror)

section
variable {s : State} (hs : s.ready)
include hs

/-- With a header that passes, the engine parses the tree and walks the payload as `HUFF_DEC` of R159 does. -/
theorem walksAs_of_header {tree payload : List Byte} {o : Word} {pad : Byte}
    (hdecode : decodeHb s.input = .ok (.hb o tree pad, payload))
    (herror : huffHeaderError s.n s.cfg.obufCap o tree.length pad = none) :
    WalksAs s (s.inPhase .hdHeader Engine.start) [] (huffDecode s.cfg.obufCap s.input) := by
  obtain ⟨_, _, _, hi, htree, hdrop⟩ := decodeHb_eq_ok hdecode
  cases hi
  have hstep : step (s.inPhase .hdHeader Engine.start) = .next
      (s.parsing { Engine.start with origLen := o, treeLen := BitVec.ofNat 32 tree.length, pad := pad } 0 [] []) :=
    (step_hdHeader (engineRuns_inPhase hs _ _)).trans ((fetched_ok hdecode).trans (execHb_of_ok herror))
  rw [huffDecode_of_header hdecode (by rwa [State.input_length])]
  generalize heng : ({ Engine.start with
    origLen := o, treeLen := BitVec.ofNat 32 tree.length, pad := pad } : Engine) = eng at hstep
  obtain ⟨hfield, hpayload⟩ := fields_of_drop_input (s := s.inPhase .hdTree eng) hdrop
    (by subst heng; exact Nat.mod_eq_of_lt htree) (by subst heng; rfl)
  rw [← hfield]
  refine .of_runs (.single hstep) ?_
  rcases hdTree_cases hs eng with ⟨kind, hparse, hfails⟩ | ⟨t, node, tcur, hparse, hinner, hstored, hparsed⟩
  · rw [hparse]
    exact hfails
  · rw [hparse]
    refine .of_runs hparsed (walksAs_walkTree hs hinner hinner hstored hstored ?_ hpayload)
    subst heng
    exact (Nat.zero_add _).symm

/-- The whole operation: the engine answers what `HUFF_DEC` of R159 answers. -/
theorem walksAs_huffDecode :
    WalksAs s (s.inPhase .hdHeader Engine.start) [] (huffDecode s.cfg.obufCap s.input) := by
  have hstep := step_hdHeader (engineRuns_inPhase hs .hdHeader Engine.start)
  cases hdecode : decodeHb s.input with
  | error e =>
    rw [huffDecode_of_reject hdecode]
    exact ⟨_, _, .single (hstep.trans (fetched_error hdecode))⟩
  | ok r =>
    obtain ⟨i, payload⟩ := r
    obtain ⟨o, tree, pad, rfl, -⟩ := decodeHb_eq_ok hdecode
    cases herror : huffHeaderError s.n s.cfg.obufCap o tree.length pad with
    | some kind =>
      rw [huffDecode_of_headerError hdecode (by rwa [State.input_length])]
      exact ⟨_, _, .single (hstep.trans ((fetched_ok hdecode).trans (execHb_of_error herror)))⟩
    | none => exact walksAs_of_header hs hdecode herror

end

/-- Settles O48: the header, the tree and the walk answer what `HUFF_DEC` of R159 answers, which fits `OBUF`. -/
theorem huffDecRunsToExec : Obligations.HuffDecRunsToExec := by
  intro s hs
  have hexec : Exec .huffDec s.cfg.obufCap s.input = some ((huffDecode s.cfg.obufCap s.input).map (·, false)) := by
    rw [Exec, if_neg (input_ne_nil_of_ready hs)]
  have hwalks := walksAs_huffDecode hs
  cases hresult : huffDecode s.cfg.obufCap s.input with
  | error kind =>
    rw [hresult] at hexec hwalks
    obtain ⟨p, eng, hrun⟩ := hwalks
    exact runsToExec_of_runs hs hrun hexec (finished_failOperation ..)
  | ok bytes =>
    rw [hresult] at hexec hwalks
    obtain ⟨eng, hrun⟩ := hwalks
    exact runsToExec_of_runs hs hrun hexec (finished_deliver hs _ eng (length_huffDecode_le hresult) false)

end Sys2Proof.Machine
end

section
/-! PROOFS. O42, O43: the run of a candidate is the largest agreeing length (R172), and the match finder answers the
nearest of the longest matches (R170, R173). -/

namespace Sys2Proof.Machine

/-! ## The run of a candidate -/

/-- A common run that does not use up the second sequence ends where the two differ (R172). -/
theorem getElem?_commonRun_ne {as bs : List Byte} (h : commonRun as bs < bs.length) :
    as[commonRun as bs]? ≠ bs[commonRun as bs]? := by
  fun_induction commonRun as bs with
  | case1 as b bs ih => exact ih (Nat.lt_of_succ_lt_succ h)
  | case2 a as b bs hab => simpa using hab
  | case3 as bs hcons =>
    cases bs with
    | nil => cases h
    | cons b bs =>
      cases as with
      | nil => simp
      | cons a as => exact absurd rfl (hcons a as b bs rfl)

theorem lookahead_getElem? {input : List Byte} {pos k : Nat} (hk : k < Config.lookaheadSize) :
    (lookahead input pos)[k]? = input[pos + k]? := by
  rw [lookahead, List.getElem?_take_of_lt hk, List.getElem?_drop]

theorem runLength_le (input : List Byte) (pos i : Nat) :
    runLength input pos i ≤ min Config.lookaheadSize (input.length - pos) :=
  (commonRun_le_length_right ..).trans_eq (lookahead_length input pos)

theorem getElem?_eq_of_lt_runLength {input : List Byte} {pos i k : Nat} (hk : k < runLength input pos i) :
    input[i + k]? = input[pos + k]? := by
  have hsize : k < Config.lookaheadSize := hk.trans_le (Nat.le_min.1 (runLength_le input pos i)).1
  rw [← List.getElem?_drop, getElem?_eq_of_lt_commonRun hk, lookahead_getElem? hsize]

theorem getElem?_runLength_ne {input : List Byte} {pos i : Nat}
    (h : runLength input pos i < min Config.lookaheadSize (input.length - pos)) :
    input[i + runLength input pos i]? ≠ input[pos + runLength input pos i]? := by
  rw [← List.getElem?_drop, ← lookahead_getElem? (Nat.lt_min.1 h).1]
  exact getElem?_commonRun_ne (h.trans_eq (lookahead_length input pos).symm)

/-- Settles O43: the run stays in the lookahead, agrees below its length and stops at a difference. -/
theorem runLengthIsTheLargest : Obligations.RunLengthIsTheLargest :=
  fun input pos i _ _ => ⟨runLength_le input pos i, fun _ => getElem?_eq_of_lt_runLength, getElem?_runLength_ne⟩

/-! ## The scan -/

/-- The order of R173: `m` is no worse than the candidate at distance `d` with run `l`. It is longer, or as long and no
farther. -/
def Best.Beats (m : Best) (d l : Nat) : Prop := l ≤ m.len ∧ (l = m.len → m.dist ≤ d)

/-- An offer is taken, or is no match, or is shorter than the best so far (R174). -/
theorem Best.offer_cases (best : Best) (d l : Nat) :
    (Config.minMatchLength ≤ l ∧ best.len ≤ l ∧ best.offer d l = { dist := d, len := l }) ∨
      ((l < Config.minMatchLength ∨ l < best.len) ∧ best.offer d l = best) := by
  by_cases h : Config.minMatchLength ≤ l ∧ best.len ≤ l
  · exact .inl ⟨h.1, h.2, if_pos h⟩
  · exact .inr ⟨by omega, if_neg h⟩

/-- A match that is offered is not lost. -/
theorem Best.offer_beats {best : Best} {d l : Nat} (hl : Config.minMatchLength ≤ l) : (best.offer d l).Beats d l := by
  rcases best.offer_cases d l with ⟨-, -, h⟩ | ⟨hless, h⟩
  · rw [h]
    exact ⟨le_rfl, fun _ => le_rfl⟩
  · have hlt : l < best.len := hless.resolve_left hl.not_gt
    rw [h]
    exact ⟨hlt.le, fun heq => absurd heq hlt.ne⟩

/-- What the best so far beats, the best after a nearer offer beats. -/
theorem Best.Beats.offer {best : Best} {d l d' : Nat} (h : best.Beats d l) (hd : d' ≤ d) (l' : Nat) :
    (best.offer d' l').Beats d l := by
  rcases best.offer_cases d' l' with ⟨-, hlen, hoffer⟩ | ⟨-, hoffer⟩
  · rw [hoffer]
    exact ⟨h.1.trans hlen, fun _ => hd⟩
  · rwa [hoffer]

theorem Best.Beats.scanCandidates {best : Best} {d l D : Nat} (h : best.Beats d l) (hD : D ≤ d) (la src : List Byte) :
    (scanCandidates la src D best).Beats d l := by
  induction D generalizing src best with
  | zero => exact h
  | succ D ih => exact ih (h.offer hD _) (by omega) _

/-- The scan's answer beats every match among its candidates (R173). -/
theorem scanCandidates_beats {la src : List Byte} {D d : Nat} {best : Best} (h1 : 1 ≤ d) (hd : d ≤ D)
    (hmatch : Config.minMatchLength ≤ commonRun (src.drop (D - d)) la) :
    (scanCandidates la src D best).Beats d (commonRun (src.drop (D - d)) la) := by
  induction D generalizing src best with
  | zero => omega
  | succ D ih =>
    rw [scanCandidates]
    rcases Nat.le_succ_iff.1 hd with hd | rfl
    · have hdrop : src.drop (D + 1 - d) = (src.drop 1).drop (D - d) := by
        rw [List.drop_drop, show 1 + (D - d) = D + 1 - d by omega]
      rw [hdrop] at hmatch ⊢
      exact ih hd hmatch
    · rw [Nat.sub_self, List.drop_zero] at hmatch ⊢
      exact (Best.offer_beats hmatch).scanCandidates (Nat.le_succ D) _ _

/-- Only a match replaces what the scan started from (R173, R174). -/
theorem scanCandidates_eq_or_minMatchLength_le (la src : List Byte) (D : Nat) (best : Best) :
    scanCandidates la src D best = best ∨ Config.minMatchLength ≤ (scanCandidates la src D best).len := by
  induction D generalizing src best with
  | zero => exact .inl rfl
  | succ D ih =>
    rw [scanCandidates]
    rcases ih (src.drop 1) (best.offer (D + 1) (commonRun src la)) with h | h
    · rw [h]
      rcases best.offer_cases (D + 1) (commonRun src la) with ⟨hl, -, hoffer⟩ | ⟨-, hoffer⟩
      · exact .inr (by rwa [hoffer])
      · exact .inl hoffer
    · exact .inr h

/-! ## The match finder -/

section
variable {input : List Byte} {pos : Nat}

/-- What the scan of `findLongestMatch` compares at distance `d` is the candidate at `pos - d` (R171, R172). -/
theorem commonRun_drop_farthest {d : Nat} (hd : d ≤ farthest pos) :
    commonRun ((input.drop (pos - farthest pos)).drop (farthest pos - d)) (lookahead input pos) =
      runLength input pos (pos - d) := by
  have hpos : farthest pos ≤ pos := Nat.min_le_left ..
  rw [runLength, List.drop_drop, show pos - farthest pos + (farthest pos - d) = pos - d by omega]

/-- The match finder beats every candidate that is a match. -/
theorem findLongestMatch_beats {d : Nat} (h1 : 1 ≤ d) (hd : d ≤ farthest pos)
    (hmatch : Config.minMatchLength ≤ runLength input pos (pos - d)) :
    (findLongestMatch input pos).Beats d (runLength input pos (pos - d)) := by
  rw [← commonRun_drop_farthest hd] at hmatch ⊢
  exact scanCandidates_beats h1 hd hmatch

/-- The no-match value is the answer where no match is found (R170). -/
theorem minMatchLength_le_findLongestMatch (h : findLongestMatch input pos ≠ ⟨0, 0⟩) :
    Config.minMatchLength ≤ (findLongestMatch input pos).len :=
  (scanCandidates_eq_or_minMatchLength_le ..).resolve_left h

/-- The length of an answer is the run of one of the candidates. -/
theorem exists_findLongestMatch_len_eq (h : findLongestMatch input pos ≠ ⟨0, 0⟩) :
    ∃ d, 1 ≤ d ∧ d ≤ farthest pos ∧ (findLongestMatch input pos).len = runLength input pos (pos - d) := by
  obtain ⟨d, h1, hd, hm⟩ := (scanCandidates_cases ..).resolve_left h
  exact ⟨d, h1, hd, (congrArg Best.len hm).trans (commonRun_drop_farthest hd)⟩

theorem findLongestMatch_eq_noMatch_iff :
    findLongestMatch input pos = ⟨0, 0⟩ ↔
      ∀ d, 1 ≤ d → d ≤ farthest pos → runLength input pos (pos - d) < Config.minMatchLength := by
  constructor
  · intro hnone d h1 hd
    by_contra hrun
    have hle := (findLongestMatch_beats h1 hd (Nat.le_of_not_lt hrun)).1
    rw [hnone] at hle
    exact hrun (hle.trans_lt (by decide))
  · intro hshort
    by_contra hsome
    obtain ⟨d, h1, hd, hlen⟩ := exists_findLongestMatch_len_eq hsome
    exact (hshort d h1 hd).not_ge (hlen ▸ minMatchLength_le_findLongestMatch hsome)

/-- An answer beats every candidate: a match by the scan, any other since it is shorter (R173). -/
theorem findLongestMatch_beats_of_ne (h : findLongestMatch input pos ≠ ⟨0, 0⟩) {d : Nat} (h1 : 1 ≤ d)
    (hd : d ≤ farthest pos) : (findLongestMatch input pos).Beats d (runLength input pos (pos - d)) := by
  by_cases hmatch : Config.minMatchLength ≤ runLength input pos (pos - d)
  · exact findLongestMatch_beats h1 hd hmatch
  · have hlt := (Nat.lt_of_not_le hmatch).trans_le (minMatchLength_le_findLongestMatch h)
    exact ⟨hlt.le, fun heq => absurd heq hlt.ne⟩

end

/-- Settles O42: the scan finds a match where there is one, and its answer beats every candidate. -/
theorem matchFinderIsLongestAndNearest : Obligations.MatchFinderIsLongestAndNearest := by
  intro input pos hpos
  refine ⟨findLongestMatch_eq_noMatch_iff, fun hsome => ?_⟩
  have hlen := minMatchLength_le_findLongestMatch hsome
  have hm := findLongestMatch_isMatchAt hpos.le hlen
  exact ⟨hm.one_le_dist, Nat.le_min.2 ⟨hm.dist_le, hm.dist_le_window⟩, hlen,
    Nat.le_min.2 ⟨hm.len_le, Nat.le_sub_of_add_le' hm.end_le⟩, hm.agrees,
    fun _ h1 hd => findLongestMatch_beats_of_ne hsome h1 hd⟩

end Sys2Proof.Machine
end

section
/-! PROOFS. O44, O49: the bytes of an emitted token (R186, R187), and `LZ77_ENC`, which emits its header and its tokens one
after another to the result of `Exec` (R189, R219, R221, R222). -/

namespace Sys2Proof.Machine

/-! ## The bytes of a token -/

/-- The two bytes of the distance, high byte first (R84). -/
theorem extractLsb'_distance {d : Nat} (hd : d ≤ Config.windowSize) :
    (BitVec.ofNat 16 d).extractLsb' 8 8 = BitVec.ofNat 8 (d / 256) ∧
      (BitVec.ofNat 16 d).extractLsb' 0 8 = BitVec.ofNat 8 (d % 256) := by
  have hmod : d % 2 ^ 16 = d := Nat.mod_eq_of_lt (hd.trans_lt (by decide : 4096 < 2 ^ 16))
  constructor <;> apply BitVec.eq_of_toNat_eq
  · rw [BitVec.extractLsb'_toNat, BitVec.toNat_ofNat, BitVec.toNat_ofNat, hmod, Nat.shiftRight_eq_div_pow]
  · rw [BitVec.extractLsb'_toNat, BitVec.toNat_ofNat, BitVec.toNat_ofNat, hmod, Nat.shiftRight_zero, Nat.mod_mod]

/-- The length byte: the flag in bit 7, the length below it (R84). -/
theorem ofBool_append_length (h : Bool) {l : Nat} (hl : l ≤ Config.lookaheadSize) :
    BitVec.ofBool h ++ BitVec.ofNat 7 l = BitVec.ofNat 8 ((if h then 128 else 0) + l) := by
  have hlt : l < 2 ^ 7 := hl.trans_lt (by decide : 18 < 2 ^ 7)
  apply BitVec.eq_of_toNat_eq
  rw [BitVec.toNat_append, BitVec.toNat_ofBool, BitVec.toNat_ofNat, BitVec.toNat_ofNat, Nat.mod_eq_of_lt hlt,
    ← Nat.shiftLeft_add_eq_or_of_lt hlt]
  cases h with
  | false => change 0 + l = (0 + l) % 256; omega
  | true => change 128 + l = (128 + l) % 256; omega

/-- Settles O44: the literal by its two cases, the match byte by byte. -/
theorem emittedTokenBytes : Obligations.EmittedTokenBytes := by
  refine ⟨fun b => apply_ite encodeBytes _ _ _, fun d l nx _ hd _ hl => ?_⟩
  obtain ⟨hhigh, hlow⟩ := extractLsb'_distance hd
  rw [matchToken, encodeBytes, hhigh, hlow, ofBool_append_length nx.isSome hl]
  rfl

/-! ## The two phases -/

/-- The engine runs from `start` to the end of the operation that began in `s`, with the result `out` where that fits `OBUF`
and with `Capacity` where it does not (R240). -/
def DeliversWithin (s start : State) (out : List Byte) : Prop :=
  ∃ t, Runs start t ∧ Finished s t ((within s.cfg.obufCap out).map (·, false))

section
variable {s start mid : State} {p : Phase} {eng : Engine}

/-- An output that is delivered and fits. -/
theorem deliversWithin_of_delivers (hs : s.ready) {out : List Byte} (hfits : out.length ≤ s.cfg.obufCap)
    (hstep : step start = .next ((s.inPhase p eng).deliver out false)) : DeliversWithin s start out := by
  refine ⟨_, .single hstep, ?_⟩
  rw [within, if_neg hfits.not_gt]
  exact finished_deliver hs p eng hfits false

/-- The check of an emit stands for the bound on the whole result: bytes that do not fit are bytes of a result that does not
fit (R189, R240). -/
theorem deliversWithin_of_emit {bytes rest : List Byte}
    (hstep : step start =
      if (s.inPhase p eng).fits bytes.length then .next mid else .next ((s.inPhase p eng).failOperation .capacity))
    (hmid : (eng.out ++ bytes).length ≤ s.cfg.obufCap → DeliversWithin s mid (eng.out ++ bytes ++ rest)) :
    DeliversWithin s start (eng.out ++ (bytes ++ rest)) := by
  rw [← List.append_assoc]
  have hfits : (s.inPhase p eng).fits bytes.length = true ↔ (eng.out ++ bytes).length ≤ s.cfg.obufCap := by
    rw [List.length_append]
    exact decide_eq_true_iff
  split at hstep
  · next hle =>
    obtain ⟨t, hrun, hfinished⟩ := hmid (hfits.1 hle)
    exact ⟨t, .head hstep hrun, hfinished⟩
  · next hbeyond =>
    have hlt := not_le.1 (mt hfits.2 hbeyond)
    refine ⟨_, .single hstep, ?_⟩
    rw [within, if_pos (by rw [List.length_append]; omega)]
    exact finished_failOperation s p eng .capacity

/-- At the end of the input `LE_SCAN` delivers the output (R189). -/
theorem stepLeScan_of_end (hend : encoderStep s.input s.eng.ipos = none) :
    stepLeScan s = .next (s.deliver s.eng.out false) := by
  rw [stepLeScan, hend]

/-- What an encoder step makes of the memories (R189). -/
def Engine.takeStep (eng : Engine) (e : EncoderStep) : Engine :=
  { eng with
    out := eng.out ++ encodeBytes e.token, ipos := e.next, bestDist := e.best.dist, bestLen := e.best.len,
    hasNext := e.hasNext.getD eng.hasNext }

/-- A move of `LE_SCAN` emits one token, if it fits (R189, R240). -/
theorem stepLeScan_of_step {e : EncoderStep} (he : encoderStep s.input s.eng.ipos = some e) :
    stepLeScan s =
      if s.fits (encodeBytes e.token).length then .next { s with eng := s.eng.takeStep e }
      else .next (s.failOperation .capacity) := by
  rw [stepLeScan, he]
  rfl

theorem step_leScan (hs : s.ready) : step (s.inPhase .leScan eng) = stepLeScan (s.inPhase .leScan eng) :=
  step_inPhase hs .leScan eng

theorem deliversWithin_leScan_of_end (hs : s.ready) (hend : encoderStep s.input eng.ipos = none)
    (hout : eng.out.length ≤ s.cfg.obufCap) : DeliversWithin s (s.inPhase .leScan eng) eng.out :=
  deliversWithin_of_delivers hs hout ((step_leScan hs).trans (stepLeScan_of_end hend))

/-- `LE_SCAN` emits the tokens of R189 from its position on, after the output so far. -/
theorem deliversWithin_leScan (hs : s.ready) {fuel : Nat} (hfuel : s.n ≤ eng.ipos + fuel)
    (hout : eng.out.length ≤ s.cfg.obufCap) :
    DeliversWithin s (s.inPhase .leScan eng) (eng.out ++ (lz77Tokens s.input fuel eng.ipos).flatMap encodeBytes) := by
  induction fuel generalizing eng with
  | zero =>
    have hend : encoderStep s.input eng.ipos = none := encoderStep_of_length_le (by rwa [State.input_length])
    rw [lz77Tokens, List.flatMap_nil, List.append_nil]
    exact deliversWithin_leScan_of_end hs hend hout
  | succ fuel ih =>
    rw [lz77Tokens]
    cases he : encoderStep s.input eng.ipos with
    | none =>
      rw [List.flatMap_nil, List.append_nil]
      exact deliversWithin_leScan_of_end hs he hout
    | some e =>
      obtain ⟨e', he', -, -, hnext, -⟩ := encoderStep_covers (lt_length_of_encoderStep he)
      cases he.symm.trans he'
      have hfuel' : s.n ≤ (eng.takeStep e).ipos + fuel := by
        change s.n ≤ e.next + fuel
        omega
      rw [List.flatMap_cons]
      exact deliversWithin_of_emit ((step_leScan hs).trans (stepLeScan_of_step he)) (ih hfuel')

end

theorem lz77Encode_input (s : State) :
    lz77Encode s.input = be32 s.inLen ++ (lz77Tokens s.input s.n 0).flatMap encodeBytes := by
  rw [lz77Encode, State.input_length, State.n, BitVec.ofNat_toNat, BitVec.setWidth_eq]

/-- Settles O49: the header and each token are emitted under the check of R240, which together is the bound of `Exec` on the
whole buffer. -/
theorem lz77EncRunsToExec : Obligations.Lz77EncRunsToExec := by
  intro s hs
  have hexec : Exec .lz77Enc s.cfg.obufCap s.input =
      some ((within s.cfg.obufCap (lz77Encode s.input)).map (·, false)) := by
    rw [Exec, if_neg (input_ne_nil_of_ready hs)]
  have hdelivers : DeliversWithin s (s.inPhase .leHeader Engine.start) (lz77Encode s.input) := by
    rw [lz77Encode_input]
    exact deliversWithin_of_emit (bytes := be32 s.inLen) (step_inPhase hs .leHeader Engine.start)
      (deliversWithin_leScan hs (eng := { Engine.start with out := be32 s.inLen }) (Nat.zero_add _).ge)
  obtain ⟨t, hrun, hfinished⟩ := hdelivers
  exact runsToExec_of_runs hs hrun hexec hfinished

end Sys2Proof.Machine
end

section
/-! PROOFS. O19, O23, O24, O27: the header and the tokens of an LZ77 buffer, each where its decoder finds it (R200 to
R206). -/

namespace Sys2Proof.Machine

/-! ## LIT, ESC and LB -/

/-- Settles O23: the two updates of `LIT` are the one that is stated. -/
theorem literalAppendsItsByte : Obligations.LiteralAppendsItsByte := execLit_next

/-- Settles O24: by the presence of the token. -/
theorem escapeAppendsItsByte : Obligations.EscapeAppendsItsByte := by
  intro v s
  rcases execEsc_cases v s with ⟨hshort, hexec⟩ | ⟨hwhole, hexec⟩
  · exact ⟨fun hwhole => absurd hshort (by omega), fun _ => ⟨_, hexec, failed_failOperation s _⟩⟩
  · exact ⟨fun _ => hexec, fun hshort => absurd hwhole (by omega)⟩

/-- LB where a check fails (R200). -/
theorem execLb_of_error {o : Word} {s : State} {kind : ErrorKind}
    (h : lz77HeaderError s.n s.cfg.obufCap o = some kind) : exec (.lb o) s = .next (s.failOperation kind) := by
  rcases execLb_cases o s with ⟨kind', hkind, hexec⟩ | ⟨hnone, -⟩
  · rwa [Option.some.inj (h.symm.trans hkind)]
  · rw [h] at hnone; cases hnone

/-- LB where the checks pass: the header value, and the tokens follow (R200). -/
theorem execLb_of_ok {o : Word} {s : State} (h : lz77HeaderError s.n s.cfg.obufCap o = none) :
    exec (.lb o) s =
      .next { s with eng := { s.eng with origLen := o, ipos := 4, out := [] }, phase := .ldTokens } := by
  rcases execLb_cases o s with ⟨kind, hkind, -⟩ | ⟨-, hexec⟩
  · rw [h] at hkind; cases hkind
  · exact hexec

/-- With four bytes there, the check of the capacity is left (R200). -/
theorem lz77HeaderError_of_whole {L : Nat} (h : 4 ≤ L) (cap : Nat) (o : Word) :
    lz77HeaderError L cap o = if o.toNat > cap then some .capacity else none :=
  if_neg (Nat.not_lt.2 h)

/-- Settles O27: by the first check that fails. -/
theorem lz77HeaderIsChecked : Obligations.Lz77HeaderIsChecked := by
  intro o s
  have hfails {kind : ErrorKind} (h : lz77HeaderError s.n s.cfg.obufCap o = some kind) :
      ∃ t, exec (.lb o) s = .next t ∧ Failed s t kind := ⟨_, execLb_of_error h, failed_failOperation s kind⟩
  refine ⟨fun hshort => hfails (if_pos hshort), fun hwhole hcap => hfails ?_, fun hwhole hcap => execLb_of_ok ?_⟩
  · rw [lz77HeaderError_of_whole hwhole, if_pos hcap]
  · rw [lz77HeaderError_of_whole hwhole, if_neg (Nat.not_lt.2 hcap)]

/-! ## The token at the cursor -/

theorem encodeBytes_token_length_le {i : Instr} (hi : i.format = .token) : (encodeBytes i).length ≤ 5 := by
  cases i with
  | lit | esc | matchRef => exact Nat.le_of_ble_eq_true rfl
  | _ => cases hi

/-- The five bytes of a `MATCH` are those it was read from (R84). -/
theorem encodeBytes_matchOfBytes (dh dl lh nx : Byte) :
    encodeBytes (matchOfBytes dh dl lh nx) = [0xFF, dh, dl, lh, nx] := by
  have hhigh : (be16Dec dh dl).extractLsb' 8 8 = dh := by
    apply BitVec.eq_of_toNat_eq
    rw [BitVec.extractLsb'_toNat, toNat_be16Dec, Nat.shiftRight_eq_div_pow]
    omega
  have hlow : (be16Dec dh dl).extractLsb' 0 8 = dl := by
    apply BitVec.eq_of_toNat_eq
    rw [BitVec.extractLsb'_toNat, toNat_be16Dec, Nat.shiftRight_zero]
    omega
  have hlength : (BitVec.ofBool (lh.getLsbD 7) ++ lh.setWidth 7 : BitVec 8) = lh := by
    revert lh
    decide
  rw [matchOfBytes, encodeBytes, hhigh, hlow, hlength]
  rfl

/-- A token that is decoded is at the front of the bytes, and what follows it is left (R81 to R84). -/
theorem decodeToken_eq_ok {bytes rest : List Byte} {i : Instr} (h : decodeToken bytes = .ok (i, rest)) :
    i.wf = true ∧ bytes = encodeBytes i ++ rest := by
  match bytes with
  | [] => cases h
  | t :: more =>
    rcases firstByte_cases t with rfl | rfl | hlit
    · by_cases hshort : more.length < 4
      · rw [decodeToken_truncatedMatch hshort] at h; cases h
      · match more, Nat.le_of_not_lt hshort with
        | dh :: dl :: lh :: nx :: more', _ =>
          rw [decodeToken_matchRef] at h
          cases h
          exact ⟨rfl, by rw [encodeBytes_matchOfBytes]; rfl⟩
    · match more with
      | [] => cases h
      | b :: more' =>
        rw [decodeToken_esc] at h
        cases h
        exact ⟨rfl, rfl⟩
    · rw [decodeToken_lit hlit] at h
      cases h
      exact ⟨decide_eq_true hlit, rfl⟩

/-- Five bytes are enough for the token at the front (R81). -/
theorem decodeToken_take_of_ok {bytes rest : List Byte} {i : Instr} (h : decodeToken bytes = .ok (i, rest)) :
    ∃ rest', decodeToken (bytes.take 5) = .ok (i, rest') := by
  have hi := decodeToken_format h
  obtain ⟨hwf, rfl⟩ := decodeToken_eq_ok h
  rw [List.take_append, List.take_of_length_le (encodeBytes_token_length_le hi)]
  exact ⟨_, decodeToken_encodeBytes i hi hwf _⟩

/-- Where no whole token is left, there is none in five bytes either (R202). -/
theorem decodeToken_take_of_error {bytes : List Byte} {e : Reject} (h : decodeToken bytes = .error e) :
    ∃ e', decodeToken (bytes.take 5) = .error e' := by
  cases htake : decodeToken (bytes.take 5) with
  | error e' => exact ⟨e', rfl⟩
  | ok r =>
    obtain ⟨i, rest⟩ := r
    obtain ⟨hwf, hbytes⟩ := decodeToken_eq_ok htake
    rw [← List.take_append_drop 5 bytes, hbytes, List.append_assoc,
      decodeToken_encodeBytes i (decodeToken_format htake) hwf] at h
    cases h

section
variable {s : State}

/-- Bytes that stand at an address in the input are what the input goes on with there. -/
theorem State.drop_input_of_holds {a : Nat} {bytes : List Byte} (hfits : a + bytes.length ≤ s.n)
    (hholds : s.holds a bytes) : s.input.drop a = bytes ++ s.input.drop (a + bytes.length) := by
  have hbytes : s.ibufBytes a bytes.length = bytes :=
    List.ext_getElem (by simp) fun k _ hk => by
      rw [← hholds k hk]
      simp [State.ibufBytes]
  rw [← List.drop_drop, ← List.take_append_drop bytes.length (s.input.drop a),
    ← State.ibufBytes_eq_take_drop_input hfits, hbytes, List.drop_left' rfl]

/-- A token that is decoded at an address lies in the input, and what follows it is the input after it (R201). -/
theorem State.token_in_input {a : Nat} (ha : a ≤ s.n) {i : Instr} {rest : List Byte}
    (hdecode : decodeToken (s.input.drop a) = .ok (i, rest)) :
    a + (encodeBytes i).length ≤ s.n ∧ rest = s.input.drop (a + (encodeBytes i).length) := by
  obtain ⟨-, hbytes⟩ := decodeToken_eq_ok hdecode
  have hlen := congrArg List.length hbytes
  rw [List.length_drop, State.input_length, List.length_append] at hlen
  exact ⟨by omega, by rw [← List.drop_drop, hbytes, List.drop_left]⟩

section
variable (hruns : s.engineRuns .ldTokens) (hneed : s.eng.out.length < s.origN) (hipos : s.eng.ipos ≤ s.n)
include hruns hneed hipos

/-- The move runs the token that stands at the cursor (R201, R204). -/
theorem step_ldTokens_of_token {i : Instr} {rest : List Byte}
    (hdecode : decodeToken (s.input.drop s.eng.ipos) = .ok (i, rest)) : step s = exec i s := by
  obtain ⟨rest', hdecode'⟩ := decodeToken_take_of_ok hdecode
  rw [step_ldTokens hruns hneed, State.inputAt_eq_take_drop_input 5 hipos]
  exact fetched_ok hdecode'

/-- Without a whole token at the cursor the stream is truncated (R202). -/
theorem step_ldTokens_of_reject {e : Reject} (hdecode : decodeToken (s.input.drop s.eng.ipos) = .error e) :
    step s = .next (s.failOperation .truncatedStream) := by
  obtain ⟨e', hdecode'⟩ := decodeToken_take_of_error hdecode
  rw [step_ldTokens hruns hneed, State.inputAt_eq_take_drop_input 5 hipos]
  exact fetched_error hdecode'

end

/-- Settles O19: the token's bytes are at the front of what is left of the input, so the decoder reads it. -/
theorem stepRunsTheToken : Obligations.StepRunsTheToken := by
  intro i s hi hwf hruns hneed hfits hholds
  refine step_ldTokens_of_token hruns hneed (by omega) (rest := s.input.drop (s.eng.ipos + (encodeBytes i).length)) ?_
  rw [State.drop_input_of_holds hfits hholds]
  exact decodeToken_encodeBytes i hi hwf _

end

end Sys2Proof.Machine
end

section
/-! PROOFS. O28: the decoder's loop gives exactly the count of the header (R200, R204, R207). -/

namespace Sys2Proof.Machine

/-! ## The header -/

/-- One more byte below a number (R9). -/
theorem toNat_append_byte {w : Nat} (x : BitVec w) (b : Byte) : (x ++ b).toNat = x.toNat * 2 ^ 8 + b.toNat := by
  rw [BitVec.toNat_append, ← Nat.shiftLeft_add_eq_or_of_lt b.isLt, Nat.shiftLeft_eq]

/-- The value of four bytes, the most significant first (R9, R51). -/
theorem toNat_be32Dec (a b c d : Byte) :
    (be32Dec a b c d).toNat = a.toNat * 2 ^ 24 + b.toNat * 2 ^ 16 + c.toNat * 2 ^ 8 + d.toNat := by
  rw [be32Dec, toNat_append_byte, toNat_append_byte, toNat_append_byte]
  omega

/-- `be32` is the inverse of `be32_dec` (R9). -/
theorem be32_be32Dec (a b c d : Byte) : be32 (be32Dec a b c d) = [a, b, c, d] := by
  have hbyte (k : Nat) (x : Byte) (hx : (be32Dec a b c d).toNat / 2 ^ k % 2 ^ 8 = x.toNat) :
      (be32Dec a b c d).extractLsb' k 8 = x := by
    apply BitVec.eq_of_toNat_eq
    rw [BitVec.extractLsb'_toNat, Nat.shiftRight_eq_div_pow, hx]
  have ha := a.isLt
  have hb := b.isLt
  have hc := c.isLt
  have hd := d.isLt
  rw [be32, hbyte 24 a (by rw [toNat_be32Dec]; omega), hbyte 16 b (by rw [toNat_be32Dec]; omega),
    hbyte 8 c (by rw [toNat_be32Dec]; omega), hbyte 0 d (by rw [toNat_be32Dec]; omega)]

/-- Four bytes are a header (R80). -/
theorem exists_eq_be32_append {buf : List Byte} (h : 4 ≤ buf.length) : ∃ o rest, buf = be32 o ++ rest := by
  match buf, h with
  | a :: b :: c :: d :: rest, _ => exact ⟨be32Dec a b c d, rest, by rw [be32_be32Dec]; rfl⟩

theorem lz77Decode_of_short {cap : Nat} {buf : List Byte} (h : buf.length < 4) :
    lz77Decode cap buf = .error .malformedHeader := by
  rw [lz77Decode, decodeLb_of_short h]

/-- `LZ77_DEC` of a header and what follows it (R200, R204). -/
theorem lz77Decode_be32_append (cap : Nat) (o : Word) (rest : List Byte) :
    lz77Decode cap (be32 o ++ rest) =
      if o.toNat > cap then .error .capacity else lz77Loop o.toNat rest.length rest [] := by
  rw [lz77Decode, decodeLb_encodeBytes]

/-! ## The loop -/

section
variable {N fuel : Nat} {bytes rest out : List Byte} (hneed : out.length < N)
include hneed

/-- No whole token is left, though bytes are wanted (R202). -/
theorem lz77Loop_of_reject {e : Reject} (hdecode : decodeToken bytes = .error e) :
    lz77Loop N fuel bytes out = .error .truncatedStream := by
  cases fuel with
  | zero => rw [lz77Loop, if_neg (Nat.not_le.2 hneed)]
  | succ fuel => rw [lz77Loop, if_neg (Nat.not_le.2 hneed)]; simp only [hdecode]

/-- A token takes the loop to what it makes of the output (R204). -/
theorem lz77Loop_of_token {i : Instr} (hdecode : decodeToken bytes = .ok (i, rest)) :
    lz77Loop N (fuel + 1) bytes out = (tokenOutput N out i).bind (lz77Loop N fuel rest) := by
  rw [lz77Loop, if_neg (Nat.not_le.2 hneed)]
  simp only [hdecode]
  cases tokenOutput N out i <;> rfl

/-- No token passes the count (R203, R205, R206). -/
theorem length_tokenOutput_le {i : Instr} {out' : List Byte} (h : tokenOutput N out i = .ok out') :
    out'.length ≤ N := by
  have hone (b : Byte) : (out ++ [b]).length ≤ N := List.length_append.trans_le hneed
  cases i with
  | lit v => cases h; exact hone v
  | esc v => cases h; exact hone v
  | matchRef d hn l nx =>
    rw [tokenOutput] at h
    split at h
    · cases h
    · cases h; exact length_matchOutput_le _ _ _ _ hneed.le
  | _ => cases h; exact hneed.le

end

/-- The loop ends with the count, or with an error (R204, R207). -/
theorem length_of_lz77Loop {N fuel : Nat} {bytes out result : List Byte} (hout : out.length ≤ N)
    (h : lz77Loop N fuel bytes out = .ok result) : result.length = N := by
  induction fuel generalizing bytes out with
  | zero =>
    rcases hout.eq_or_lt with heq | hneed
    · rw [lz77Loop_of_le _ _ heq.ge] at h; cases h; exact heq
    · rw [lz77Loop, if_neg (Nat.not_le.2 hneed)] at h; cases h
  | succ fuel ih =>
    rcases hout.eq_or_lt with heq | hneed
    · rw [lz77Loop_of_le _ _ heq.ge] at h; cases h; exact heq
    · cases hdecode : decodeToken bytes with
      | error e => rw [lz77Loop_of_reject hneed hdecode] at h; cases h
      | ok r =>
        rw [lz77Loop_of_token hneed hdecode] at h
        cases htoken : tokenOutput N out r.1 with
        | error kind => rw [htoken] at h; cases h
        | ok out' =>
          rw [htoken] at h
          exact ih (length_tokenOutput_le hneed htoken) h

/-- Settles O28: the header's value is within the capacity, and the loop ends with that many bytes. -/
theorem lz77DecoderCountsExactly : Obligations.Lz77DecoderCountsExactly := by
  intro cap a b c d rest out h
  have hbuf : a :: b :: c :: d :: rest = be32 (be32Dec a b c d) ++ rest := by rw [be32_be32Dec]; rfl
  rw [hbuf, lz77Decode_be32_append] at h
  split at h
  · cases h
  · next hcap =>
    have hlen := length_of_lz77Loop (Nat.zero_le _) h
    exact ⟨hlen.trans (toNat_be32Dec a b c d), hlen.trans_le (Nat.le_of_not_lt hcap)⟩

end Sys2Proof.Machine
end

section
/-! PROOFS. O50: `LZ77_DEC` runs token by token to the result of `Exec` (R204, R219, R221, R222). -/

namespace Sys2Proof.Machine

/-! ## One token -/

section
variable {s : State} {i : Instr} (hi : i.format = .token) (hwhole : s.eng.ipos + (encodeBytes i).length ≤ s.n)
include hi hwhole

/-- A token that is wholly there fails as it does in the loop: a `MATCH` with a bad distance (R203). -/
theorem exec_token_of_error {kind : ErrorKind} (h : tokenOutput s.origN s.eng.out i = .error kind) :
    exec i s = .next ((s.advance (encodeBytes i).length).failOperation kind) := by
  cases i with
  | lit | esc => cases h
  | matchRef d hn l nx =>
    rw [tokenOutput] at h
    rcases execMatch_cases d hn l nx s with ⟨hshort, -⟩ | ⟨-, hbad, hexec⟩ | ⟨-, hgood, -⟩
    · exact absurd hwhole (Nat.not_le.2 hshort)
    · rw [if_pos hbad] at h; cases h; exact hexec
    · rw [hgood] at h; cases h
  | _ => cases hi

/-- A token that is wholly there makes of the output what it makes of it in the loop, and the cursor passes it (R203,
R205, R206). -/
theorem exec_token_of_ok {out : List Byte} (h : tokenOutput s.origN s.eng.out i = .ok out) :
    exec i s =
      .next { s with eng := { s.eng with ipos := s.eng.ipos + (encodeBytes i).length, out := out } } := by
  cases i with
  | lit v => cases h; exact execLit_next v s
  | esc v =>
    cases h
    rcases execEsc_cases v s with ⟨hshort, -⟩ | ⟨-, hexec⟩
    · exact absurd hwhole (Nat.not_le.2 hshort)
    · exact hexec
  | matchRef d hn l nx =>
    rw [tokenOutput] at h
    rcases execMatch_cases d hn l nx s with ⟨hshort, -⟩ | ⟨-, hbad, -⟩ | ⟨-, hgood, hexec⟩
    · exact absurd hwhole (Nat.not_le.2 hshort)
    · rw [if_pos hbad] at h; cases h
    · rw [hgood] at h; cases h; exact hexec
  | _ => cases hi

end

/-! ## The two phases -/

/-- The engine runs from `start` to the end of the operation that began in `s`, with the result `r`. -/
def AnswersAs (s start : State) (r : Except ErrorKind (List Byte)) : Prop :=
  ∃ t, Runs start t ∧ Finished s t (r.map (·, false))

section
variable {s start mid : State} {p : Phase} {eng : Engine}

theorem AnswersAs.of_step (hstep : step start = .next mid) {r : Except ErrorKind (List Byte)}
    (h : AnswersAs s mid r) : AnswersAs s start r := by
  obtain ⟨t, hrun, hfinished⟩ := h
  exact ⟨t, .head hstep hrun, hfinished⟩

theorem answersAs_error {kind : ErrorKind} (hstep : step start = .next ((s.inPhase p eng).failOperation kind)) :
    AnswersAs s start (.error kind) :=
  ⟨_, .single hstep, finished_failOperation s p eng kind⟩

theorem answersAs_ok (hs : s.ready) {out : List Byte} (hfits : out.length ≤ s.cfg.obufCap)
    (hstep : step start = .next ((s.inPhase p eng).deliver out false)) : AnswersAs s start (.ok out) :=
  ⟨_, .single hstep, finished_deliver hs p eng hfits false⟩

/-- With the count reached `LD_TOKENS` delivers the output (R204). -/
theorem step_ldTokens_of_done (hruns : s.engineRuns .ldTokens) (hdone : s.origN ≤ s.eng.out.length) :
    step s = .next (s.deliver s.eng.out false) := by
  obtain ⟨-, hhazard, -, hphase⟩ := id hruns
  rw [step_of_engineRuns hruns, engineMove, if_neg (by rw [hhazard]; decide), hphase]
  exact congrArg Move.outcome (if_pos hdone)

section
variable (hs : s.ready)
include hs

/-- With the count reached the loop and the engine both end (R204). -/
theorem answersAs_lz77Loop_of_done (hcap : eng.origLen.toNat ≤ s.cfg.obufCap)
    (hdone : eng.origLen.toNat = eng.out.length) (fuel : Nat) (rest : List Byte) :
    AnswersAs s (s.inPhase .ldTokens eng) (lz77Loop eng.origLen.toNat fuel rest eng.out) := by
  rw [lz77Loop_of_le fuel rest hdone.le]
  exact answersAs_ok hs (hdone.ge.trans hcap) (step_ldTokens_of_done (engineRuns_inPhase hs .ldTokens eng) hdone.le)

/-- Without a whole token the loop and the engine both fail (R202). -/
theorem answersAs_lz77Loop_of_reject (hipos : eng.ipos ≤ s.n) (hneed : eng.out.length < eng.origLen.toNat) {e : Reject}
    (hdecode : decodeToken (s.input.drop eng.ipos) = .error e) (fuel : Nat) :
    AnswersAs s (s.inPhase .ldTokens eng)
      (lz77Loop eng.origLen.toNat fuel (s.input.drop eng.ipos) eng.out) := by
  rw [lz77Loop_of_reject hneed hdecode]
  exact answersAs_error (step_ldTokens_of_reject (engineRuns_inPhase hs .ldTokens eng) hneed hipos hdecode)

/-- From each cursor and output the engine answers what the loop of R204 answers on what is left of the input. -/
theorem answersAs_lz77Loop (hipos : eng.ipos ≤ s.n) (hcap : eng.origLen.toNat ≤ s.cfg.obufCap)
    (hout : eng.out.length ≤ eng.origLen.toNat) {fuel : Nat} (hfuel : s.n ≤ eng.ipos + fuel) :
    AnswersAs s (s.inPhase .ldTokens eng)
      (lz77Loop eng.origLen.toNat fuel (s.input.drop eng.ipos) eng.out) := by
  induction fuel generalizing eng with
  | zero =>
    rcases hout.eq_or_lt with hdone | hneed
    · exact answersAs_lz77Loop_of_done hs hcap hdone.symm _ _
    · have hend : s.input.drop eng.ipos = [] := List.drop_eq_nil_of_le (by rwa [State.input_length])
      exact answersAs_lz77Loop_of_reject hs hipos hneed (by rw [hend]; rfl) _
  | succ fuel ih =>
    rcases hout.eq_or_lt with hdone | hneed
    · exact answersAs_lz77Loop_of_done hs hcap hdone.symm _ _
    · cases hdecode : decodeToken (s.input.drop eng.ipos) with
      | error e => exact answersAs_lz77Loop_of_reject hs hipos hneed hdecode _
      | ok r =>
        obtain ⟨i, rest⟩ := r
        have hi := decodeToken_format hdecode
        have hpos := List.length_pos_iff.2 (encodeBytes_token_ne_nil hi)
        obtain ⟨hwhole, rfl⟩ := State.token_in_input hipos hdecode
        have hstep := step_ldTokens_of_token (engineRuns_inPhase hs .ldTokens eng) hneed hipos hdecode
        rw [lz77Loop_of_token hneed hdecode]
        cases htoken : tokenOutput eng.origLen.toNat eng.out i with
        | error kind => exact answersAs_error (hstep.trans (exec_token_of_error hi hwhole htoken))
        | ok out =>
          exact .of_step (hstep.trans (exec_token_of_ok hi hwhole htoken))
            (ih (eng := { eng with ipos := eng.ipos + (encodeBytes i).length, out := out }) hwhole hcap
              (length_tokenOutput_le hneed htoken) (show s.n ≤ eng.ipos + (encodeBytes i).length + fuel by omega))

/-- The whole operation: the engine answers what `LZ77_DEC` of R204 answers. -/
theorem answersAs_lz77Decode :
    AnswersAs s (s.inPhase .ldHeader Engine.start) (lz77Decode s.cfg.obufCap s.input) := by
  have hruns := engineRuns_inPhase hs .ldHeader Engine.start
  by_cases hshort : s.n < 4
  · have hbytes : ((s.inPhase .ldHeader Engine.start).inputAt 4).length < 4 := by
      rw [State.inputAt, State.ibufBytes_length]
      exact (Nat.min_le_right ..).trans_lt hshort
    rw [lz77Decode_of_short (by rwa [State.input_length])]
    exact answersAs_error ((step_ldHeader hruns).trans (fetched_error (decodeLb_of_short hbytes)))
  · have hlong : 4 ≤ s.n := Nat.le_of_not_lt hshort
    obtain ⟨o, rest, hinput⟩ := exists_eq_be32_append (hlong.trans_eq s.input_length.symm)
    have hstep : step (s.inPhase .ldHeader Engine.start) = exec (.lb o) (s.inPhase .ldHeader Engine.start) :=
      stepRunsTheHeader.2 o rest _ hruns rfl hinput
    have herror := lz77HeaderError_of_whole hlong s.cfg.obufCap o
    have hlen := congrArg List.length hinput
    rw [State.input_length, List.length_append, be32_length] at hlen
    have hrest : s.input.drop 4 = rest := by rw [hinput]; rfl
    rw [hinput, lz77Decode_be32_append]
    split
    · next hbeyond =>
      rw [if_pos hbeyond] at herror
      exact answersAs_error (hstep.trans (execLb_of_error herror))
    · next hcap =>
      rw [if_neg hcap] at herror
      rw [← hrest]
      exact .of_step (hstep.trans (execLb_of_ok herror))
        (answersAs_lz77Loop hs (eng := { Engine.start with origLen := o, ipos := 4, out := [] }) hlong
          (Nat.le_of_not_lt hcap) (Nat.zero_le _) (by rw [hrest]; exact hlen.le))

end

end

/-- Settles O50: the header and the tokens answer what `LZ77_DEC` of R204 answers, which is the result of `Exec`. -/
theorem lz77DecRunsToExec : Obligations.Lz77DecRunsToExec := by
  intro s hs
  have hexec : Exec .lz77Dec s.cfg.obufCap s.input = some ((lz77Decode s.cfg.obufCap s.input).map (·, false)) := by
    rw [Exec, if_neg (input_ne_nil_of_ready hs)]
  obtain ⟨t, hrun, hfinished⟩ := answersAs_lz77Decode hs
  exact runsToExec_of_runs hs hrun hexec hfinished

end Sys2Proof.Machine
end

section
/-! PROOFS. O46: `Exec` is total, its results fit `OBUF`, and its errors are the operation's own (R221, R240). -/

namespace Sys2Proof.Machine

/-- The error kinds that an operation can answer (R136, R159, R189, R204). -/
def Operation.errors : Operation → List ErrorKind
  | .huffEnc | .lz77Enc => [.capacity]
  | .huffDec => [.malformedHeader, .capacity, .corruptTree, .truncatedStream]
  | .lz77Dec => [.malformedHeader, .capacity, .truncatedStream]

/-- A result that fits `OBUF`, or an error of one of the given kinds (R221, R240). -/
def AnswersWithin (cap : Nat) (kinds : List ErrorKind) : Except ErrorKind (List Byte) → Prop
  | .ok out => out.length ≤ cap
  | .error kind => kind ∈ kinds

theorem answersWithin_within (cap : Nat) (out : List Byte) : AnswersWithin cap [.capacity] (within cap out) := by
  rw [within]
  split
  · exact List.mem_singleton_self _
  · next hfits => exact Nat.le_of_not_lt hfits

/-! ## The errors of `HUFF_DEC` -/

theorem huffHeaderError_mem {L cap t : Nat} {o : Word} {pad : Byte} {kind : ErrorKind}
    (h : huffHeaderError L cap o t pad = some kind) : kind ∈ [ErrorKind.malformedHeader, .capacity] := by
  rw [huffHeaderError] at h
  split_ifs at h
  all_goals
    obtain rfl := Option.some.inj h
    decide

/-- A tree record that cannot be parsed is a corrupt tree (R153 to R155). -/
theorem eq_corruptTree_of_parseNode {fuel : Nat} {top : Bool} {c : Cursor} {kind : ErrorKind}
    (h : parseNode fuel top c = .error kind) : kind = .corruptTree := by
  induction fuel generalizing top c with
  | zero => cases h; rfl
  | succ fuel ih =>
    by_cases hroom : c.rest = [] ∨ c.nodes = Config.nodeCap
    · rw [parseNode_of_noRoom fuel top hroom] at h; cases h; rfl
    · obtain ⟨hne, hfull⟩ := not_or.1 hroom
      match c, hne, hfull with
      | ⟨true :: rest, nodes⟩, _, hfull =>
        by_cases hshort : rest.length < 8
        · rw [parseNode_short hfull hshort] at h; cases h; rfl
        · rw [parseNode_leafBits hfull hshort] at h; cases h
      | ⟨false :: rest, nodes⟩, _, hfull =>
        cases hleft : parseNode fuel false ⟨rest, nodes + 1⟩ with
        | error kind' => rw [parseNode_left_error hfull hleft] at h; cases h; exact ih hleft
        | ok r =>
          obtain ⟨l, c⟩ := r
          by_cases hmore : top = true ∧ c.rest.length < 9
          · obtain ⟨rfl, hshort⟩ := hmore
            by_cases hinner : ∀ b, l ≠ .leaf b
            · rw [parseNode_left_inner hfull hleft hshort hinner] at h; cases h; rfl
            · obtain ⟨b, rfl⟩ := not_forall_not.1 hinner
              rw [parseNode_wrap hfull hleft hshort] at h; cases h
          · rw [parseNode_right hfull hleft hmore] at h
            cases hright : parseNode fuel false c with
            | error kind' => rw [hright] at h; cases h; exact ih hright
            | ok r => rw [hright] at h; cases h

theorem eq_corruptTree_of_parseTree {bits : List Bool} {kind : ErrorKind} (h : parseTree bits = .error kind) :
    kind = .corruptTree := by
  rw [parseTree] at h
  split at h
  · next hparse => cases h; exact eq_corruptTree_of_parseNode hparse
  · cases h; rfl
  · cases h

/-- The walk fails where a bit leads nowhere, or where no bit is left (R158). -/
theorem mem_of_walkTree {root here : Tree} {need : Nat} {bits : List Bool} {kind : ErrorKind}
    (h : walkTree root here need bits = .error kind) : kind ∈ [ErrorKind.corruptTree, .truncatedStream] := by
  induction bits generalizing here need with
  | nil => cases need <;> cases h; decide
  | cons bit bits ih =>
    cases need with
    | zero => cases h
    | succ need =>
      cases hc : here.child bit with
      | none => rw [walkTree_of_child_none hc] at h; cases h; decide
      | some c =>
        by_cases hleaf : ∃ b, c = .leaf b
        · obtain ⟨b, rfl⟩ := hleaf
          rw [walkTree_child_leaf hc] at h
          cases hrest : walkTree root root need bits with
          | error kind' => rw [hrest] at h; cases h; exact ih hrest
          | ok rest => rw [hrest] at h; cases h
        · rw [walkTree_child_inner hc (not_exists.1 hleaf)] at h
          exact ih h

/-- `HUFF_DEC` answers with the error of its header, of its tree or of its walk, or with a result that fits (R159). -/
theorem answersWithin_huffDecode (cap : Nat) (buf : List Byte) :
    AnswersWithin cap Operation.huffDec.errors (huffDecode cap buf) := by
  cases hresult : huffDecode cap buf with
  | ok out => exact length_huffDecode_le hresult
  | error kind =>
    have hheader : [ErrorKind.malformedHeader, .capacity] ⊆ Operation.huffDec.errors := by decide
    have hpayload : [ErrorKind.corruptTree, .truncatedStream] ⊆ Operation.huffDec.errors := by decide
    cases hdecode : decodeHb buf with
    | error e => rw [huffDecode_of_reject hdecode] at hresult; cases hresult; exact hheader (by decide)
    | ok r =>
      obtain ⟨i, payload⟩ := r
      obtain ⟨o, tree, pad, rfl, -⟩ := decodeHb_eq_ok hdecode
      cases herror : huffHeaderError buf.length cap o tree.length pad with
      | some kind' =>
        rw [huffDecode_of_headerError hdecode herror] at hresult
        cases hresult
        exact hheader (huffHeaderError_mem herror)
      | none =>
        rw [huffDecode_of_header hdecode herror] at hresult
        cases hparse : parseTree (unpackBits tree) with
        | error kind' =>
          rw [hparse] at hresult
          cases hresult
          obtain rfl := eq_corruptTree_of_parseTree hparse
          exact hpayload (by decide)
        | ok t => rw [hparse] at hresult; exact hpayload (mem_of_walkTree hresult)

/-! ## The errors of `LZ77_DEC` -/

theorem eq_malformedHeader_of_tokenOutput {N : Nat} {out : List Byte} {i : Instr} {kind : ErrorKind}
    (h : tokenOutput N out i = .error kind) : kind = .malformedHeader := by
  cases i with
  | matchRef d hn l nx =>
    rw [tokenOutput] at h
    split at h <;> cases h
    rfl
  | _ => cases h

/-- The loop fails at a token that is not wholly there, or at one with a bad distance (R202, R203). -/
theorem mem_of_lz77Loop {N fuel : Nat} {bytes out : List Byte} {kind : ErrorKind}
    (h : lz77Loop N fuel bytes out = .error kind) : kind ∈ [ErrorKind.malformedHeader, .truncatedStream] := by
  induction fuel generalizing bytes out with
  | zero =>
    rw [lz77Loop] at h
    split at h <;> cases h
    decide
  | succ fuel ih =>
    by_cases hdone : N ≤ out.length
    · rw [lz77Loop_of_le _ _ hdone] at h; cases h
    · have hneed := Nat.lt_of_not_le hdone
      cases hdecode : decodeToken bytes with
      | error e => rw [lz77Loop_of_reject hneed hdecode] at h; cases h; decide
      | ok r =>
        rw [lz77Loop_of_token hneed hdecode] at h
        cases htoken : tokenOutput N out r.1 with
        | error kind' =>
          rw [htoken] at h
          cases h
          obtain rfl := eq_malformedHeader_of_tokenOutput htoken
          decide
        | ok out' => rw [htoken] at h; exact ih h

/-- `LZ77_DEC` answers with the error of its header or of its loop, or with a result that fits (R200, R204). -/
theorem answersWithin_lz77Decode (cap : Nat) (buf : List Byte) :
    AnswersWithin cap Operation.lz77Dec.errors (lz77Decode cap buf) := by
  by_cases hshort : buf.length < 4
  · rw [lz77Decode_of_short hshort]; exact List.mem_cons_self
  · obtain ⟨o, rest, rfl⟩ := exists_eq_be32_append (Nat.le_of_not_lt hshort)
    rw [lz77Decode_be32_append]
    split
    · show ErrorKind.capacity ∈ Operation.lz77Dec.errors
      decide
    · next hcap =>
      cases hloop : lz77Loop o.toNat rest.length rest [] with
      | ok out => exact (length_of_lz77Loop (Nat.zero_le _) hloop).trans_le (Nat.le_of_not_lt hcap)
      | error kind =>
        have hsub : [ErrorKind.malformedHeader, .truncatedStream] ⊆ Operation.lz77Dec.errors := by decide
        exact hsub (mem_of_lz77Loop hloop)

/-! ## `Exec` -/

/-- `Exec` of a non-empty input has an answer, with `EMPTY = 0` (R221). -/
theorem exists_exec {input : List Byte} (hne : input ≠ []) (op : Operation) (cap : Nat) :
    ∃ r, Exec op cap input = some (r.map (·, false)) ∧ AnswersWithin cap op.errors r := by
  cases op with
  | huffEnc =>
    obtain ⟨t, hbuild, -⟩ := exists_buildTree hne
    exact ⟨_, exec_huffEnc hne hbuild cap, answersWithin_within cap _⟩
  | huffDec => exact ⟨_, if_neg hne, answersWithin_huffDecode cap input⟩
  | lz77Enc => exact ⟨_, if_neg hne, answersWithin_within cap _⟩
  | lz77Dec => exact ⟨_, if_neg hne, answersWithin_lz77Decode cap input⟩

/-- Settles O46: by the answer of the operation's own function. -/
theorem execIsTotal : Obligations.ExecIsTotal := by
  intro op cap input
  by_cases hempty : input = []
  · exact ⟨_, if_pos hempty, fun _ => rfl, fun hne => absurd hempty hne⟩
  · obtain ⟨r, hexec, hanswers⟩ := exists_exec hempty op cap
    refine ⟨_, hexec, fun h => absurd h hempty, fun _ => ⟨fun out empty hok => ?_, fun kind herror => ?_⟩⟩
    · cases r with
      | error kind => cases hok
      | ok out => cases hok; exact ⟨rfl, hanswers⟩
    · cases r with
      | ok out => cases herror
      | error kind => cases herror; cases op <;> exact hanswers

end Sys2Proof.Machine
end

section
/-! PROOFS. O10, O11, O15, O16: what the commands do to an idle block, and what no command changes (R215, R217, R218,
R220, R234). -/

namespace Sys2Proof.Machine

/-! ## The commands that start no operation -/

/-- Settles O10: `NOP` is accepted and completed. -/
theorem nopCompletesAtOnce : Obligations.NopCompletesAtOnce := fun _ hidle => whenIdle_idle hidle

/-- The three illegal commands fail alike (R218). -/
theorem exec_illegal {i : Instr} (hi : i = .illegal5 ∨ i = .illegal6 ∨ i = .illegal7) (s : State) :
    exec i s = s.whenIdle (s.accept.fail .illegalCommand) := by
  rcases hi with rfl | rfl | rfl <;> rfl

/-- Settles O11: an illegal command is accepted and fails. -/
theorem illegalCommandsFail : Obligations.IllegalCommandsFail := by
  intro i s hi hidle
  exact ⟨_, (exec_illegal hi s).trans (whenIdle_idle hidle), rfl, rfl⟩

/-! ## The operations -/

/-- Settles O15: the start of an operation fails. -/
theorem inputBeyondCapacityFails : Obligations.InputBeyondCapacityFails := by
  intro op s hidle hbeyond
  refine ⟨_, exec_command_idle op hidle, ?_⟩
  rw [startOperation_of_beyond hbeyond]
  exact ⟨failed_failOperation s.accepted .capacity, rfl, rfl⟩

/-! ## The frame -/

/-- `t` is `s` but for the status fields, the phase, the output side, the ownership marks and the engine's memories, and
those are kept or are the start values (R39, R215). -/
def CommandKeeps (s t : State) : Prop :=
  t = { s with
        status := t.status, outLen := t.outLen, phase := t.phase, obuf := t.obuf, obufSeed := t.obufSeed
        fresh := t.fresh, hazard := t.hazard, obufDirty := t.obufDirty, eng := t.eng } ∧
  (t.eng = s.eng ∨ t.eng = Engine.start)

theorem startOperation_commandKeeps (s : State) (p : Phase) : CommandKeeps s (s.startOperation p) := by
  rcases startOperation_cases s p with ⟨-, heq⟩ | ⟨-, -, heq⟩ | ⟨-, -, heq⟩
  · rw [heq]; exact ⟨rfl, .inl rfl⟩
  · rw [heq]; exact ⟨rfl, .inl rfl⟩
  · rw [heq]; exact ⟨rfl, .inr rfl⟩

theorem exec_cmdw_commandKeeps {i : Instr} {s t : State} (hi : i.format = .cmdw) (h : exec i s = .next t) :
    CommandKeeps s t := by
  rcases exec_cmdw_cases hi h with rfl | ⟨-, rfl | rfl | ⟨op, rfl⟩⟩
  · exact ⟨rfl, .inl rfl⟩
  · exact ⟨rfl, .inl rfl⟩
  · exact ⟨rfl, .inl rfl⟩
  · exact startOperation_commandKeeps s op.firstPhase

/-- `NOP` and the illegal commands touch the status fields, `OUT_LEN` and the phase only (R217, R218). -/
theorem exec_noOperation_frame {i : Instr} {s t : State}
    (hi : i = .nop ∨ i = .illegal5 ∨ i = .illegal6 ∨ i = .illegal7) (h : exec i s = .next t) :
    t = { s with status := t.status, outLen := t.outLen, phase := t.phase } := by
  rcases hi with rfl | hi
  · rcases whenIdle_cases h with ⟨-, rfl⟩ | ⟨-, rfl⟩ <;> rfl
  · rw [exec_illegal hi] at h
    rcases whenIdle_cases h with ⟨-, rfl⟩ | ⟨-, rfl⟩ <;> rfl

/-- Settles O16: by the two frames. -/
theorem commandFrame : Obligations.CommandFrame := by
  intro i s t hi h
  obtain ⟨hframe, heng⟩ := exec_cmdw_commandKeeps hi h
  refine ⟨by rw [hframe], by rw [hframe], fun a => by rw [hframe]; rfl, by rw [hframe], by rw [hframe], heng,
    fun hnone => ?_⟩
  rw [exec_noOperation_frame hnone h]
  exact ⟨rfl, rfl, fun _ => rfl⟩

end Sys2Proof.Machine
end

section
/-! PROOFS. O59: what a delivered result leaves in `OBUF` (R216, R268, R269). -/

namespace Sys2Proof.Machine

theorem Memory.read?_forget_of_mem {addresses : List Nat} {a : Nat} (h : a ∈ addresses) (m : Memory) :
    (m.forget addresses).read? a = none := by
  induction m with
  | nil => rfl
  | cons c rest ih =>
    rw [Memory.forget, List.filter_cons, ← Memory.forget]
    split
    · next hkept =>
      have hne : c.1 ≠ a := by
        rintro rfl
        simp [h] at hkept
      rw [Memory.read?, if_neg hne, ih]
    · exact ih

theorem Memory.read?_forget_of_notMem {addresses : List Nat} {a : Nat} (h : a ∉ addresses) (m : Memory) :
    (m.forget addresses).read? a = m.read? a := by
  induction m with
  | nil => rfl
  | cons c rest ih =>
    rw [Memory.forget, List.filter_cons, ← Memory.forget]
    split
    · rw [Memory.read?, Memory.read?, ih]
    · next hlost =>
      have hne : c.1 ≠ a := by
        rintro rfl
        simp [h] at hlost
      rw [Memory.read?, if_neg hne, ih]

/-- The cells of a byte sequence at address 0 (R50). -/
theorem Memory.read?_ofBytes_zero (bytes : List Byte) (a : Nat) : (Memory.ofBytes 0 bytes).read? a = bytes[a]? := by
  rw [← Memory.read?_ofBytes 0 bytes a, Nat.zero_add]

section
variable {s : State} {a : Nat}

/-- A byte the host wrote during the operation is unspecified (R268). -/
theorem obufByte_deliver_of_dirty (hdirty : a ∈ s.obufDirty) (out : List Byte) (empty : Bool) :
    (s.deliver out empty).obufByte a = Config.freeByte s.fresh a := by
  rw [State.obufByte, State.deliver_obuf, State.deliver_obufSeed, Memory.read?_forget_of_mem hdirty, Option.getD_none]

/-- Any other byte is the result's, or unspecified where the result has none (R216, R269). -/
theorem obufByte_deliver_of_clean (hclean : a ∉ s.obufDirty) (out : List Byte) (empty : Bool) :
    (s.deliver out empty).obufByte a = out[a]?.getD (Config.freeByte s.fresh a) := by
  rw [State.obufByte, State.deliver_obuf, State.deliver_obufSeed, Memory.read?_forget_of_notMem hclean,
    Memory.read?_ofBytes_zero]

end

/-- Settles O59: by whether the host wrote the byte, and whether the result has one there. -/
theorem deliveredBytes : Obligations.DeliveredBytes := by
  intro s out empty a
  refine ⟨fun hlt hclean => ?_, fun hfree => ?_⟩
  · rw [obufByte_deliver_of_clean hclean, List.getElem?_eq_getElem hlt, Option.getD_some]
  · by_cases hdirty : a ∈ s.obufDirty
    · exact obufByte_deliver_of_dirty hdirty out empty
    · rw [obufByte_deliver_of_clean hdirty, List.getElem?_eq_none (hfree.resolve_right hdirty), Option.getD_none]

end Sys2Proof.Machine
end

section
/-! PROOFS. O60: an idle block with nothing pending, and a host that waits for `DONE` (R246, R260, R263). -/

namespace Sys2Proof.Machine

/-- A waiting host that is due goes on when `DONE = 1`, and otherwise lets a running engine move (R263). -/
theorem step_of_waitDone {s : State} {rest : List HostEvent}
    (hq : s.hostq = { delay := 0, action := .waitDone } :: rest) :
    step s =
      if s.status.done then .next { s with hostq := rest }
      else if s.status.busy then (engineMove s).outcome else .next s := by
  have hdue : ¬(s.status.busy && decide (0 > 0)) = true := by simp
  rw [step, nextMove, hq]
  simp only [if_neg hdue]
  split
  · rfl
  · split <;> rfl

/-- Settles O60: by what is pending. -/
theorem idleStaysAndWaitingLetsRun : Obligations.IdleStaysAndWaitingLetsRun := by
  refine ⟨fun s hidle hq => ?_, fun s rest hq => ⟨fun hbusy hdone => ?_, fun hdone => ?_⟩⟩
  · rw [step_of_hostq_nil hq, hidle]; rfl
  · rw [step_of_waitDone hq, hdone, hbusy]; rfl
  · rw [step_of_waitDone hq, if_pos hdone]

end Sys2Proof.Machine
end

section
/-! PROOFS. O6, O12: the reset input, and a command while the block is busy (R260, R261, R266). -/

namespace Sys2Proof.Machine

/-- The reset input, once it is due, resets the block from whatever state (R260, R261). -/
theorem step_of_reset {s : State} {e : HostEvent} {rest : List HostEvent} (hq : s.hostq = e :: rest)
    (haction : e.action = .reset) (hdue : s.status.busy = false ∨ e.delay = 0) :
    step s = .next (State.resetBlock { s with hostq := rest }) := by
  rw [step_of_host hq hdue (by rw [haction]; nofun), haction]
  rfl

/-- Settles O6: the step is the reset of the block. -/
theorem resetInputEndsAnyOperation : Obligations.ResetInputEndsAnyOperation := by
  intro s e rest hq haction hdue
  exact ⟨_, step_of_reset hq haction hdue, rfl, rfl, rfl, rfl, rfl, fun _ => rfl, fun _ => rfl, rfl, rfl, rfl⟩

/-- Settles O12: a command answers a state, and all its effects but none at all need an idle block. -/
theorem commandsIgnoredWhileBusy : Obligations.CommandsIgnoredWhileBusy := by
  intro i s hi hbusy
  obtain ⟨t, h⟩ := exec_next i s
  rcases exec_cmdw_cases hi h with rfl | ⟨hidle, -⟩
  · exact h
  · rw [hbusy] at hidle
    cases hidle

end Sys2Proof.Machine
end

section
/-! PROOFS. O57, O58: a host that touches the running operation's input, and how the operation then ends (R267). -/

namespace Sys2Proof.Machine

/-! ## Touching the input -/

section
variable {s : State} {a : Nat}

/-- A write inside the input stores the byte and marks the hazard, if an operation runs (R267). -/
theorem writeIbuf_inside (ha : a < s.cfg.ibufCap) (hin : a < s.n) (b : Byte) :
    writeIbuf a b s = .next (State.markHazard { s with ibuf := s.ibuf.write a b }) := by
  simp only [writeIbuf, if_neg (Nat.not_le.2 ha), if_pos hin]

/-- A write beyond the input stores the byte and no more (log 12). -/
theorem writeIbuf_beyond (ha : a < s.cfg.ibufCap) (hout : s.n ≤ a) (b : Byte) :
    writeIbuf a b s = .next { s with ibuf := s.ibuf.write a b } := by
  simp only [writeIbuf, if_neg (Nat.not_le.2 ha), if_neg (Nat.not_lt.2 hout)]

theorem markHazard_busy (hbusy : s.status.busy = true) : s.markHazard.hazard = true := by
  rw [State.markHazard_hazard, hbusy, Bool.or_true]

end

/-- Settles O57: by whether the address is inside the input; a write of `IN_LEN` always touches it. -/
theorem touchingTheInputIsAHazard : Obligations.TouchingTheInputIsAHazard := by
  intro s a b v rest hbusy
  refine ⟨fun hq ha => ?_, fun hq => ?_⟩
  · have hstep : step s = writeIbuf a b { s with hostq := rest } := step_of_host hq (.inr rfl) nofun
    rcases Nat.lt_or_ge a s.n with hin | hout
    · have hwrite := writeIbuf_inside (s := { s with hostq := rest }) ha hin b
      exact ⟨_, hstep.trans hwrite, fun _ => markHazard_busy hbusy,
        fun hout => absurd hin (Nat.not_lt.2 hout), rfl, rfl⟩
    · have hwrite := writeIbuf_beyond (s := { s with hostq := rest }) ha hout b
      exact ⟨_, hstep.trans hwrite, fun hin => absurd hin (Nat.not_lt.2 hout), fun _ => rfl, rfl, rfl⟩
  · exact ⟨_, step_of_host hq (.inr rfl) nofun, markHazard_busy hbusy, rfl, rfl⟩

/-! ## The end of the operation -/

/-- A running operation whose input was touched ends at the engine's next move (R267, log 5). -/
theorem step_of_hazard {s : State} (hbusy : s.status.busy = true) (hhazard : s.hazard = true) (hq : s.hostq = []) :
    step s = .next s.endHazard := by
  rw [step_of_hostq_nil hq, if_pos hbusy, engineMove, if_pos hhazard]
  rfl

theorem hazardKind_ne_illegalCommand (n : Nat) : hazardKind n ≠ some .illegalCommand := by
  unfold hazardKind
  split <;> nofun

/-- The error that an operation on a touched input ends with, if any, is the free value's (U4). -/
theorem endHazard_err (s : State) : s.endHazard.status.err = hazardKind (Config.freeNat s.fresh % 5) := by
  rw [State.endHazard]
  cases hazardKind (Config.freeNat s.fresh % 5) <;> rfl

/-- Settles O58: by the two ends of such an operation, neither of which has code 5. -/
theorem hazardEndsSoundly : Obligations.HazardEndsSoundly := by
  intro s hbusy hhazard hq _
  have herr : s.endHazard.status.err ≠ some .illegalCommand := by
    rw [endHazard_err]
    exact hazardKind_ne_illegalCommand _
  refine ⟨_, step_of_hazard hbusy hhazard hq, ?_⟩
  rcases endHazard_cases s with ⟨kind, heq⟩ | ⟨len, empty, hlen, hempty, heq⟩ <;> rw [heq] at herr ⊢
  · exact ⟨rfl, rfl, rfl, rfl, Nat.zero_le _, herr, fun _ => rfl, fun _ => rfl, rfl, fun _ => rfl⟩
  · have hzero (h : empty = true) : BitVec.ofNat 32 len = 0 := by rw [hempty h]; rfl
    exact ⟨rfl, rfl, rfl, rfl, (toNat_ofNat_le len).trans hlen, herr,
      fun h => hzero (h.resolve_left fun hne => hne rfl), fun hne => absurd rfl hne, rfl, fun _ => rfl⟩

end Sys2Proof.Machine
end
